-- ==== Sys2Proof/Word.lean ====
section
/-! DEFINITION. The word types of the block and their plainest arithmetic (spec/00_scope.md rules R9, R10, R18, R19). -/

namespace Sys2Proof

/-- One byte of data memory (R38). -/
abbrev Byte := BitVec 8

/-- A 32-bit word: indices, counter words, tokens, immediates (R9, R30). -/
abbrev Word := BitVec 32

/-- A 64-bit word: command words, operand and result registers, the 64-bit counter (R41, R79). -/
abbrev DWord := BitVec 64

/-- `MAX_64` of R19. -/
def max64 : DWord := BitVec.ofNat 64 (2 ^ 64 - 1)

/-- `MAX_32` of R19, zero-extended to 64 bits. -/
def max32 : DWord := BitVec.ofNat 64 (2 ^ 32 - 1)

/-- `zext_64` of a 32-bit value (R19). -/
def zext64 (v : Word) : DWord := BitVec.ofNat 64 v.toNat

/-- `zext_64` of a Boolean outcome (R83). -/
def bool64 (b : Bool) : DWord := if b then 1 else 0

/-- An FIFO instance number: the 4-bit INST field (R7). -/
abbrev InstId := Fin 16

/-- An agent id: 4 bits (R6). FG is 0, TMR is 1, IRQk is k + 2 (R149). -/
abbrev AgentId := Fin 16

/-- The foreground agent (R6). -/
def FG : AgentId := 0

/-- The timer interrupt agent (R6). -/
def TMR : AgentId := 1

end Sys2Proof
end

