-- ==== Sys2Proof/Config.lean ====
section
/-! DEFINITION. The named parameters of the block (spec/00_scope.md rules R6 to R17) and the one free value:
the choice of the next move, which R49 leaves open. -/

namespace Sys2Proof

/-- `SCHED`, the scheduling policy (R14). -/
inductive Sched where
  | preempt
  | free
  deriving DecidableEq, Repr

/-- The parameters of R6 to R16. Entries of the three tables at instance numbers from `nfifo` on
belong to no instance: nothing reads them. -/
structure Config where
  nfifo     : Nat
  nirq      : Nat
  esize     : Vector Nat 16
  prod      : Vector AgentId 16
  cons      : Vector AgentId 16
  tick64    : Bool
  alarmEn   : Bool
  tickSplit : Bool
  sched     : Sched
  tickHz    : Nat
  deriving DecidableEq, Repr

/-- `IDXW`, the index width of R9 (the indices of a FIFO have type `Word`). -/
def Config.idxWidth : Nat := 32

/-- `AW`, the data address width of R10. -/
def Config.addrWidth : Nat := 32

/-- The number of byte addresses of data memory, 2^AW (R10). -/
def Config.dataSpace : Nat := 2 ^ Config.addrWidth

/-- `TW`, the counter width (R11). -/
def Config.tw (c : Config) : Nat := if c.tick64 then 64 else 32

/-- `MAX_TW`, zero-extended to 64 bits (R19, R105). -/
def Config.maxTw (c : Config) : DWord := if c.tick64 then max64 else max32

/-- Does agent `a` exist: FG, TMR or an IRQk with k < NIRQ (R6)? -/
def Config.hasAgent (c : Config) (a : AgentId) : Bool := decide (a.val < c.nirq + 2)

/-- An interrupt agent that exists: TMR or some IRQk (R6). -/
def Config.isInterrupt (c : Config) (a : AgentId) : Bool := c.hasAgent a && decide (a ≠ FG)

/-- Does FIFO instance `i` exist (R7)? -/
def Config.hasInst (c : Config) (i : InstId) : Bool := decide (i.val < c.nfifo)

/-- The constraints on one FIFO instance: R8 and R15. -/
def Config.instLegal (c : Config) (i : InstId) : Bool :=
  (c.esize[i] == 1 || c.esize[i] == 2 || c.esize[i] == 4)
    && c.isInterrupt c.prod[i]
    && decide (c.cons[i] = FG)
    && decide (c.prod[i] ≠ c.cons[i])

/-- R17: a configuration that this refuses has no machine and no runs. (`TICK_SPLIT` and `SCHED`
have no illegal value here: their types hold the legal ones only.) -/
def Config.legal (c : Config) : Bool :=
  decide (1 ≤ c.nfifo) && decide (c.nfifo ≤ 16) && decide (c.nirq ≤ 14)
    && ((List.finRange 16).all fun i => !c.hasInst i || c.instLegal i)
    && (!c.alarmEn || c.tick64)

/-- The default configuration of spec/95_test_vectors.md: NFIFO = 2, ESIZE(0) = 1, ESIZE(1) = 4,
NIRQ = 1, both producers IRQ0, both consumers FG, TICK64, ALARM_EN and TICK_SPLIT true, PREEMPT;
TICK_HZ as R16 has it. DESIGN CHOICE that the machine after reset has it: see assumption 2. -/
def Config.default : Config where
  nfifo     := 2
  nirq      := 1
  esize     := (Vector.replicate 16 1).set 1 4
  prod      := Vector.replicate 16 2
  cons      := Vector.replicate 16 FG
  tick64    := true
  alarmEn   := true
  tickSplit := true
  sched     := .preempt
  tickHz    := 1000

/-- FREE VALUE. When several moves are enabled and the host has scripted none, which one comes next is
left open (R49): "A claim must hold for every choice". Nothing evaluates this constant. -/
opaque Config.freeChoice : Nat → Nat

end Sys2Proof
end

