-- ==== Sys2Proof/Syntax.lean ====
section
/-! DEFINITION. The operations of the block: one constructor per row of spec/opcode_table.json
(spec/30_encoding.md rules R80 to R87). -/

namespace Sys2Proof

/-- The operand of `fifo.push` and `tick.elapsed`: SRC = 0 takes IMM, SRC = 1 takes register A and
has IMM = 0 (R80, R82). -/
inductive Operand where
  | imm (v : Word)
  | regA
  deriving DecidableEq, Repr

/-- The operation set `rhcsf-core-ops v1` (R1, R84). Each docstring names the source function that R85
gives the operation. -/
inductive Instr where
  /-- `fifo.init cN, #len` (R90): `init(backing_pointer, length)`. -/
  | fifoInit (i : InstId) (len : Word)
  /-- `fifo.push cN, #v` or `fifo.push cN, a` (R91): `writer().push_one(value)`. -/
  | fifoPush (i : InstId) (src : Operand)
  /-- `fifo.pop cN` (R94): `reader().pop_one()`. -/
  | fifoPop (i : InstId)
  /-- `fifo.drop cN` (R92): the drop-oldest pop of the overflow idiom, in producer context. -/
  | fifoDrop (i : InstId)
  /-- `fifo.isfull cN` (R96): `is_full()`. -/
  | fifoIsfull (i : InstId)
  /-- `fifo.isempty cN` (R97): `is_empty()`. -/
  | fifoIsempty (i : InstId)
  /-- `fifo.regwaker cN, #tok` (R95): register a waker before checking. -/
  | fifoRegwaker (i : InstId) (tok : Word)
  /-- `fifo.wake cN` (R93): the "notify one waiter" wake call. -/
  | fifoWake (i : InstId)
  /-- `tick.inc` (R103): `on_timer_interrupt()`. -/
  | tickInc
  /-- `tick.now` (R104): `now()`. -/
  | tickNow
  /-- `tick.elapsed #snap` or `tick.elapsed a` (R105): `elapsed(snapshot)`. -/
  | tickElapsed (src : Operand)
  /-- `alarm.set #tok` (R110): `set_alarm(timestamp, callback)`, the timestamp in A. -/
  | alarmSet (tok : Word)
  /-- `alarm.check` (R111): `check_alarm(current_tick)`. -/
  | alarmCheck
  /-- `seq.lda #imm` (R115). -/
  | seqLda (imm : Word)
  /-- `seq.ldah #imm` (R116). -/
  | seqLdah (imm : Word)
  /-- `seq.adda #simm` (R117). -/
  | seqAdda (simm : Word)
  /-- `seq.mova` (R118). -/
  | seqMova
  /-- `seq.j L` (R119). -/
  | seqJ (simm : Word)
  /-- `seq.bp L` (R120). -/
  | seqBp (simm : Word)
  /-- `seq.bnp L` (R121). -/
  | seqBnp (simm : Word)
  /-- `seq.halt` (R122). -/
  | seqHalt
  deriving DecidableEq, Repr

/-- The FIFO instance an operation names, if it is a FIFO operation (R81). -/
def Instr.inst? : Instr → Option InstId
  | .fifoInit i _ => some i
  | .fifoPush i _ => some i
  | .fifoPop i => some i
  | .fifoDrop i => some i
  | .fifoIsfull i => some i
  | .fifoIsempty i => some i
  | .fifoRegwaker i _ => some i
  | .fifoWake i => some i
  | .tickInc => none
  | .tickNow => none
  | .tickElapsed _ => none
  | .alarmSet _ => none
  | .alarmCheck => none
  | .seqLda _ => none
  | .seqLdah _ => none
  | .seqAdda _ => none
  | .seqMova => none
  | .seqJ _ => none
  | .seqBp _ => none
  | .seqBnp _ => none
  | .seqHalt => none

/-- The alarm operations, legal only when ALARM_EN holds (R86 condition 7). -/
def Instr.isAlarm : Instr → Bool
  | .fifoInit _ _ => false
  | .fifoPush _ _ => false
  | .fifoPop _ => false
  | .fifoDrop _ => false
  | .fifoIsfull _ => false
  | .fifoIsempty _ => false
  | .fifoRegwaker _ _ => false
  | .fifoWake _ => false
  | .tickInc => false
  | .tickNow => false
  | .tickElapsed _ => false
  | .alarmSet _ => true
  | .alarmCheck => true
  | .seqLda _ => false
  | .seqLdah _ => false
  | .seqAdda _ => false
  | .seqMova => false
  | .seqJ _ => false
  | .seqBp _ => false
  | .seqBnp _ => false
  | .seqHalt => false

end Sys2Proof
end

