-- ==== Sys2Proof/WellFormed.lean ====
section
/-! DEFINITION. When an operation has a legal command word in a configuration (spec/30_encoding.md
rules R81 and R86): the two conditions the types of `Instr` do not already carry. -/

namespace Sys2Proof

/-- R86 condition 3: a FIFO operation names an instance that exists. -/
def Instr.instOk (c : Config) (i : Instr) : Bool :=
  match i.inst? with
  | some n => c.hasInst n
  | none => true

/-- R86 condition 7: an alarm operation needs ALARM_EN. -/
def Instr.alarmOk (c : Config) (i : Instr) : Bool := !i.isAlarm || c.alarmEn

/-- Well-formed: a configuration's decoder can answer this operation. -/
def Instr.wellFormed (c : Config) (i : Instr) : Bool := i.instOk c && i.alarmOk c

end Sys2Proof
end

