-- ==== Sys2Proof/Decode.lean ====
section
/-! DEFINITION. The command word C64 (spec/30_encoding.md rules R79, R80): its fields, the opcode map of
R84 as a table, the decoder of R86, total on all 2^64 words and naming the condition a word breaks, and
after it the encoder (R88) and the byte image of a program (R79). -/

namespace Sys2Proof

/-! ### The fields of a command word (R80) -/

/-- OPC, bits 7:0. -/
def opcField (w : DWord) : BitVec 8 := BitVec.ofNat 8 (w.toNat % 2 ^ 8)

/-- INST, bits 11:8. -/
def instField (w : DWord) : InstId := Fin.ofNat 16 (w.toNat / 2 ^ 8)

/-- SRC, bit 12. -/
def srcField (w : DWord) : Bool := w.toNat / 2 ^ 12 % 2 == 1

/-- RSV, bits 31:13. -/
def rsvField (w : DWord) : Nat := w.toNat / 2 ^ 13 % 2 ^ 19

/-- IMM, bits 63:32. -/
def immField (w : DWord) : Word := BitVec.ofNat 32 (w.toNat / 2 ^ 32)

/-! ### The opcode map (R82, R84) -/

/-- One row of R84 with what R82 says of its operands, and the operation its fields stand for. -/
structure OpcodeRow where
  opc        : BitVec 8
  isFifo     : Bool
  takesSrc   : Bool
  takesImm   : Bool
  needsAlarm : Bool
  build      : InstId → Operand → Word → Instr

/-- The FIFO group, 0x10 to 0x17 (R84). -/
def fifoRows : List OpcodeRow :=
  [ ⟨0x10, true, false, true, false, fun i _ v => .fifoInit i v⟩,
    ⟨0x11, true, true, true, false, fun i o _ => .fifoPush i o⟩,
    ⟨0x12, true, false, false, false, fun i _ _ => .fifoPop i⟩,
    ⟨0x13, true, false, false, false, fun i _ _ => .fifoDrop i⟩,
    ⟨0x14, true, false, false, false, fun i _ _ => .fifoIsfull i⟩,
    ⟨0x15, true, false, false, false, fun i _ _ => .fifoIsempty i⟩,
    ⟨0x16, true, false, true, false, fun i _ v => .fifoRegwaker i v⟩,
    ⟨0x17, true, false, false, false, fun i _ _ => .fifoWake i⟩ ]

/-- The clock and alarm groups, 0x20 to 0x29 (R84). -/
def clockRows : List OpcodeRow :=
  [ ⟨0x20, false, false, false, false, fun _ _ _ => .tickInc⟩,
    ⟨0x21, false, false, false, false, fun _ _ _ => .tickNow⟩,
    ⟨0x22, false, true, true, false, fun _ o _ => .tickElapsed o⟩,
    ⟨0x28, false, false, true, true, fun _ _ v => .alarmSet v⟩,
    ⟨0x29, false, false, false, true, fun _ _ _ => .alarmCheck⟩ ]

/-- The sequencer group, 0x40 to 0x47 (R84). -/
def seqRows : List OpcodeRow :=
  [ ⟨0x40, false, false, true, false, fun _ _ v => .seqLda v⟩,
    ⟨0x41, false, false, true, false, fun _ _ v => .seqLdah v⟩,
    ⟨0x42, false, false, true, false, fun _ _ v => .seqAdda v⟩,
    ⟨0x43, false, false, false, false, fun _ _ _ => .seqMova⟩,
    ⟨0x44, false, false, true, false, fun _ _ v => .seqJ v⟩,
    ⟨0x45, false, false, true, false, fun _ _ v => .seqBp v⟩,
    ⟨0x46, false, false, true, false, fun _ _ v => .seqBnp v⟩,
    ⟨0x47, false, false, false, false, fun _ _ _ => .seqHalt⟩ ]

/-- The whole opcode map; every other OPC value is unassigned (R84). -/
def opcodeMap : List OpcodeRow := fifoRows ++ clockRows ++ seqRows

/-! ### The decoder (R86) -/

/-- Why a word is `illegal`: the conditions of R86 in its order. Where several hold, the first is named;
R86 gives all of them the one answer `illegal`. -/
inductive DecodeError where
  /-- Condition 1. -/
  | unassignedOpc
  /-- Condition 2. -/
  | reservedBits
  /-- Condition 3. -/
  | instAbsent
  /-- Condition 4. -/
  | instNotTaken
  /-- Condition 5. -/
  | srcNotTaken
  /-- Condition 6. -/
  | immNotTaken
  /-- Condition 7. -/
  | alarmAbsent
  deriving DecidableEq, Repr

/-- Conditions 2 to 7 of R86 for a word with an assigned OPC. With SRC = 1 the operand is A, so no IMM
is taken (R80, opcode_table.json rows `fifo.push` and `tick.elapsed`). -/
def OpcodeRow.reject (r : OpcodeRow) (c : Config) (w : DWord) : Option DecodeError :=
  if rsvField w ≠ 0 then some .reservedBits
  else if r.isFifo && !c.hasInst (instField w) then some .instAbsent
  else if !r.isFifo && decide (instField w ≠ 0) then some .instNotTaken
  else if srcField w && !r.takesSrc then some .srcNotTaken
  else if decide (immField w ≠ 0) && (!r.takesImm || srcField w) then some .immNotTaken
  else if r.needsAlarm && !c.alarmEn then some .alarmAbsent
  else none

/-- The operand a word carries (R82). -/
def operandField (w : DWord) : Operand := if srcField w then .regA else .imm (immField w)

/-- `decode(word)` (R86). -/
def decode (c : Config) (w : DWord) : Except DecodeError Instr :=
  match opcodeMap.find? (fun r => r.opc == opcField w) with
  | none => .error .unassignedOpc
  | some r =>
    match r.reject c w with
    | some e => .error e
    | none => .ok (r.build (instField w) (operandField w) (immField w))

/-- The decoder's answer to an opcode-table word under the default configuration. A command word is one
64-bit word (R80), so bits above `nbits` are 0 and bit numbering is the word's own (R18). -/
def decodeTableWord (nbits w : Nat) : Option Instr :=
  (decode Config.default (BitVec.ofNat 64 (w % 2 ^ nbits))).toOption

/-! ### The encoder (R88) -/

/-- `IMM * 2^32 + SRC * 2^12 + INST * 2^8 + OPC` (R88). -/
def mkWord (opc : Nat) (i : InstId) (src : Bool) (imm : Word) : DWord :=
  BitVec.ofNat 64 (imm.toNat * 2 ^ 32 + src.toNat * 2 ^ 12 + i.val * 2 ^ 8 + opc)

/-- OPC of an operation (R84). -/
def Instr.opc : Instr → Nat
  | .fifoInit _ _ => 0x10
  | .fifoPush _ _ => 0x11
  | .fifoPop _ => 0x12
  | .fifoDrop _ => 0x13
  | .fifoIsfull _ => 0x14
  | .fifoIsempty _ => 0x15
  | .fifoRegwaker _ _ => 0x16
  | .fifoWake _ => 0x17
  | .tickInc => 0x20
  | .tickNow => 0x21
  | .tickElapsed _ => 0x22
  | .alarmSet _ => 0x28
  | .alarmCheck => 0x29
  | .seqLda _ => 0x40
  | .seqLdah _ => 0x41
  | .seqAdda _ => 0x42
  | .seqMova => 0x43
  | .seqJ _ => 0x44
  | .seqBp _ => 0x45
  | .seqBnp _ => 0x46
  | .seqHalt => 0x47

/-- SRC of an operand (R80). -/
def Operand.src : Operand → Bool
  | .imm _ => false
  | .regA => true

/-- IMM of an operand: 0 when SRC = 1 (R82). -/
def Operand.immBits : Operand → Word
  | .imm v => v
  | .regA => 0

/-- SRC of an operation (R80). -/
def Instr.src : Instr → Bool
  | .fifoPush _ o => o.src
  | .tickElapsed o => o.src
  | .fifoInit _ _ => false
  | .fifoPop _ => false
  | .fifoDrop _ => false
  | .fifoIsfull _ => false
  | .fifoIsempty _ => false
  | .fifoRegwaker _ _ => false
  | .fifoWake _ => false
  | .tickInc => false
  | .tickNow => false
  | .alarmSet _ => false
  | .alarmCheck => false
  | .seqLda _ => false
  | .seqLdah _ => false
  | .seqAdda _ => false
  | .seqMova => false
  | .seqJ _ => false
  | .seqBp _ => false
  | .seqBnp _ => false
  | .seqHalt => false

/-- IMM of an operation (R82). -/
def Instr.immBits : Instr → Word
  | .fifoInit _ len => len
  | .fifoPush _ o => o.immBits
  | .fifoRegwaker _ tok => tok
  | .tickElapsed o => o.immBits
  | .alarmSet tok => tok
  | .seqLda v => v
  | .seqLdah v => v
  | .seqAdda v => v
  | .seqJ v => v
  | .seqBp v => v
  | .seqBnp v => v
  | .fifoPop _ => 0
  | .fifoDrop _ => 0
  | .fifoIsfull _ => 0
  | .fifoIsempty _ => 0
  | .fifoWake _ => 0
  | .tickInc => 0
  | .tickNow => 0
  | .alarmCheck => 0
  | .seqMova => 0
  | .seqHalt => 0

/-- The command word of an operation (R88). -/
def encode (i : Instr) : DWord := mkWord i.opc (i.inst?.getD 0) i.src i.immBits

/-! ### The byte image of a program (R79) -/

/-- Eight bytes, little-endian, as one command word (R79). -/
def wordOfBytes (b0 b1 b2 b3 b4 b5 b6 b7 : Byte) : DWord :=
  BitVec.ofNat 64
    (b0.toNat + 2 ^ 8 * (b1.toNat + 2 ^ 8 * (b2.toNat + 2 ^ 8 * (b3.toNat
      + 2 ^ 8 * (b4.toNat + 2 ^ 8 * (b5.toNat + 2 ^ 8 * (b6.toNat + 2 ^ 8 * b7.toNat)))))))

/-- A program stored as bytes: 8 bytes a word, little-endian, in list order (R79). A length that is no
multiple of 8 is no program image: DESIGN CHOICE (assumption 16). -/
def programOfBytes : List Byte → Option (List DWord)
  | [] => some []
  | b0 :: b1 :: b2 :: b3 :: b4 :: b5 :: b6 :: b7 :: rest =>
    (programOfBytes rest).map (wordOfBytes b0 b1 b2 b3 b4 b5 b6 b7 :: ·)
  | _ => none

/-- Byte `j` of a command word (R79). -/
def wordByte (w : DWord) (j : Nat) : Byte := BitVec.ofNat 8 (w.toNat / 2 ^ (8 * j))

/-- The byte image of a program (R79). -/
def programToBytes (p : List DWord) : List Byte :=
  p.flatMap fun w => (List.range 8).map (wordByte w)

end Sys2Proof
end

