-- ==== Sys2Proof/Machine/State.lean ====
section
/-! DEFINITION. The state of the block as plain data (spec/10_state.md), the reasons a step can stop,
and the state after reset (spec/70_reset_and_hazards.md rule R152). -/

namespace Sys2Proof.Machine

/-- The registers of one FIFO instance (R22 to R28). -/
structure Fifo where
  /-- BOUND(i), R23. -/
  bound : Bool
  /-- BASE(i), R24. -/
  base : Word
  /-- LEN(i), R25. -/
  len : Word
  /-- WR(i), R26. -/
  wr : Word
  /-- RD(i), R27. -/
  rd : Word
  /-- WKV(i), R28. -/
  wkv : Bool
  /-- WKT(i), R28. -/
  wkt : Word
  deriving DecidableEq, Repr

/-- The locals of an operation in flight (R44, R21): the operands captured from A or IMM, and the
values its micro-operations load. The other captured operands (len, tok, imm, simm) are the IMM of the
context's own command word. -/
structure Locals where
  /-- `base` of `fifo.init` (R82). -/
  base : DWord
  /-- `snap` of `tick.elapsed` (R82). -/
  snap : DWord
  /-- `ts` of `alarm.set` (R82). -/
  ts : DWord
  /-- `v`: the value of `fifo.push` (R82), the element of `fifo.pop` and `fifo.drop` (R94). -/
  v : Word
  /-- `r`, the loaded RD(i). -/
  r : Word
  /-- `w`, the loaded WR(i). -/
  w : Word
  /-- `h1`, the first loaded HI (R104). -/
  h1 : Word
  /-- `l`, the loaded LO (R104). -/
  l : Word
  /-- `h2`, the second loaded HI (R104). -/
  h2 : Word
  /-- `c`, the carry of `tick.inc` (R103). -/
  c : Bool
  deriving DecidableEq, Repr

/-- The in-flight context `some (word, k, locals)` of R44. -/
structure Ctx where
  word : DWord
  k    : Nat
  loc  : Locals
  deriving DecidableEq, Repr

/-- RUN(a), R39. -/
inductive Run where
  | running
  | halted
  deriving DecidableEq, Repr

/-- The record of one agent (R39 to R44). A register with its written bit (R41, R42, R43) is an
`Option`: `none` is the spec's own state "unwritten", in which no rule gives or reads its bits. -/
structure Agent where
  /-- RUN(a), R39. -/
  run : Run
  /-- APC(a), an integer (R40). -/
  apc : Int
  /-- A(a), R41. -/
  a : Option DWord
  /-- RES(a), R42. -/
  res : Option DWord
  /-- P(a), R43. -/
  p : Option Bool
  /-- CTX(a), R44. -/
  ctx : Option Ctx
  deriving DecidableEq, Repr

/-- The fault names of R124. -/
inductive FCode where
  /-- F_ILLEGAL, 0x01 (R125). -/
  | illegal
  /-- F_ROLE, 0x02 (R126). -/
  | role
  /-- F_UNBOUND, 0x03 (R127). -/
  | unbound
  /-- F_INIT_TWICE, 0x04 (R128). -/
  | initTwice
  /-- F_INIT_LEN, 0x05 (R129). -/
  | initLen
  /-- F_INIT_ALIGN, 0x06 (R130). -/
  | initAlign
  /-- F_INIT_RANGE, 0x07 (R131). -/
  | initRange
  /-- F_INIT_OVERLAP, 0x08 (R132). -/
  | initOverlap
  /-- F_OVERRUN, 0x09 (R133). -/
  | overrun
  /-- F_UNINIT_READ, 0x0A (R134). -/
  | uninitRead
  /-- F_PC_RANGE, 0x0B (R135). -/
  | pcRange
  /-- F_UNWRITTEN_REG, 0x0C (R136). -/
  | unwrittenReg
  deriving DecidableEq, Repr

/-- `(FCODE, FAGENT, FAPC, FWORD)` of R36. -/
structure FaultRecord where
  fcode  : BitVec 8
  fagent : AgentId
  fapc   : Word
  fword  : DWord
  deriving DecidableEq, Repr

/-- An entry of the event history EV (R37). -/
inductive Event where
  /-- `Wake(i, tok)`, from `fifo.wake` (R93). -/
  | wake (i : InstId) (tok : Word)
  /-- `Fire(tok)`, from AlarmCheck (R109). -/
  | fire (tok : Word)
  deriving DecidableEq, Repr

/-- One step of the machine (R49): a step of an agent, or a host action (R54, R55). -/
inductive Move where
  /-- Agent `a` performs one micro-operation. -/
  | agent (a : AgentId)
  /-- `TRIGGER(a)`, R54. -/
  | trigger (a : AgentId)
  /-- `RESET`, R55. -/
  | reset
  deriving DecidableEq, Repr

/-- The machine state. The first ten fields are the tuple of R22. `cfg` and `prog` are the parameters of
the step relation (R22, R45), held as data that no step writes. The last four fields are the model's
own: they resolve the choices R49 and R54 leave open (assumption 1). -/
structure State where
  /-- `fifo[0..NFIFO-1]` (R22); entries from NFIFO on belong to no instance. -/
  fifo : Vector Fifo 16
  /-- LO, R30. -/
  lo : Word
  /-- HI, R31. -/
  hi : Word
  /-- ARMED, R33. -/
  armed : Bool
  /-- TS, R34. -/
  ts : DWord
  /-- CB, R35. -/
  cb : Word
  /-- FAULT, R36. -/
  fault : Option FaultRecord
  /-- EV, R37, oldest entry first. -/
  ev : List Event
  /-- mem, R38: the bytes that have been written, by rising address. -/
  mem : List Host.Cell
  /-- `agent[0..NIRQ+1]` (R22); entries from NIRQ + 2 on belong to no agent. -/
  agent : Vector Agent 16
  /-- The configuration, R6 to R17. -/
  cfg : Config
  /-- `prog(a)`, R45. -/
  prog : Vector (List DWord) 16
  /-- The model's own: the moves the schedule and the host have chosen, next one first. -/
  moves : List Move
  /-- The model's own: the agent whose step is being performed. -/
  actor : AgentId
  /-- The model's own: how many free choices of a move have been taken. -/
  choiceNo : Nat
  /-- The model's own: once the script is used up, does the host trigger no more agents (R54, R58)? -/
  hostDone : Bool
  deriving DecidableEq, Repr

/-- Why a step stops with a fault. Each answers a state that no run reaches (the statements of
Certificates say so). A fault of the SPEC (R124) is none of these: it is a next state in which FAULT is
set (`State.raise`). -/
inductive Fault where
  /-- A context holds a micro-operation index that its operation does not have (R51 gives no `μk`).
  Raised by every meaning. Safe: the machine stops. -/
  | noSuchMicroOp
  /-- A context holds a word that does not decode. Raised by the fetch of a continued operation (R51).
  Safe: the machine stops. -/
  | illegalContext
  /-- A slot that lies outside the 2^32 bytes of data memory, which R62 excludes. Raised by the element
  accesses of `fifo.push`, `fifo.pop` and `fifo.drop`. Safe: the machine stops. -/
  | addressOutsideSpace
  deriving DecidableEq, Repr

/-- Why a step is refused. -/
inductive Refusal where
  /-- An instruction without a meaning, rejected by `exec`. Safe: the machine stops. -/
  | notModelled (mnemonic : String)
  /-- R17: a refused configuration "has no machine and no runs". Raised by `step`. Safe. -/
  | illegalConfig
  /-- The scripted move is a step of an agent that may not step (R53, R69, R70). Raised by `step`. Safe:
  the step relation of R49 has no such step. -/
  | agentMayNotStep
  /-- The scripted move is a TRIGGER that is not enabled (R53, R54). Raised by `step`. Safe: the host has no such
  action. -/
  | triggerNotEnabled
  deriving DecidableEq, Repr

/-- A FIFO instance after reset (R152). -/
def Fifo.reset : Fifo where
  bound := false
  base  := 0
  len   := 0
  wr    := 0
  rd    := 0
  wkv   := false
  wkt   := 0

/-- The locals before anything is captured or loaded: no rule reads one of them before it is. -/
def Locals.empty : Locals where
  base := 0
  snap := 0
  ts   := 0
  v    := 0
  r    := 0
  w    := 0
  h1   := 0
  l    := 0
  h2   := 0
  c    := false

/-- An agent after reset, with the given RUN (R152). -/
def Agent.reset (run : Run) : Agent where
  run := run
  apc := 0
  a   := none
  res := none
  p   := none
  ctx := none

/-- The state after RESET at power-on (R152, R153) of the machine with configuration `c` and programs
`p`, when the host has scripted the moves `ms`. -/
def State.powerOn (c : Config) (p : Vector (List DWord) 16) (ms : List Move) : State where
  fifo     := Vector.replicate 16 Fifo.reset
  lo       := 0
  hi       := 0
  armed    := false
  ts       := max64
  cb       := 0
  fault    := none
  ev       := []
  mem      := []
  agent    := (Vector.replicate 16 (Agent.reset .halted)).set FG (Agent.reset .running)
  cfg      := c
  prog     := p
  moves    := ms
  actor    := FG
  choiceNo := 0
  hostDone := false

/-- The machine right after reset: the default configuration, no program loaded, no move scripted. -/
def State.reset : State := State.powerOn Config.default (Vector.replicate 16 []) []

end Sys2Proof.Machine
end

