-- ==== Sys2Proof/Machine/Ops.lean ====
section
/-! DEFINITION. The named operations over the state: the primitives of spec/00_scope.md rule R20, data
memory (spec/20_memory.md rules R60, R62), raising a fault and the RESET that alone clears it
(spec/60_exceptions.md rules R138, R139), roles (R140) and the issue of an operation (R50). -/

namespace Sys2Proof.Machine

/-- What one step answers. -/
abbrev Result := Host.Outcome State Fault Refusal

/-! ### Registers -/

/-- Write the record of agent `a`. -/
def State.setAgent (s : State) (a : AgentId) (x : Agent) : State := { s with agent := s.agent.set a x }

/-- The record of the agent whose step is being performed. -/
def State.me (s : State) : Agent := s.agent[s.actor]

/-- Write the record of the agent whose step is being performed. -/
def State.setMe (s : State) (x : Agent) : State := s.setAgent s.actor x

/-- The registers of FIFO instance `i`. -/
def State.fifoAt (s : State) (i : InstId) : Fifo := s.fifo[i]

/-- Write the registers of FIFO instance `i`. -/
def State.setFifo (s : State) (i : InstId) (f : Fifo) : State := { s with fifo := s.fifo.set i f }

/-- `LO <- v` (R30). -/
def State.setLo (s : State) (v : Word) : State := { s with lo := v }

/-- `HI <- v` (R31). -/
def State.setHi (s : State) (v : Word) : State := { s with hi := v }

/-- Write the alarm slot (R33, R34, R35). -/
def State.setAlarm (s : State) (armed : Bool) (ts : DWord) (cb : Word) : State :=
  { s with armed := armed, ts := ts, cb := cb }

/-- Write data memory (R38). -/
def State.setMem (s : State) (m : List Host.Cell) : State := { s with mem := m }

/-- `emit E` (R20, R37). -/
def State.emit (s : State) (e : Event) : State := { s with ev := s.ev ++ [e] }

/-- Choose the agent whose step is performed (the model's own, assumption 1). -/
def State.setActor (s : State) (a : AgentId) : State := { s with actor := a }

/-- `A <- v`, which makes A written (R41). -/
def State.setA (s : State) (v : DWord) : State := s.setMe { s.me with a := some v }

/-- `RES <- v`, which makes RES written (R42). -/
def State.setRes (s : State) (v : DWord) : State := s.setMe { s.me with res := some v }

/-- `P <- b`, which makes P written (R43). -/
def State.setP (s : State) (b : Bool) : State := s.setMe { s.me with p := some b }

/-- `APC <- n` in an operation that sets APC itself: its context is cleared, with no `+ 1` (R52, R119). -/
def State.completeAt (s : State) (n : Int) : State := s.setMe { s.me with ctx := none, apc := n }

/-- `complete` (R20, R52). -/
def State.complete (s : State) : State := s.completeAt (s.me.apc + 1)

/-- `goto μk`, and falling through to μk, with the locals as they now are (R20, R51). -/
def State.goto (s : State) (k : Nat) (loc : Locals) : State :=
  s.setMe { s.me with ctx := s.me.ctx.map fun c => { c with k := k, loc := loc } }

/-- `prog(a)[APC(a)]`, if APC(a) is in 0..|prog(a)|-1 (R50). -/
def State.fetchWord? (s : State) : Option DWord :=
  if s.me.apc < 0 then none else s.prog[s.actor][s.me.apc.toNat]?

/-- The word a fault records: `prog(a)[APC(a)]`, or 0 when there is none (R138). -/
def State.progWord (s : State) : DWord := s.fetchWord?.getD 0

/-! ### Raising a fault, and the RESET that clears it -/

/-- FCODE of each fault name (R124). -/
def FCode.code : FCode → BitVec 8
  | .illegal => 0x01
  | .role => 0x02
  | .unbound => 0x03
  | .initTwice => 0x04
  | .initLen => 0x05
  | .initAlign => 0x06
  | .initRange => 0x07
  | .initOverlap => 0x08
  | .overrun => 0x09
  | .uninitRead => 0x0A
  | .pcRange => 0x0B
  | .unwrittenReg => 0x0C

/-- What `raise` records: FCODE, the agent, its APC in 32 bits (assumption 6) and the word (R36, R138). -/
def State.faultRecord (s : State) (f : FCode) : FaultRecord :=
  ⟨f.code, s.actor, BitVec.ofInt 32 s.me.apc, s.progWord⟩

/-- `raise F` (R138): record the fault and clear the agent's own context; nothing else changes. -/
def State.raise (s : State) (f : FCode) : State :=
  { s with fault := some (s.faultRecord f) }.setMe { s.me with ctx := none }

/-- The host's RESET (R55, R153), the only way out of a fault (R139): everything takes its value of R152
but data memory, which is kept. Parameters and programs are no state of R22 and stay; so do the model's
own fields for what the host does next (assumption 11). -/
def State.hostReset (s : State) : State :=
  { State.powerOn s.cfg s.prog s.moves with mem := s.mem, choiceNo := s.choiceNo, hostDone := s.hostDone }

/-! ### Data memory -/

/-- `mem[x]`: `none` where nothing has been written (R38). -/
def memGet : List Host.Cell → Nat → Option Byte
  | [], _ => none
  | (a, b) :: m, x => if a = x then some b else memGet m x

/-- `mem[x] <- some b`, keeping the addresses rising. -/
def memSet : List Host.Cell → Nat → Byte → List Host.Cell
  | [], x, b => [(x, b)]
  | (a, c) :: m, x, b =>
    if x < a then (x, b) :: (a, c) :: m
    else if x = a then (x, b) :: m
    else (a, c) :: memSet m x b

/-- `MemRead(addr, n)`, little-endian (R60, R61); `none` where R60 raises F_UNINIT_READ. -/
def memRead (m : List Host.Cell) (addr : Nat) : Nat → Option Nat
  | 0 => some 0
  | n + 1 =>
    match memGet m addr, memRead m (addr + 1) n with
    | some b, some rest => some (b.toNat + 2 ^ 8 * rest)
    | _, _ => none

/-- `MemWrite(addr, n, v)`, little-endian (R60, R61). -/
def memWrite (m : List Host.Cell) (addr : Nat) : Nat → Nat → List Host.Cell
  | 0, _ => m
  | n + 1, v => memWrite (memSet m addr (BitVec.ofNat 8 v)) (addr + 1) n (v / 2 ^ 8)

/-- The one canonical form of data memory: addresses strictly rising, each inside the data space of
R10. (No entry can equal what an unlisted address reads as, `none`.) -/
def Memory.wf (m : List Host.Cell) : Bool :=
  decide (m.Pairwise fun x y => x.1 < y.1) && m.all fun x => decide (x.1 < Config.dataSpace)

/-! ### Slots -/

/-- `ESIZE(i)` (R8). -/
def State.esizeAt (s : State) (i : InstId) : Nat := s.cfg.esize[i]

/-- `slotaddr(i, idx)` (R62). -/
def State.slotAddr (s : State) (i : InstId) (idx : Word) : Nat :=
  (s.fifoAt i).base.toNat + idx.toNat % (s.fifoAt i).len.toNat * s.esizeAt i

/-- Does the slot lie inside data memory? R62 says every slot does, once `fifo.init` has bound it. -/
def State.slotInSpace (s : State) (i : InstId) (idx : Word) : Bool :=
  decide (s.slotAddr i idx + s.esizeAt i ≤ Config.dataSpace)

/-- `ElemRead(i, idx)` (R62). -/
def State.elemRead (s : State) (i : InstId) (idx : Word) : Option Word :=
  (memRead s.mem (s.slotAddr i idx) (s.esizeAt i)).map (BitVec.ofNat 32)

/-- `ElemWrite(i, idx, v)` (R62): `MemWrite` cuts `v` to EW(i) bits. -/
def State.elemWrite (s : State) (i : InstId) (idx : Word) (v : Word) : State :=
  s.setMem (memWrite s.mem (s.slotAddr i idx) (s.esizeAt i) v.toNat)

/-- `count(i) = (WR(i) - RD(i)) mod 2^32` (R29). -/
def State.count (s : State) (i : InstId) : Word := (s.fifoAt i).wr - (s.fifoAt i).rd

/-! ### The counter -/

/-- `{h, l} = h * 2^32 + l` (R32). -/
def pair (h l : Word) : DWord := BitVec.ofNat 64 (h.toNat * 2 ^ 32 + l.toNat)

/-- `NOWVAL` (R32). -/
def State.nowval (s : State) : DWord := if s.cfg.tick64 then pair s.hi s.lo else zext64 s.lo

/-! ### Roles and issue -/

/-- The sets of agents of R140's table. -/
inductive Role where
  | fg
  | producer (i : InstId)
  | consumer (i : InstId)
  | timer
  | any
  deriving DecidableEq, Repr

/-- `a in roles(op, i)` (R140). -/
def Role.allows (r : Role) (c : Config) (a : AgentId) : Bool :=
  match r with
  | .fg => decide (a = FG)
  | .producer i => decide (a = c.prod[i])
  | .consumer i => decide (a = c.cons[i])
  | .timer => decide (a = TMR)
  | .any => true

/-- `roles(op, i)` of an operation (R140, R84). -/
def roleOf : Instr → Role
  | .fifoInit _ _ => .fg
  | .fifoPush i _ => .producer i
  | .fifoPop i => .consumer i
  | .fifoDrop i => .producer i
  | .fifoIsfull _ => .any
  | .fifoIsempty _ => .any
  | .fifoRegwaker i _ => .consumer i
  | .fifoWake i => .producer i
  | .tickInc => .timer
  | .tickNow => .any
  | .tickElapsed _ => .any
  | .alarmSet _ => .any
  | .alarmCheck => .timer
  | .seqLda _ => .any
  | .seqLdah _ => .any
  | .seqAdda _ => .any
  | .seqMova => .any
  | .seqJ _ => .any
  | .seqBp _ => .any
  | .seqBnp _ => .any
  | .seqHalt => .any

/-- The instance that must be bound when an operation is issued: every FIFO operation but `fifo.init`
names one (R50, R127). -/
def needsBound : Instr → Option InstId
  | .fifoInit _ _ => none
  | .fifoPush i _ => some i
  | .fifoPop i => some i
  | .fifoDrop i => some i
  | .fifoIsfull i => some i
  | .fifoIsempty i => some i
  | .fifoRegwaker i _ => some i
  | .fifoWake i => some i
  | .tickInc => none
  | .tickNow => none
  | .tickElapsed _ => none
  | .alarmSet _ => none
  | .alarmCheck => none
  | .seqLda _ => none
  | .seqLdah _ => none
  | .seqAdda _ => none
  | .seqMova => none
  | .seqJ _ => none
  | .seqBp _ => none
  | .seqBnp _ => none
  | .seqHalt => none

/-- Is the instance an operation needs bound (R50)? -/
def State.boundOk (s : State) (i : Instr) : Bool :=
  match needsBound i with
  | some n => (s.fifoAt n).bound
  | none => true

/-- `CTX(a) <- some (word, 1, operands)` (R50). -/
def State.enter (s : State) (loc : Locals) : State :=
  s.setMe { s.me with ctx := some ⟨s.progWord, 1, loc⟩ }

/-- One step of the acting agent at operation `i`, whose micro-operations are `micro`. With no context
the operation is issued: the checks of R50 after the decoder's, in R137's order, and then μ1, all in this
step. With a context at `k` it performs μk (R51). -/
def perform (i : Instr) (capture : State → Option Locals) (micro : Nat → Locals → State → Result)
    (s : State) : Result :=
  match s.me.ctx with
  | some c => micro c.k c.loc s
  | none =>
    if (roleOf i).allows s.cfg s.actor = false then .next (s.raise .role)
    else if s.boundOk i = false then .next (s.raise .unbound)
    else
      match capture s with
      | none => .next (s.raise .unwrittenReg)
      | some loc => micro 1 loc (s.enter loc)

/-- An atomic operation: its one micro-operation is μ1 (R21, R64). -/
def atomically (act : Locals → State → Result) (k : Nat) (loc : Locals) (s : State) : Result :=
  match k with
  | 1 => act loc s
  | _ => .fault .noSuchMicroOp

end Sys2Proof.Machine
end

