-- ==== Sys2Proof/Machine/Flags.lean ====
section
/-! DEFINITION. The one condition flag P and the Boolean results (spec/10_state.md rules R43, R48;
spec/30_encoding.md rule R83). -/

namespace Sys2Proof.Machine

/-- A Boolean outcome: `RES <- zext_64(b); P <- b` (R83, rows isfull, isempty, wake, alarm.check). -/
def State.setOutcome (s : State) (b : Bool) : State := (s.setRes (bool64 b)).setP b

/-- An element that is present: `RES <- zext_64(v); P <- 1` (R83, rows pop and drop). -/
def State.setPresent (s : State) (v : Word) : State := (s.setRes (zext64 v)).setP true

/-- No element: `RES <- 0; P <- 0` (R83). -/
def State.setAbsent (s : State) : State := (s.setRes 0).setP false

/-- The status of `alarm.set`: `RES <- status; P <- (status = 0)` (R83, R110). -/
def State.setStatus (s : State) (status : DWord) : State := (s.setRes status).setP (status == 0)

/-- P after `seq.adda`: is the sum nonzero (R117)? -/
def nonzero (x : DWord) : Bool := x != 0

/-- `full <- ((w - r) mod 2^32 >= LEN(i))` (R96). -/
def isFull (w r len : Word) : Bool := decide (len.toNat ≤ (w - r).toNat)

/-- `empty <- ((w - r) mod 2^32 = 0)` (R97). -/
def isEmpty (w r : Word) : Bool := w - r == 0

end Sys2Proof.Machine
end

