-- ==== Sys2Proof/Machine/Operands.lean ====
section
/-! DEFINITION. The operand forms: what each operation captures at issue (spec/30_encoding.md rule R82,
spec/10_state.md rule R50). A capture answers `none` where it reads an unwritten A (R46, R136). -/

namespace Sys2Proof.Machine

/-- The operations that capture nothing but their own word's fields. -/
def captureNone (_ : State) : Option Locals := some Locals.empty

/-- The value of a `fifo.push` or `tick.elapsed` operand before it is cut: `s = 1 ? A : zext_64(IMM)`. -/
def operandValue (o : Operand) (s : State) : Option DWord :=
  match o with
  | .imm v => some (zext64 v)
  | .regA => s.me.a

/-- `[EW(i)-1:0]`: the low EW(i) bits of a push value (R82). -/
def cutElem (esize : Nat) (x : DWord) : Word := BitVec.ofNat 32 (x.toNat % 2 ^ (8 * esize))

/-- `mod 2^TW` (R82). -/
def cutTick (c : Config) (x : DWord) : DWord := BitVec.ofNat 64 (x.toNat % 2 ^ c.tw)

/-- `fifo.init`: `base = A`. -/
def captureBase (s : State) : Option Locals := s.me.a.map fun x => { Locals.empty with base := x }

/-- `fifo.push`: `v = (s = 1 ? A : zext_64(IMM))[EW(i)-1:0]`. -/
def captureElem (i : InstId) (o : Operand) (s : State) : Option Locals :=
  (operandValue o s).map fun x => { Locals.empty with v := cutElem (s.esizeAt i) x }

/-- `tick.elapsed`: `snap = (s = 1 ? A : zext_64(IMM)) mod 2^TW`. -/
def captureSnap (o : Operand) (s : State) : Option Locals :=
  (operandValue o s).map fun x => { Locals.empty with snap := cutTick s.cfg x }

/-- `alarm.set`: `ts = A`. -/
def captureTs (s : State) : Option Locals := s.me.a.map fun x => { Locals.empty with ts := x }

/-- `simm = sext_64(IMM)` added to a 64-bit register (R82, R117). -/
def sext64 (imm : Word) : DWord := imm.signExtend 64

/-- `simm` as a signed count of words (R79, R82): the branch target `APC + simm` (R119). -/
def branchTarget (apc : Int) (imm : Word) : Int := apc + imm.toInt

end Sys2Proof.Machine
end

