-- ==== Sys2Proof/Machine/Alarm.lean ====
section
/-! DEFINITION. The alarm comparator (spec/42_alarm.md). -/

namespace Sys2Proof.Machine

/-- Is the alarm due: `ARMED = 1 and TS <= NOWVAL`, unsigned on 64 bits (R109)? -/
def State.alarmDue (s : State) : Bool := s.armed && decide (s.ts.toNat ≤ s.nowval.toNat)

/-- `AlarmCheck()` (R109): fire a due alarm and clear its slot. -/
def State.alarmCheck (s : State) : State :=
  if s.alarmDue then (s.emit (.fire s.cb)).setAlarm false max64 0 else s

/-- The status of a registration (R110): BUSY before PAST, else OK. -/
def State.alarmStatus (s : State) (ts : DWord) : DWord :=
  if s.armed then 2 else if ts.toNat ≤ s.nowval.toNat then 1 else 0

/-- The alarm slot after a registration (R110). -/
def State.alarmRegister (s : State) (ts : DWord) (tok : Word) : State :=
  if s.armed then s
  else if ts.toNat ≤ s.nowval.toNat then s.setAlarm s.armed max64 s.cb
  else s.setAlarm true ts tok

/-- `alarm.set #tok` (R110). -/
def execAlarmSet (tok : Word) (s : State) : Result :=
  perform (.alarmSet tok) captureTs (atomically fun loc s =>
    .next ((s.alarmRegister loc.ts tok).setStatus (s.alarmStatus loc.ts)).complete) s

/-- `alarm.check` (R111). -/
def execAlarmCheck (s : State) : Result :=
  perform .alarmCheck captureNone (atomically fun _ s =>
    .next (s.alarmCheck.setOutcome s.alarmDue).complete) s

end Sys2Proof.Machine
end

