-- ==== Sys2Proof/Machine/Clock.lean ====
section
/-! DEFINITION. The tick clock operations (spec/41_clock.md). -/

namespace Sys2Proof.Machine

/-! ### tick.inc (R103) -/

/-- `c <- (LO = 0xFFFFFFFF)`: the increment carries into HI (R103). -/
def State.carries (s : State) : Bool := s.lo == 0xFFFFFFFF

/-- AlarmCheck where ALARM_EN holds (R103). -/
def State.checkIfPresent (s : State) : State := if s.cfg.alarmEn then s.alarmCheck else s

/-- After the counter's last word: to μ3 where ALARM_EN holds, else complete (R103, TICK_SPLIT true). -/
def State.tickTail (s : State) (loc : Locals) : State :=
  if s.cfg.alarmEn then s.goto 3 loc else s.complete

/-- `tick.inc` with TICK_SPLIT true: one word stored per micro-operation (R103). -/
def tickSplitMicro (k : Nat) (loc : Locals) (s : State) : Result :=
  match k with
  | 1 =>
    let c := s.carries
    let s1 := s.setLo (s.lo + 1)
    if s.cfg.tick64 && c then .next (s1.goto 2 { loc with c := c })
    else .next (s1.tickTail { loc with c := c })
  | 2 => .next ((s.setHi (s.hi + 1)).tickTail loc)
  | 3 => .next s.alarmCheck.complete
  | _ => .fault .noSuchMicroOp

/-- The whole counter up by one in one step: HI takes the carry where TICK64 holds (R103). -/
def State.tickWhole (s : State) : State :=
  if s.cfg.tick64 && s.carries then (s.setLo (s.lo + 1)).setHi (s.hi + 1)
  else s.setLo (s.lo + 1)

/-- `tick.inc` with TICK_SPLIT false: atomic (R103). -/
def tickAtomicMicro : Nat → Locals → State → Result :=
  atomically fun _ s => .next s.tickWhole.checkIfPresent.complete

/-- `tick.inc` (R103). -/
def execTickInc (s : State) : Result :=
  perform .tickInc captureNone (if s.cfg.tickSplit then tickSplitMicro else tickAtomicMicro) s

/-! ### tick.now and tick.elapsed (R104, R105) -/

/-- The seqlock read of the 64-bit counter (R104): read high, low, high again, and go back to μ1 if the two
high words differ. `use` writes the result from the counter value read. -/
def clockRead64 (use : Locals → DWord → State → State) (k : Nat) (loc : Locals) (s : State) : Result :=
  match k with
  | 1 => .next (s.goto 2 { loc with h1 := s.hi })
  | 2 => .next (s.goto 3 { loc with l := s.lo })
  | 3 =>
    if loc.h1 ≠ s.hi then .next (s.goto 1 { loc with h2 := s.hi })
    else .next (use loc (pair loc.h1 loc.l) s).complete
  | _ => .fault .noSuchMicroOp

/-- The read of the 32-bit counter, one load (R104). -/
def clockRead32 (use : Locals → DWord → State → State) (k : Nat) (loc : Locals) (s : State) : Result :=
  match k with
  | 1 => .next (use loc (zext64 s.lo) s).complete
  | _ => .fault .noSuchMicroOp

/-- The counter read that `tick.now` and `tick.elapsed` share (R104, R105). -/
def clockReadMicro (use : Locals → DWord → State → State) (k : Nat) (loc : Locals) (s : State) : Result :=
  if s.cfg.tick64 then clockRead64 use k loc s else clockRead32 use k loc s

/-- `dur <- (snap <= n) ? (n - snap) : MAX_TW` (R105). -/
def duration (c : Config) (n snap : DWord) : DWord := if snap.toNat ≤ n.toNat then n - snap else c.maxTw

/-- `tick.now` (R104). -/
def execTickNow (s : State) : Result :=
  perform .tickNow captureNone (clockReadMicro fun _ n s => s.setRes n) s

/-- `tick.elapsed #snap` and `tick.elapsed a` (R105). -/
def execTickElapsed (src : Operand) (s : State) : Result :=
  perform (.tickElapsed src) (captureSnap src)
    (clockReadMicro fun loc n s => s.setRes (duration s.cfg n loc.snap)) s

end Sys2Proof.Machine
end

