-- ==== Sys2Proof/Machine/Fifo.lean ====
section
/-! DEFINITION. The FIFO operations (spec/40_fifo.md). -/

namespace Sys2Proof.Machine

/-! ### fifo.init (R90) -/

/-- `n is pow2` (R19): n = 2^k for some k. -/
def isPow2 (n : Nat) : Bool := (List.range 64).any fun k => n == 2 ^ k

/-- Does `[b, b + n)` share a byte with the region of a bound instance `j` other than `i` (R90, R132)? -/
def State.meetsRegion (s : State) (i : InstId) (b n : Nat) (j : InstId) : Bool :=
  decide (j ≠ i) && s.cfg.hasInst j && (s.fifoAt j).bound
    && decide (max b (s.fifoAt j).base.toNat
        < min (b + n) ((s.fifoAt j).base.toNat + (s.fifoAt j).len.toNat * s.esizeAt j))

/-- The checks of μ1 in R90's order: the first that fails names the fault (R137). -/
def State.initCheck (s : State) (i : InstId) (base : DWord) (len : Word) : Option FCode :=
  if (s.fifoAt i).bound then some .initTwice
  else if len.toNat = 0 ∨ isPow2 len.toNat = false ∨ 2 ^ 31 < len.toNat then some .initLen
  else if base.toNat % s.esizeAt i ≠ 0 then some .initAlign
  else if Config.dataSpace < base.toNat + len.toNat * s.esizeAt i then some .initRange
  else if (List.finRange 16).any (s.meetsRegion i base.toNat (len.toNat * s.esizeAt i)) then
    some .initOverlap
  else none

/-- The instance a `fifo.init` leaves: bound, empty, no waker (R90). -/
def Fifo.binding (base : DWord) (len : Word) : Fifo where
  bound := true
  base  := BitVec.ofNat 32 base.toNat
  len   := len
  wr    := 0
  rd    := 0
  wkv   := false
  wkt   := 0

/-- `fifo.init cN, #len` (R90). -/
def execFifoInit (i : InstId) (len : Word) (s : State) : Result :=
  perform (.fifoInit i len) captureBase (atomically fun loc s =>
    match s.initCheck i loc.base len with
    | some f => .next (s.raise f)
    | none => .next (s.setFifo i (Fifo.binding loc.base len)).complete) s

/-! ### fifo.push (R91) -/

/-- The micro-operations of `fifo.push`. μ1 is the contract check on the true count and the store of the
element; μ2 is the release of WR(i) (R71). -/
def pushMicro (i : InstId) (k : Nat) (loc : Locals) (s : State) : Result :=
  match k with
  | 1 =>
    let w := (s.fifoAt i).wr
    if isFull w (s.fifoAt i).rd (s.fifoAt i).len then .next (s.raise .overrun)
    else if s.slotInSpace i w = false then .fault .addressOutsideSpace
    else .next ((s.elemWrite i w loc.v).goto 2 { loc with w := w })
  | 2 => .next (s.setFifo i { s.fifoAt i with wr := loc.w + 1 }).complete
  | _ => .fault .noSuchMicroOp

/-- `fifo.push cN, #v` and `fifo.push cN, a` (R91). -/
def execFifoPush (i : InstId) (src : Operand) (s : State) : Result :=
  perform (.fifoPush i src) (captureElem i src) (pushMicro i) s

/-! ### fifo.pop and fifo.drop (R94, R92) -/

/-- The micro-operations that `fifo.pop` and `fifo.drop` share: load RD(i), load WR(i) and leave if
empty, read the element, store RD(i) (a release, R71). -/
def takeMicro (i : InstId) (k : Nat) (loc : Locals) (s : State) : Result :=
  match k with
  | 1 => .next (s.goto 2 { loc with r := (s.fifoAt i).rd })
  | 2 =>
    let w := (s.fifoAt i).wr
    if isEmpty w loc.r then .next s.setAbsent.complete
    else .next (s.goto 3 { loc with w := w })
  | 3 =>
    if s.slotInSpace i loc.r = false then .fault .addressOutsideSpace
    else
      match s.elemRead i loc.r with
      | none => .next (s.raise .uninitRead)
      | some v => .next (s.goto 4 { loc with v := v })
  | 4 => .next ((s.setFifo i { s.fifoAt i with rd := loc.r + 1 }).setPresent loc.v).complete
  | _ => .fault .noSuchMicroOp

/-- `fifo.pop cN` (R94). -/
def execFifoPop (i : InstId) (s : State) : Result :=
  perform (.fifoPop i) captureNone (takeMicro i) s

/-- `fifo.drop cN` (R92). -/
def execFifoDrop (i : InstId) (s : State) : Result :=
  perform (.fifoDrop i) captureNone (takeMicro i) s

/-! ### fifo.isfull and fifo.isempty (R96, R97) -/

/-- The micro-operations of a query: load RD(i), then load WR(i) and answer. -/
def queryMicro (i : InstId) (answer : Word → Word → Bool) (k : Nat) (loc : Locals) (s : State) : Result :=
  match k with
  | 1 => .next (s.goto 2 { loc with r := (s.fifoAt i).rd })
  | 2 => .next (s.setOutcome (answer (s.fifoAt i).wr loc.r)).complete
  | _ => .fault .noSuchMicroOp

/-- `fifo.isfull cN` (R96). -/
def execFifoIsfull (i : InstId) (s : State) : Result :=
  perform (.fifoIsfull i) captureNone (queryMicro i fun w r => isFull w r (s.fifoAt i).len) s

/-- `fifo.isempty cN` (R97). -/
def execFifoIsempty (i : InstId) (s : State) : Result :=
  perform (.fifoIsempty i) captureNone (queryMicro i isEmpty) s

/-! ### fifo.regwaker and fifo.wake (R95, R93) -/

/-- `fifo.regwaker cN, #tok` (R95). -/
def execFifoRegwaker (i : InstId) (tok : Word) (s : State) : Result :=
  perform (.fifoRegwaker i tok) captureNone (atomically fun _ s =>
    .next (s.setFifo i { s.fifoAt i with wkv := true, wkt := tok }).complete) s

/-- `fifo.wake cN` (R93): take and clear the registration, and notify it. -/
def execFifoWake (i : InstId) (s : State) : Result :=
  perform (.fifoWake i) captureNone (atomically fun _ s =>
    if (s.fifoAt i).wkv then
      .next (((s.emit (.wake i (s.fifoAt i).wkt)).setFifo i { s.fifoAt i with wkv := false }).setOutcome
        true).complete
    else .next (s.setOutcome false).complete) s

end Sys2Proof.Machine
end

