-- ==== Sys2Proof/Machine/Sequencer.lean ====
section
/-! DEFINITION. The agent sequencer operations (spec/43_sequencer.md). Each is atomic. -/

namespace Sys2Proof.Machine

/-- Read a register with a written bit in μ1: unwritten raises F_UNWRITTEN_REG (R46, R136). -/
def State.readReg {α : Type} (s : State) (reg : Option α) (use : α → State) : Result :=
  match reg with
  | none => .next (s.raise .unwrittenReg)
  | some x => .next (use x)

/-- `{imm, A[31:0]}` (R116). -/
def setHighHalf (x : DWord) (imm : Word) : DWord := pair imm (BitVec.ofNat 32 x.toNat)

/-- A conditional branch (R120, R121): to `APC + simm` if taken, else to `APC + 1`. -/
def State.branchIf (s : State) (taken : Bool) (simm : Word) : State :=
  if taken then s.completeAt (branchTarget s.me.apc simm) else s.complete

/-- `seq.lda #imm` (R115). -/
def execSeqLda (imm : Word) (s : State) : Result :=
  perform (.seqLda imm) captureNone (atomically fun _ s => .next (s.setA (zext64 imm)).complete) s

/-- `seq.ldah #imm` (R116). -/
def execSeqLdah (imm : Word) (s : State) : Result :=
  perform (.seqLdah imm) captureNone (atomically fun _ s =>
    s.readReg s.me.a fun x => (s.setA (setHighHalf x imm)).complete) s

/-- `seq.adda #simm` (R117): P tells whether the sum is nonzero. -/
def execSeqAdda (simm : Word) (s : State) : Result :=
  perform (.seqAdda simm) captureNone (atomically fun _ s =>
    s.readReg s.me.a fun x => ((s.setA (x + sext64 simm)).setP (nonzero (x + sext64 simm))).complete) s

/-- `seq.mova` (R118). -/
def execSeqMova (s : State) : Result :=
  perform .seqMova captureNone (atomically fun _ s =>
    s.readReg s.me.res fun x => (s.setA x).complete) s

/-- `seq.j L` (R119). -/
def execSeqJ (simm : Word) (s : State) : Result :=
  perform (.seqJ simm) captureNone (atomically fun _ s =>
    .next (s.completeAt (branchTarget s.me.apc simm))) s

/-- `seq.bp L` (R120). -/
def execSeqBp (simm : Word) (s : State) : Result :=
  perform (.seqBp simm) captureNone (atomically fun _ s =>
    s.readReg s.me.p fun b => s.branchIf b simm) s

/-- `seq.bnp L` (R121). -/
def execSeqBnp (simm : Word) (s : State) : Result :=
  perform (.seqBnp simm) captureNone (atomically fun _ s =>
    s.readReg s.me.p fun b => s.branchIf (!b) simm) s

/-- `seq.halt` (R122): `RUN <- HALTED`, and APC keeps the index of the halt. -/
def execSeqHalt (s : State) : Result :=
  perform .seqHalt captureNone (atomically fun _ s =>
    .next (s.setMe { s.me with run := .halted, ctx := none })) s

end Sys2Proof.Machine
end

