-- ==== Sys2Proof/Machine/Dispatch.lean ====
section
/-! DEFINITION. One arm per operation: one micro-operation of it, performed by the acting agent. -/

namespace Sys2Proof.Machine

/-- The step of the acting agent at operation `i`: issue and μ1, or the next μk (R50, R51). -/
def exec (i : Instr) (s : State) : Host.Outcome State Fault Refusal :=
  match i with
  | .fifoInit n len => Sys2Proof.Machine.execFifoInit n len s
  | .fifoPush n src => Sys2Proof.Machine.execFifoPush n src s
  | .fifoPop n => Sys2Proof.Machine.execFifoPop n s
  | .fifoDrop n => Sys2Proof.Machine.execFifoDrop n s
  | .fifoIsfull n => Sys2Proof.Machine.execFifoIsfull n s
  | .fifoIsempty n => Sys2Proof.Machine.execFifoIsempty n s
  | .fifoRegwaker n tok => Sys2Proof.Machine.execFifoRegwaker n tok s
  | .fifoWake n => Sys2Proof.Machine.execFifoWake n s
  | .tickInc => Sys2Proof.Machine.execTickInc s
  | .tickNow => Sys2Proof.Machine.execTickNow s
  | .tickElapsed src => Sys2Proof.Machine.execTickElapsed src s
  | .alarmSet tok => Sys2Proof.Machine.execAlarmSet tok s
  | .alarmCheck => Sys2Proof.Machine.execAlarmCheck s
  | .seqLda imm => Sys2Proof.Machine.execSeqLda imm s
  | .seqLdah imm => Sys2Proof.Machine.execSeqLdah imm s
  | .seqAdda simm => Sys2Proof.Machine.execSeqAdda simm s
  | .seqMova => Sys2Proof.Machine.execSeqMova s
  | .seqJ simm => Sys2Proof.Machine.execSeqJ simm s
  | .seqBp simm => Sys2Proof.Machine.execSeqBp simm s
  | .seqBnp simm => Sys2Proof.Machine.execSeqBnp simm s
  | .seqHalt => Sys2Proof.Machine.execSeqHalt s

end Sys2Proof.Machine
end

