-- ==== Sys2Proof/Machine/Fetch.lean ====
section
/-! DEFINITION. Fetching the acting agent's operation: APC and decode for a new one (spec/10_state.md
rule R50), the context's own word for one in flight (R51). -/

namespace Sys2Proof.Machine

/-- What a fetch finds. -/
inductive Fetched where
  /-- Operation `i`, to be issued or continued. -/
  | op (i : Instr)
  /-- A check of R50 fails. -/
  | raises (f : FCode)
  /-- The context in flight holds a word that does not decode. -/
  | badContext
  deriving DecidableEq, Repr

/-- The first two checks of R50: F_PC_RANGE, then F_ILLEGAL. -/
def State.fetchNew (s : State) : Fetched :=
  match s.fetchWord? with
  | none => .raises .pcRange
  | some w =>
    match decode s.cfg w with
    | .ok i => .op i
    | .error _ => .raises .illegal

/-- The operation a context's word encodes (R51). -/
def State.fetchCtx (s : State) (c : Ctx) : Fetched :=
  match decode s.cfg c.word with
  | .ok i => .op i
  | .error _ => .badContext

/-- The acting agent's operation. -/
def State.fetch (s : State) : Fetched :=
  match s.me.ctx with
  | none => s.fetchNew
  | some c => s.fetchCtx c

/-! ### Loading one word for the next step -/

/-- The agent that a role names: FG for the operations any agent may issue (R140). -/
def Role.agentFor (r : Role) (c : Config) : AgentId :=
  match r with
  | .fg => FG
  | .producer i => c.prod[i]
  | .consumer i => c.cons[i]
  | .timer => TMR
  | .any => FG

/-- The agent to run a word as its next operation: one that may issue it, FG where it is illegal. -/
def agentForWord (c : Config) (w : DWord) : AgentId :=
  match decode c w with
  | .ok i => (roleOf i).agentFor c
  | .error _ => FG

/-- A program with `w` at word `n`, lengthened with zero words as far as that needs. -/
def placeWord (p : List DWord) (n : Nat) (w : DWord) : List DWord :=
  (p ++ List.replicate (n + 1 - p.length) 0).set n w

/-- Agent `a` about to issue the word at its APC: RUNNING with no context, APC at least 0; no fault is
recorded, and where `a` is FG every other agent is HALTED, so that the policy lets FG step (R69). -/
def State.readyToIssue (s : State) (a : AgentId) : State :=
  { s with
    fault := none
    agent := Vector.ofFn fun b =>
      if b = a then { s.agent[b] with run := .running, ctx := none, apc := max s.agent[b].apc 0 }
      else if a = FG then { s.agent[b] with run := .halted }
      else s.agent[b] }

/-- `s` whose very next step is agent `a` issuing the word `w`. -/
def State.loadWord (s : State) (a : AgentId) (w : DWord) : State :=
  let s1 := s.readyToIssue a
  { s1 with
    prog := s1.prog.set a (placeWord s1.prog[a] s1.agent[a].apc.toNat w)
    moves := .agent a :: s1.moves }

end Sys2Proof.Machine
end

