-- ==== Sys2Proof/Machine/Schedule.lean ====
section
/-! DEFINITION. Which steps are possible: the scheduling policy (spec/20_memory.md rules R69, R70), the
host actions (spec/10_state.md rules R53 to R55) and the choice among the enabled moves (R49). -/

namespace Sys2Proof.Machine

/-- Is agent `a` an interrupt agent that is not HALTED? -/
def State.interruptRuns (s : State) (a : AgentId) : Bool :=
  s.cfg.isInterrupt a && decide (s.agent[a].run = .running)

/-- Is every interrupt agent HALTED (R69)? -/
def State.interruptsHalted (s : State) : Bool := (List.finRange 16).all fun a => !s.interruptRuns a

/-- The policy's own condition: under PREEMPT, FG steps only while every interrupt agent is HALTED
(R69); under FREE nothing else restricts an agent (R70). -/
def State.policyAllows (s : State) (a : AgentId) : Bool :=
  match s.cfg.sched with
  | .preempt => decide (a ≠ FG) || s.interruptsHalted
  | .free => true

/-- May agent `a` step (R39, R53, R69, R70)? -/
def State.mayStep (s : State) (a : AgentId) : Bool :=
  s.cfg.hasAgent a && decide (s.agent[a].run = .running) && s.fault.isNone && s.policyAllows a

/-- Is `TRIGGER(a)` enabled (R54)? -/
def State.triggerEnabled (s : State) (a : AgentId) : Bool :=
  s.cfg.hasAgent a && decide (s.agent[a].run = .halted) && s.agent[a].ctx.isNone && s.fault.isNone

/-- A request for an agent whose activation is still running "has no effect and is not held pending"
(R143). -/
def State.triggerLost (s : State) (a : AgentId) : Bool :=
  s.cfg.hasAgent a && decide (s.agent[a].run = .running) && s.fault.isNone

/-- `TRIGGER(a)` (R54): RUNNING at APC 0, with A, RES and P unwritten. -/
def State.trigger (s : State) (a : AgentId) : State :=
  s.setAgent a { s.agent[a] with run := .running, apc := 0, a := none, res := none, p := none }

/-- Is a move a step of R49: a step of an agent that may step, or an enabled host action? -/
def State.enabled (s : State) (m : Move) : Bool :=
  match m with
  | .agent a => s.mayStep a
  | .trigger a => s.triggerEnabled a
  | .reset => true

/-- Every move there is. RESET comes first: it is enabled in every state (R55). -/
def allMoves : List Move :=
  .reset :: ((List.finRange 16).map Move.agent ++ (List.finRange 16).map Move.trigger)

/-- Is a move offered to the free choice? An enabled one is, but for a TRIGGER by a host that triggers no
more agents: "The host chooses when to trigger" (R54, R58; assumption 1). -/
def State.offered (s : State) (m : Move) : Bool :=
  match m with
  | .agent _ => s.enabled m
  | .trigger _ => !s.hostDone && s.enabled m
  | .reset => s.enabled m

/-- The moves the free choice has: never none, for RESET is one (R55). -/
def State.offeredMoves (s : State) : List Move := allMoves.filter s.offered

/-- The offered move that the free choice `n` names (R49). -/
def State.chosenMove (s : State) (n : Nat) : Move :=
  s.offeredMoves.getD (n % s.offeredMoves.length) .reset

/-- The next move, and the state with it taken off the script. Where the script is empty, one of the
offered moves is taken by a free value (R49). -/
def State.nextMove (s : State) : Move × State :=
  match s.moves with
  | m :: ms => (m, { s with moves := ms })
  | [] => (s.chosenMove (Config.freeChoice s.choiceNo), { s with choiceNo := s.choiceNo + 1 })

/-- A TRIGGER the host makes (R54, R143, R53). -/
def hostTrigger (a : AgentId) (s : State) : Result :=
  if s.triggerEnabled a then .next (s.trigger a)
  else if s.triggerLost a then .next s
  else .refused .triggerNotEnabled

end Sys2Proof.Machine
end

