-- ==== Sys2Proof/Machine/Step.lean ====
section
/-! DEFINITION. One step of the machine (spec/10_state.md rule R49): the next move, and what it does. -/

namespace Sys2Proof.Machine

/-- The step of the acting agent (R50, R51). -/
def agentStep (s : State) : Host.Outcome State Fault Refusal :=
  match s.fetch with
  | .op i => exec i s
  | .raises f => .next (s.raise f)
  | .badContext => .fault .illegalContext

/-- One move: a step of an agent that may step, or a host action (R49). -/
def performMove (m : Move) (s : State) : Host.Outcome State Fault Refusal :=
  match m with
  | .agent a => if s.mayStep a then agentStep (s.setActor a) else .refused .agentMayNotStep
  | .trigger a => hostTrigger a s
  | .reset => .next s.hostReset

/-- One step. A configuration that R17 refuses has no machine. -/
def step (s : State) : Host.Outcome State Fault Refusal :=
  if s.cfg.legal then performMove s.nextMove.1 s.nextMove.2 else .refused .illegalConfig

/-- `s` whose very next step issues the command word `w`: by an agent that may issue it (R140), at that
agent's APC. It stands for the loading of a program and for the host's schedule (assumption 3). -/
def State.withFetchWord (s : State) (nbits w : Nat) : State :=
  let word : DWord := BitVec.ofNat 64 (w % 2 ^ nbits)
  s.loadWord (agentForWord s.cfg word) word

end Sys2Proof.Machine
end

