-- ==== Sys2Proof/Machine/Assembler.lean ====
section
/-! DEFINITION. The pseudo-instructions of spec/30_encoding.md rule R89 and the assembly syntax of R88: a
program's text to its command words. The machine itself reads command words only. -/

namespace Sys2Proof.Machine

/-! ### Pseudo-instructions (R89) -/

/-- The pseudo-instructions of R89. None is an operation, and none is atomic. -/
inductive Pseudo where
  /-- `seq.nop`. -/
  | nop
  /-- `seq.li64 #v`. -/
  | li64 (v : DWord)
  /-- `fifo.push_evict cN, #v`: "if full, pop one (drop oldest) before pushing". -/
  | pushEvict (i : InstId) (v : Word)
  /-- `fifo.push_notify cN, #v`. -/
  | pushNotify (i : InstId) (v : Word)
  /-- `fifo.wait_prepare cN, #tok`. -/
  | waitPrepare (i : InstId) (tok : Word)
  /-- `fifo.pop_spin cN`. -/
  | popSpin (i : InstId)
  /-- `tick.now64`, for a configuration with TICK64. -/
  | now64
  /-- `alarm.schedule_wake #T, #tok`. -/
  | scheduleWake (t : DWord) (tok : Word)
  /-- `alarm.after #d, #tok`. -/
  | alarmAfter (d : Word) (tok : Word)
  deriving DecidableEq, Repr

/-- `v[31:0]`. -/
def lowHalf (v : DWord) : Word := BitVec.ofNat 32 v.toNat

/-- `v[63:32]`. -/
def highHalf (v : DWord) : Word := BitVec.ofNat 32 (v.toNat / 2 ^ 32)

/-- The expansion of a pseudo-instruction, in order (R89). `tick.now64` has one only with TICK64. -/
def expand (c : Config) (p : Pseudo) : Option (List Instr) :=
  match p with
  | .nop => some [.seqJ 1]
  | .li64 v => some [.seqLda (lowHalf v), .seqLdah (highHalf v)]
  | .pushEvict i v => some [.fifoIsfull i, .seqBnp 2, .fifoDrop i, .fifoPush i (.imm v)]
  | .pushNotify i v => some [.fifoPush i (.imm v), .fifoWake i]
  | .waitPrepare i tok => some [.fifoRegwaker i tok, .fifoIsempty i]
  | .popSpin i => some [.fifoPop i, .seqBnp (-1)]
  | .now64 => if c.tick64 then some [.tickNow] else none
  | .scheduleWake t tok => some [.seqLda (lowHalf t), .seqLdah (highHalf t), .alarmSet tok]
  | .alarmAfter d tok => some [.tickNow, .seqMova, .seqAdda d, .alarmSet tok]

/-! ### Tokens of a line (R88) -/

/-- A line of source text, a label, a token. -/
abbrev Text := List Char

/-- What stands between tokens: blanks, tabs and commas (assumption 13). -/
def isSeparator (ch : Char) : Bool := ch = ' ' ∨ ch = ',' ∨ ch = '\t'

/-- The tokens of a line. `cur` is the token being read, last character first. -/
def tokens (cur : Text) : Text → List Text
  | [] => if cur.isEmpty then [] else [cur.reverse]
  | ch :: rest =>
    if isSeparator ch then
      if cur.isEmpty then tokens [] rest else cur.reverse :: tokens [] rest
    else tokens (ch :: cur) rest

/-- May a text be a label's name? DESIGN CHOICE (assumption 15): R88 does not say which characters a name has;
any one or more are taken that are no separator. (The callers leave out `:` and `;`.) -/
def isLabelName (t : Text) : Bool := !t.isEmpty && t.all fun ch => !isSeparator ch

/-- The label of a line, if it has one, and the tokens after it. A comment runs from `;`. A label is a name
and `:` at the very start of the line (R88). A line with a colon elsewhere has no label, and its colon stays in a
token, which no operation takes: the program is rejected (assumption 15). -/
def splitLine (line : Text) : Option Text × List Text :=
  let code := line.takeWhile (· ≠ ';')
  let name := code.takeWhile (· ≠ ':')
  if code.contains ':' && isLabelName name then (some name, tokens [] (code.drop (name.length + 1)))
  else (none, tokens [] code)

/-- A digit in base `b`. -/
def digit (b : Nat) (ch : Char) : Option Nat :=
  let n := ch.toNat
  let v :=
    if 48 ≤ n ∧ n ≤ 57 then n - 48
    else if 97 ≤ n ∧ n ≤ 102 then n - 87
    else if 65 ≤ n ∧ n ≤ 70 then n - 55
    else b
  if v < b then some v else none

/-- Digits in base `b`, after the number `acc`; leading zeros are allowed (assumption 15). -/
def digits (b : Nat) (acc : Nat) : Text → Option Nat
  | [] => some acc
  | ch :: rest => (digit b ch).bind fun d => digits b (acc * b + d) rest

/-- An unsigned number, decimal or `0x` hexadecimal. -/
def number : Text → Option Nat
  | [] => none
  | ['0', 'x'] => none
  | '0' :: 'x' :: rest => digits 16 0 rest
  | t => digits 10 0 t

/-- `cN`: N is the decimal value of INST. -/
def instArg : Text → Option InstId
  | 'c' :: ch :: rest =>
    (digits 10 0 (ch :: rest)).bind fun n => if n < 16 then some (Fin.ofNat 16 n) else none
  | _ => none

/-- `#n` in `w` bits: decimal, hexadecimal or negative decimal, a negative value as its two's
complement. A value that `w` bits cannot hold is no immediate. -/
def immArg (w : Nat) : Text → Option (BitVec w)
  | '#' :: '-' :: ch :: rest =>
    (digits 10 0 (ch :: rest)).bind fun n =>
      if n ≤ 2 ^ (w - 1) then some (BitVec.ofInt w (-n)) else none
  | '#' :: rest => (number rest).bind fun n => if n < 2 ^ w then some (BitVec.ofNat w n) else none
  | _ => none

/-- `#v` or `a`. -/
def operandArg (t : Text) : Option Operand :=
  if t = ['a'] then some .regA else (immArg 32 t).map .imm

/-- A signed count of words, stored in IMM as `target - APC`. -/
def offsetBits (d : Int) : Option Word :=
  if -(2 ^ 31) ≤ d ∧ d < 2 ^ 31 then some (BitVec.ofInt 32 d) else none

/-- A branch target: `.+n`, `.-n` or a label. DESIGN CHOICE (assumption 15), where R88 is silent: the n of an offset
is decimal alone (`.+0x2` rejects the program), a text that goes on after `.+` or `.-` is an offset and no label, and of a label
defined twice the first definition counts and the program is not rejected for it. -/
def targetArg (labels : List (Text × Nat)) (apc : Nat) : Text → Option Word
  | '.' :: '+' :: ch :: rest => (digits 10 0 (ch :: rest)).bind fun n => offsetBits n
  | '.' :: '-' :: ch :: rest => (digits 10 0 (ch :: rest)).bind fun n => offsetBits (-n)
  | t => ((labels.find? fun l => l.1 == t).map (·.2)).bind fun n => offsetBits (n - apc)

/-! ### Lines and programs (R88) -/

/-- What a line with a FIFO instance stands for: an operation or a pseudo-instruction's expansion. -/
def fifoLine (c : Config) (mn : String) (i : InstId) (args : List Text) : Option (List Instr) :=
  match args with
  | [] =>
    if mn = "fifo.pop" then some [.fifoPop i]
    else if mn = "fifo.drop" then some [.fifoDrop i]
    else if mn = "fifo.isfull" then some [.fifoIsfull i]
    else if mn = "fifo.isempty" then some [.fifoIsempty i]
    else if mn = "fifo.wake" then some [.fifoWake i]
    else if mn = "fifo.pop_spin" then expand c (.popSpin i)
    else none
  | [t] =>
    if mn = "fifo.push" then (operandArg t).map fun o => [.fifoPush i o]
    else
      (immArg 32 t).bind fun v =>
        if mn = "fifo.init" then some [.fifoInit i v]
        else if mn = "fifo.regwaker" then some [.fifoRegwaker i v]
        else if mn = "fifo.push_evict" then expand c (.pushEvict i v)
        else if mn = "fifo.push_notify" then expand c (.pushNotify i v)
        else if mn = "fifo.wait_prepare" then expand c (.waitPrepare i v)
        else none
  | _ => none

/-- A line with no operand. -/
def bareLine (c : Config) (mn : String) : Option (List Instr) :=
  if mn = "tick.inc" then some [.tickInc]
  else if mn = "tick.now" then some [.tickNow]
  else if mn = "tick.now64" then expand c .now64
  else if mn = "alarm.check" then some [.alarmCheck]
  else if mn = "seq.mova" then some [.seqMova]
  else if mn = "seq.halt" then some [.seqHalt]
  else if mn = "seq.nop" then expand c .nop
  else none

/-- A line with one operand that is no FIFO instance. -/
def oneArgLine (c : Config) (labels : List (Text × Nat)) (apc : Nat) (mn : String) (t : Text) :
    Option (List Instr) :=
  if mn = "seq.j" then (targetArg labels apc t).map fun d => [.seqJ d]
  else if mn = "seq.bp" then (targetArg labels apc t).map fun d => [.seqBp d]
  else if mn = "seq.bnp" then (targetArg labels apc t).map fun d => [.seqBnp d]
  else if mn = "tick.elapsed" then (operandArg t).map fun o => [.tickElapsed o]
  else if mn = "seq.li64" then (immArg 64 t).bind fun v => expand c (.li64 v)
  else
    (immArg 32 t).bind fun v =>
      if mn = "alarm.set" then some [.alarmSet v]
      else if mn = "seq.lda" then some [.seqLda v]
      else if mn = "seq.ldah" then some [.seqLdah v]
      else if mn = "seq.adda" then some [.seqAdda v]
      else none

/-- A line of the alarm pseudo-instructions with two immediates (R89). -/
def twoImmLine (c : Config) (mn : String) (t u : Text) : Option (List Instr) :=
  if mn = "alarm.schedule_wake" then
    (immArg 64 t).bind fun x => (immArg 32 u).bind fun tok => expand c (.scheduleWake x tok)
  else if mn = "alarm.after" then
    (immArg 32 t).bind fun d => (immArg 32 u).bind fun tok => expand c (.alarmAfter d tok)
  else none

/-- The operations of a line whose first word is at `apc`. -/
def lineInstrs (c : Config) (labels : List (Text × Nat)) (apc : Nat) (toks : List Text) :
    Option (List Instr) :=
  match toks with
  | [] => some []
  | [m] => bareLine c (String.ofList m)
  | m :: t :: rest =>
    match instArg t, rest with
    | some i, _ =>
      if m.take 5 = "fifo.".toList then fifoLine c (String.ofList m) i rest
      else if rest = [] then oneArgLine c labels apc (String.ofList m) t
      else none
    | none, [] => oneArgLine c labels apc (String.ofList m) t
    | none, [u] => twoImmLine c (String.ofList m) t u
    | none, _ => none

/-- How many words a line's tokens stand for (R89): it depends on the mnemonic alone. -/
def lineSize (toks : List Text) : Nat :=
  match toks with
  | [] => 0
  | m :: _ =>
    let mn := String.ofList m
    if mn = "fifo.push_evict" ∨ mn = "alarm.after" then 4
    else if mn = "alarm.schedule_wake" then 3
    else if mn = "seq.li64" ∨ mn = "fifo.push_notify" ∨ mn = "fifo.wait_prepare" ∨ mn = "fifo.pop_spin"
      then 2
    else 1

/-- The labels of a program and the words they stand at, in the order of their lines; `apc` is the first
line's. A label defined twice stands twice (assumption 15). -/
def labelTable (apc : Nat) : List Text → List (Text × Nat)
  | [] => []
  | line :: rest =>
    let (lab, toks) := splitLine line
    let here := (lab.map fun l => (l, apc)).toList
    here ++ labelTable (apc + lineSize toks) rest

/-- The operations of a program's lines; `apc` is the first line's. -/
def programInstrs (c : Config) (labels : List (Text × Nat)) (apc : Nat) :
    List Text → Option (List Instr)
  | [] => some []
  | line :: rest =>
    let toks := (splitLine line).2
    (lineInstrs c labels apc toks).bind fun is =>
      (programInstrs c labels (apc + lineSize toks) rest).map (is ++ ·)

/-- The command words of a program text, one line an entry (R88). -/
def assemble (c : Config) (lines : List String) : Option (List DWord) :=
  let texts := lines.map String.toList
  (programInstrs c (labelTable 0 texts) 0 texts).map (List.map encode)

end Sys2Proof.Machine
end

