-- ==== Sys2Proof/Safety.lean ====
section
/-! DEFINITION. What counts as a good state and a good end, in the terms claims use: a run that ends well
(spec/10_state.md rule R58), the invariants every step keeps, and the contents of a FIFO as a list. -/

namespace Sys2Proof.Machine

/-! ### Ends and stops -/

/-- A state where a run ends well (R58): no fault, every agent HALTED with no context, and "the host
triggers no more agents": no TRIGGER is scripted and none is left to the free choice. -/
def State.endsWell (s : State) : Prop :=
  s.fault = none
    ∧ (∀ a, s.cfg.hasAgent a = true → s.agent[a].run = .halted ∧ s.agent[a].ctx = none)
    ∧ (∀ a, Move.trigger a ∉ s.moves)
    ∧ s.hostDone = true

/-- No agent may step and no TRIGGER is enabled: only RESET is left (R53). -/
def State.quiescent (s : State) : Prop :=
  ∀ a, s.mayStep a = false ∧ s.triggerEnabled a = false

/-! ### Invariants -/

/-- Data memory is in its canonical form. -/
def State.memOk (s : State) : Prop := Memory.wf s.mem = true

/-- What `fifo.init` checks of one instance's storage (R90), on the bound registers. -/
def State.storageOk (s : State) (i : InstId) : Prop :=
  isPow2 (s.fifoAt i).len.toNat = true
    ∧ (s.fifoAt i).len.toNat ≤ 2 ^ 31
    ∧ (s.fifoAt i).base.toNat % s.esizeAt i = 0
    ∧ (s.fifoAt i).base.toNat + (s.fifoAt i).len.toNat * s.esizeAt i ≤ 2 ^ 32

/-- The regions of two instances share no byte (R66). -/
def State.apart (s : State) (i j : InstId) : Prop :=
  (s.fifoAt i).base.toNat + (s.fifoAt i).len.toNat * s.esizeAt i ≤ (s.fifoAt j).base.toNat
    ∨ (s.fifoAt j).base.toNat + (s.fifoAt j).len.toNat * s.esizeAt j ≤ (s.fifoAt i).base.toNat

/-- The storage of every bound instance is as `fifo.init` demands, and no two regions meet (R66). -/
def State.regionsOk (s : State) : Prop :=
  (∀ i, (s.fifoAt i).bound = true → s.cfg.hasInst i = true ∧ s.storageOk i)
    ∧ ∀ i j, i ≠ j → (s.fifoAt i).bound = true → (s.fifoAt j).bound = true → s.apart i j

/-- An instance that is not bound still holds its reset values (R23, R152). -/
def State.unboundClean (s : State) : Prop :=
  ∀ i, (s.fifoAt i).bound = false → s.fifoAt i = Fifo.reset

/-- While no alarm is outstanding TS holds MAX_64 (R34) and CB holds 0 (R35, R109). -/
def State.alarmOk (s : State) : Prop := s.armed = false → s.ts = max64 ∧ s.cb = 0

/-- Parts the configuration leaves out are never used: HI without TICK64 (R31), the alarm slot without
ALARM_EN (R33), agents that do not exist (R22). -/
def State.absentOk (s : State) : Prop :=
  (s.cfg.tick64 = false → s.hi = 0)
    ∧ (s.cfg.alarmEn = false → s.armed = false)
    ∧ ∀ a, s.cfg.hasAgent a = false → s.agent[a] = Agent.reset .halted

/-- The micro-operation indices at which operation `i` can be suspended: those it reaches by falling
through or by `goto` (R21, and the pseudocode of R91, R92, R94, R96, R97, R103, R104, R105). -/
def midIndex (c : Config) (i : Instr) (k : Nat) : Bool :=
  match i with
  | .fifoPush _ _ => k == 2
  | .fifoPop _ => k == 2 || k == 3 || k == 4
  | .fifoDrop _ => k == 2 || k == 3 || k == 4
  | .fifoIsfull _ => k == 2
  | .fifoIsempty _ => k == 2
  | .tickInc => c.tickSplit && ((c.tick64 && k == 2) || (c.alarmEn && k == 3))
  | .tickNow => c.tick64 && (k == 1 || k == 2 || k == 3)
  | .tickElapsed _ => c.tick64 && (k == 1 || k == 2 || k == 3)
  | .fifoInit _ _ => false
  | .fifoRegwaker _ _ => false
  | .fifoWake _ => false
  | .alarmSet _ => false
  | .alarmCheck => false
  | .seqLda _ => false
  | .seqLdah _ => false
  | .seqAdda _ => false
  | .seqMova => false
  | .seqJ _ => false
  | .seqBp _ => false
  | .seqBnp _ => false
  | .seqHalt => false

/-- Context `c` of agent `a` is that of a legal operation in flight: the word at its APC (R40, R44),
issued by an agent its role allows (R140) on a bound instance (R50), at a micro-operation it has. -/
def State.ctxGood (s : State) (a : AgentId) (c : Ctx) : Prop :=
  s.agent[a].run = .running
    ∧ (s.setActor a).fetchWord? = some c.word
    ∧ ∃ i, decode s.cfg c.word = .ok i
        ∧ (roleOf i).allows s.cfg a = true
        ∧ s.boundOk i = true
        ∧ midIndex s.cfg i c.k = true

/-- Every context in flight is good. -/
def State.ctxOk (s : State) : Prop := ∀ a c, s.agent[a].ctx = some c → s.ctxGood a c

/-- The invariant of the block. -/
structure State.Inv (s : State) : Prop where
  legal   : s.cfg.legal = true
  mem     : s.memOk
  regions : s.regionsOk
  unbound : s.unboundClean
  alarm   : s.alarmOk
  absent  : s.absentOk
  ctx     : s.ctxOk

/-! ### What a FIFO holds -/

/-- The unread elements of instance `i`, oldest first: the slots of the indices RD(i) .. WR(i) - 1, `none`
for a slot with a byte never written. -/
def State.contents (s : State) (i : InstId) : List (Option Word) :=
  (List.range (s.count i).toNat).map fun j => s.elemRead i ((s.fifoAt i).rd + BitVec.ofNat 32 j)

/-! ### One operation, as statements speak of it -/

/-- The acting agent is about to issue operation `i` and passes the role and binding checks of R50. -/
def State.issues (s : State) (i : Instr) : Prop :=
  s.me.ctx = none ∧ (roleOf i).allows s.cfg s.actor = true ∧ s.boundOk i = true

/-- The acting agent is inside an operation, before its micro-operation `k`, with these locals (R44). -/
def State.inside (s : State) (k : Nat) (loc : Locals) : Prop := ∃ w, s.me.ctx = some ⟨w, k, loc⟩

/-- An agent's record after `complete` (R52), all else as it was. -/
def Agent.done (x : Agent) : Agent := { x with ctx := none, apc := x.apc + 1 }

/-- An agent's record after a micro-operation that leads to `k`, in an operation whose word is `w`. -/
def Agent.mid (x : Agent) (w : DWord) (k : Nat) (loc : Locals) : Agent := { x with ctx := some ⟨w, k, loc⟩ }

/-- The word of the acting agent's operation: its context's, or the one at its APC (R44, R50). -/
def State.opWord (s : State) : DWord :=
  match s.me.ctx with
  | some c => c.word
  | none => s.progWord

/-- `n` steps of the acting agent at operation `i`, with no other agent's step between them. -/
def execAlone (i : Instr) : Nat → State → Result
  | 0, s => .next s
  | n + 1, s =>
    match exec i s with
    | .next t => execAlone i n t
    | .fault f => .fault f
    | .refused r => .refused r

/-- A sequence of operations of the acting agent, each with its number of micro-operations and no other
agent's step between them. -/
def runAlone : List (Instr × Nat) → State → Result
  | [], s => .next s
  | (i, n) :: rest, s =>
    match execAlone i n s with
    | .next t => runAlone rest t
    | .fault f => .fault f
    | .refused r => .refused r

/-- Does operation `i` read a register of the issuing agent `x` that is unwritten (R82, R136)? -/
def readsUnwritten (i : Instr) (x : Agent) : Bool :=
  match i with
  | .fifoInit _ _ => x.a.isNone
  | .fifoPush _ o => decide (o = .regA) && x.a.isNone
  | .tickElapsed o => decide (o = .regA) && x.a.isNone
  | .alarmSet _ => x.a.isNone
  | .seqLdah _ => x.a.isNone
  | .seqAdda _ => x.a.isNone
  | .seqMova => x.res.isNone
  | .seqBp _ => x.p.isNone
  | .seqBnp _ => x.p.isNone
  | .fifoPop _ => false
  | .fifoDrop _ => false
  | .fifoIsfull _ => false
  | .fifoIsempty _ => false
  | .fifoRegwaker _ _ => false
  | .fifoWake _ => false
  | .tickInc => false
  | .tickNow => false
  | .alarmCheck => false
  | .seqLda _ => false
  | .seqJ _ => false
  | .seqHalt => false

/-- The operations that write A (R115 to R118). -/
def writesA (i : Instr) : Prop :=
  (∃ v, i = .seqLda v) ∨ (∃ v, i = .seqLdah v) ∨ (∃ v, i = .seqAdda v) ∨ i = .seqMova

/-- The operations that R83 gives a result in RES. -/
def writesRes (i : Instr) : Prop :=
  (∃ n, i = .fifoPop n) ∨ (∃ n, i = .fifoDrop n) ∨ (∃ n, i = .fifoIsfull n) ∨ (∃ n, i = .fifoIsempty n)
    ∨ (∃ n, i = .fifoWake n) ∨ i = .tickNow ∨ (∃ o, i = .tickElapsed o) ∨ (∃ v, i = .alarmSet v)
    ∨ i = .alarmCheck

/-- The operations that R83 gives an outcome in P. -/
def writesP (i : Instr) : Prop :=
  (∃ n, i = .fifoPop n) ∨ (∃ n, i = .fifoDrop n) ∨ (∃ n, i = .fifoIsfull n) ∨ (∃ n, i = .fifoIsempty n)
    ∨ (∃ n, i = .fifoWake n) ∨ (∃ v, i = .alarmSet v) ∨ i = .alarmCheck ∨ (∃ v, i = .seqAdda v)

/-! ### Legal words, in the words of R86 -/

/-- The OPC values of R84. -/
def assignedOpcs : List Nat :=
  [0x10, 0x11, 0x12, 0x13, 0x14, 0x15, 0x16, 0x17, 0x20, 0x21, 0x22, 0x28, 0x29,
    0x40, 0x41, 0x42, 0x43, 0x44, 0x45, 0x46, 0x47]

/-- The OPC values with an entry in the IMM column of R82. -/
def immOpcs : List Nat := [0x10, 0x11, 0x16, 0x22, 0x28, 0x40, 0x41, 0x42, 0x44, 0x45, 0x46]

/-- None of the seven conditions of R86 holds of the word. `fifo.push` and `tick.elapsed` with SRC = 1
take their operand from A and so no IMM. -/
def wordLegal (c : Config) (w : DWord) : Prop :=
  let opc := (opcField w).toNat
  let isFifo := 0x10 ≤ opc ∧ opc ≤ 0x17
  opc ∈ assignedOpcs
    ∧ rsvField w = 0
    ∧ (isFifo → (instField w).val < c.nfifo)
    ∧ (¬ isFifo → instField w = 0)
    ∧ (srcField w = true → opc = 0x11 ∨ opc = 0x22)
    ∧ (immField w ≠ 0 → opc ∈ immOpcs ∧ srcField w = false)
    ∧ (opc = 0x28 ∨ opc = 0x29 → c.alarmEn = true)

end Sys2Proof.Machine
end

