-- ==== Sys2Proof/Certificates/Slice0/Obligations.lean ====
section
/-! DEFINITION. The statements about the model. Each docstring names the rules of spec/ it formalises.
    In all
of them `s.actor` is the agent whose step is performed, `s.me` its record. -/

open Sys2Proof Sys2Proof.Machine

/-! ### Encoding (spec/30_encoding.md) -/

/-- Decoding an encoded operation gives it back, for every operation that is legal in the configuration,
with every operand (R80, R82, R84, R88). -/
def Obligations.DecodeOfEncode : Prop :=
  ∀ (c : Config) (i : Instr), i.wellFormed c = true → decode c (encode i) = .ok i

/-- Each word has one meaning: a word that decodes is the encoding of its operation, and the operation is
legal in the configuration (R80, R86, R88). -/
def Obligations.EncodeOfDecode : Prop :=
  ∀ (c : Config) (w : DWord) (i : Instr), decode c w = .ok i → encode i = w ∧ i.wellFormed c = true

/-- A word is illegal exactly when one of the seven conditions of R86 holds; else `decode` returns the operation
with its fields. The issue of an illegal word raises F_ILLEGAL. -/
def Obligations.DecodeRejectsExactlyIllegalWords : Prop :=
  ∀ (c : Config) (w : DWord),
    ((∃ i, decode c w = .ok i) ↔ wordLegal c w)
    ∧ (∀ i, decode c w = .ok i → i.opc = (opcField w).toNat ∧ (∀ n, i.inst? = some n → n = instField w)
        ∧ i.src = srcField w ∧ i.immBits = immField w)
    ∧ (∀ s : State, s.cfg = c → s.me.ctx = none → s.fetchWord? = some w → ¬ wordLegal c w →
      agentStep s = .next (s.raise .illegal))

/-- Words written out from R88's table and spec/95_test_vectors.md decode to their operations; the all-zero and the
all-ones word are illegal in every configuration (the spec derives it at R86). -/
def Obligations.WrittenOutWordsDecode : Prop :=
  decode Config.default 0x0000000400000010 = .ok (.fifoInit 0 4)
    ∧ decode Config.default 0x0000004100000011 = .ok (.fifoPush 0 (.imm 0x41))
    ∧ decode Config.default 0x0000000000001111 = .ok (.fifoPush 1 .regA)
    ∧ decode Config.default 0x0000000000000020 = .ok .tickInc
    ∧ decode Config.default 0x0000000000001022 = .ok (.tickElapsed .regA)
    ∧ decode Config.default 0x0000000900000028 = .ok (.alarmSet 9)
    ∧ decode Config.default 0xFFFFFFFF00000042 = .ok (.seqAdda 0xFFFFFFFF)
    ∧ decode Config.default 0x0000000000000047 = .ok .seqHalt
    ∧ (∀ c i, decode c 0 ≠ .ok i) ∧ (∀ c i, decode c 0xFFFFFFFFFFFFFFFF ≠ .ok i)

/-! ### Steps, issue and faults (spec/10_state.md, spec/60_exceptions.md) -/

/-- A step runs the decoded operation. The scripted agent may step; then the step is `exec` of the operation
at its APC, or of the one in flight, with the move taken off the script and the agent made the actor
    (R49, R50, R51). -/
def Obligations.StepRunsDecodedOperation : Prop :=
  ∀ (s : State) (a : AgentId) (ms : List Move), s.cfg.legal = true → s.moves = .agent a :: ms →
    s.mayStep a = true →
    (∀ w i, s.agent[a].ctx = none → (s.setActor a).fetchWord? = some w → decode s.cfg w = .ok i →
      step s = exec i ({ s with moves := ms }.setActor a))
    ∧ (∀ ctx i, s.agent[a].ctx = some ctx → decode s.cfg ctx.word = .ok i →
      step s = exec i ({ s with moves := ms }.setActor a))

/-- The first two checks of issue: an APC outside the program raises F_PC_RANGE with FWORD 0, a word that
does not decode raises F_ILLEGAL with the word
    (R125, R135, R50). Derived: FAPC as the low 32 bits of the integer APC is
the model's choice where 32 bits do not hold the APC, a negative APC among them (assumption 6). -/
def Obligations.FetchRaisesPcRangeAndIllegal : Prop :=
  ∀ (s : State) (a : AgentId) (ms : List Move), s.cfg.legal = true → s.moves = .agent a :: ms →
    s.mayStep a = true → s.agent[a].ctx = none →
    let s1 := { s with moves := ms }.setActor a
    ((s.agent[a].apc < 0 ∨ s.prog[a].length ≤ s.agent[a].apc) →
      step s = .next (s1.raise .pcRange)
        ∧ (s1.raise .pcRange).fault = some ⟨0x0B, a, BitVec.ofInt 32 s.agent[a].apc, 0⟩)
    ∧ (∀ (w : DWord) (n : Nat), s.agent[a].apc = n → s.prog[a][n]? = some w → ¬ wordLegal s.cfg w →
      step s = .next (s1.raise .illegal)
        ∧ (s1.raise .illegal).fault = some ⟨0x01, a, BitVec.ofInt 32 s.agent[a].apc, w⟩)

/-- What a raise does, whole (R138): it records the fault with its code, agent, APC and word, clears the agent's
own context, and changes nothing else; after it no agent may step. A step that records a fault is such a
    raise,
before any write of its own. Derived: FAPC as the low 32 bits of the integer APC is the model's choice
    where 32 bits do not
hold the APC (assumption 6), and the script, the actor, the choice number and `hostDone` are the model's
    own fields
(assumption 1). -/
def Obligations.RaiseRecordsFaultAndNothingElse : Prop :=
  ∀ (s : State) (f : FCode),
    (s.raise f).fault = some ⟨f.code, s.actor, BitVec.ofInt 32 s.me.apc, s.fetchWord?.getD 0⟩
    ∧ (s.raise f).agent[s.actor] = { s.me with ctx := none }
    ∧ (∀ b : AgentId, b ≠ s.actor → (s.raise f).agent[b] = s.agent[b])
    ∧ (s.raise f).fifo = s.fifo ∧ (s.raise f).lo = s.lo ∧ (s.raise f).hi = s.hi
    ∧ (s.raise f).armed = s.armed ∧ (s.raise f).ts = s.ts ∧ (s.raise f).cb = s.cb
    ∧ (s.raise f).ev = s.ev ∧ (s.raise f).mem = s.mem
    ∧ (s.raise f).cfg = s.cfg ∧ (s.raise f).prog = s.prog ∧ (s.raise f).moves = s.moves
    ∧ (s.raise f).actor = s.actor ∧ (s.raise f).choiceNo = s.choiceNo ∧ (s.raise f).hostDone = s.hostDone
    ∧ (s.raise f).quiescent
    ∧ (∀ op t, exec op s = .next t → t.fault ≠ s.fault → ∃ g, t = s.raise g)

/-- The checks after the decoder's, in their order, for every operation: F_ROLE (0x02), then F_UNBOUND (0x03), then
F_UNWRITTEN_REG (0x0C) (R50, R126, R127, R136, R137). -/
def Obligations.IssueChecksInOrder : Prop :=
  ∀ (i : Instr) (s : State), s.me.ctx = none →
    ((roleOf i).allows s.cfg s.actor = false → exec i s = .next (s.raise .role))
    ∧ ((roleOf i).allows s.cfg s.actor = true → s.boundOk i = false → exec i s = .next (s.raise .unbound))
    ∧ ((roleOf i).allows s.cfg s.actor = true → s.boundOk i = true → readsUnwritten i s.me = true →
      exec i s = .next (s.raise .unwrittenReg))
    ∧ FCode.role.code = 0x02 ∧ FCode.unbound.code = 0x03 ∧ FCode.unwrittenReg.code = 0x0C

/-- Who may issue what (R140): any other issuer raises F_ROLE, and an agent that the table allows never does. -/
def Obligations.RolesAreEnforced : Prop :=
  ∀ (i : InstId) (s : State), s.me.ctx = none →
    (s.actor ≠ FG → ∀ len, exec (.fifoInit i len) s = .next (s.raise .role))
    ∧ (s.actor ≠ s.cfg.prod[i] → ∀ op, (∃ src, op = .fifoPush i src) ∨ op = .fifoDrop i ∨ op = .fifoWake i →
        exec op s = .next (s.raise .role))
    ∧ (s.actor ≠ s.cfg.cons[i] → ∀ op, op = .fifoPop i ∨ (∃ tok, op = .fifoRegwaker i tok) →
        exec op s = .next (s.raise .role))
    ∧ (s.actor ≠ TMR → ∀ op, op = .tickInc ∨ op = .alarmCheck → exec op s = .next (s.raise .role))
    ∧ (∀ op, s.fault = none →
        ((∃ len, op = .fifoInit i len) ∧ s.actor = FG)
          ∨ (((∃ src, op = .fifoPush i src) ∨ op = .fifoDrop i ∨ op = .fifoWake i) ∧ s.actor
              = s.cfg.prod[i])
          ∨ ((op = .fifoPop i ∨ ∃ tok, op = .fifoRegwaker i tok) ∧ s.actor = s.cfg.cons[i])
          ∨ ((op = .tickInc ∨ op = .alarmCheck) ∧ s.actor = TMR)
          ∨ (op = .fifoIsfull i ∨ op = .fifoIsempty i)
          ∨ (op.inst? = none ∧ op ≠ .tickInc ∧ op ≠ .alarmCheck) →
        ∀ t r, exec op s = .next t → t.fault = some r → r.fcode ≠ 0x02)

/-- A recorded fault is sticky: no agent may step, no TRIGGER is enabled, the only scripted move that has a next
state is RESET, which has one and clears the fault; and a faulted state is no end (R53, R139). -/
def Obligations.FaultStopsAllButReset : Prop :=
  ∀ (s : State), s.fault ≠ none →
    s.quiescent
    ∧ (∀ m ms t, s.moves = m :: ms → step s = .next t → m = .reset ∧ t.fault = none)
    ∧ (∀ ms, s.cfg.legal = true → s.moves = .reset :: ms → ∃ t, step s = .next t ∧ t.fault = none)
    ∧ ¬ s.endsWell

/-! ### FIFO operations (spec/40_fifo.md) -/

/-- `fifo.init` whole (R90, R128 to R132): the checks in their order, each with its fault; and where all pass (an
unbound instance, a power of two, an aligned base, a region in the data space that shares no byte with
    another bound
instance's) it binds, with both indices 0 and no waker. -/
def Obligations.FifoInitChecksThenBinds : Prop :=
  ∀ (i : InstId) (len : Word) (base : DWord) (s : State),
    s.me.ctx = none → s.actor = FG → s.me.a = some base →
    let size := len.toNat * s.esizeAt i
    let meets := fun j : InstId => j ≠ i ∧ s.cfg.hasInst j = true ∧ (s.fifoAt j).bound = true
      ∧ ∃ y, base.toNat ≤ y ∧ y < base.toNat + size ∧ (s.fifoAt j).base.toNat ≤ y
        ∧ y < (s.fifoAt j).base.toNat + (s.fifoAt j).len.toNat * s.esizeAt j
    ((s.fifoAt i).bound = true → exec (.fifoInit i len) s = .next (s.raise .initTwice))
    ∧ ((s.fifoAt i).bound = false →
      ((¬ ∃ k, len.toNat = 2 ^ k) → exec (.fifoInit i len) s = .next (s.raise .initLen))
      ∧ ((∃ k, len.toNat = 2 ^ k) →
        (base.toNat % s.esizeAt i ≠ 0 → exec (.fifoInit i len) s = .next (s.raise .initAlign))
        ∧ (base.toNat % s.esizeAt i = 0 →
          (2 ^ 32 < base.toNat + size → exec (.fifoInit i len) s = .next (s.raise .initRange))
          ∧ (base.toNat + size ≤ 2 ^ 32 →
            ((∃ j, meets j) → exec (.fifoInit i len) s = .next (s.raise .initOverlap))
            ∧ ((¬ ∃ j, meets j) → exec (.fifoInit i len) s
                = .next ((s.setFifo i ⟨true, base.setWidth 32, len, 0, 0, false, 0⟩).setMe s.me.done))))))
    ∧ FCode.initTwice.code = 0x04 ∧ FCode.initLen.code = 0x05 ∧ FCode.initAlign.code = 0x06
    ∧ FCode.initRange.code = 0x07 ∧ FCode.initOverlap.code = 0x08

/-- The micro-operations of `fifo.push` (R91): with room, μ1 stores the element, cut to EW(i) bits, at the slot of
WR(i), else it raises F_OVERRUN; μ2 stores WR(i) + 1 and completes. Both operand forms. -/
def Obligations.PushStoresThenPublishes : Prop :=
  ∀ (i : InstId) (src : Operand) (s : State),
    (∀ x, s.issues (.fifoPush i src) → s.regionsOk → operandValue src s = some x →
      (s.count i).toNat < (s.fifoAt i).len.toNat →
      exec (.fifoPush i src) s
        = .next ((s.elemWrite i (s.fifoAt i).wr (cutElem (s.esizeAt i) x)).setMe
            (s.me.mid s.opWord 2
              { Locals.empty with v := cutElem (s.esizeAt i) x, w := (s.fifoAt i).wr })))
    ∧ (∀ x, s.issues (.fifoPush i src) → operandValue src s = some x →
      (s.fifoAt i).len.toNat ≤ (s.count i).toNat →
      exec (.fifoPush i src) s = .next (s.raise .overrun))
    ∧ (∀ loc, s.inside 2 loc →
      exec (.fifoPush i src) s
        = .next ((s.setFifo i { s.fifoAt i with wr := loc.w + 1 }).setMe s.me.done))

/-- `fifo.push` into a full buffer raises F_OVERRUN (0x09), judged on the true count; no byte is stored and no
register of an instance changes (R133). Derived: FAPC as the low 32 bits of the integer APC is the
    model's choice where 32
bits do not hold the APC (assumption 6). -/
def Obligations.PushIntoFullRaisesOverrun : Prop :=
  ∀ (i : InstId) (src : Operand) (x : DWord) (s : State),
    s.issues (.fifoPush i src) → operandValue src s = some x →
    (s.fifoAt i).len.toNat ≤ ((s.fifoAt i).wr - (s.fifoAt i).rd).toNat →
    ∃ t, exec (.fifoPush i src) s = .next t
      ∧ t.fault = some ⟨0x09, s.actor, BitVec.ofInt 32 s.me.apc, s.progWord⟩
      ∧ t.mem = s.mem ∧ t.fifo = s.fifo

/-- The micro-operations of `fifo.pop` and of `fifo.drop` (R94, R92). -/
def Obligations.TakeMicroOperations : Prop :=
  ∀ (i : InstId) (op : Instr) (s : State), op = .fifoPop i ∨ op = .fifoDrop i →
    (s.issues op →
      exec op s = .next (s.setMe (s.me.mid s.opWord 2 { Locals.empty with r := (s.fifoAt i).rd })))
    ∧ (∀ loc, s.inside 2 loc → (s.fifoAt i).wr = loc.r →
      exec op s = .next (s.setMe { s.me with res := some 0, p := some false }.done))
    ∧ (∀ loc, s.inside 2 loc → (s.fifoAt i).wr ≠ loc.r →
      exec op s = .next (s.setMe (s.me.mid s.opWord 3 { loc with w := (s.fifoAt i).wr })))
    ∧ (∀ loc v, s.inside 3 loc → s.regionsOk → (s.fifoAt i).bound = true →
      s.elemRead i loc.r = some v →
      exec op s = .next (s.setMe (s.me.mid s.opWord 4 { loc with v := v })))
    ∧ (∀ loc, s.inside 3 loc → s.regionsOk → (s.fifoAt i).bound = true → s.elemRead i loc.r = none →
      exec op s = .next (s.raise .uninitRead))
    ∧ (∀ loc, s.inside 4 loc →
      exec op s = .next ((s.setFifo i { s.fifoAt i with rd := loc.r + 1 }).setMe
        { s.me with res := some (zext64 loc.v), p := some true }.done))

/-- A slot with a byte never written raises F_UNINIT_READ, code 0x0A, at μ3 of `fifo.pop` and `fifo.drop`
(R134, R124, R60). -/
def Obligations.UnwrittenSlotRaisesUninitRead : Prop :=
  (∀ (i : InstId) (op : Instr) (loc : Locals) (s : State) (j : Nat), op = .fifoPop i ∨ op = .fifoDrop i →
    s.inside 3 loc → s.regionsOk → (s.fifoAt i).bound = true →
    j < s.esizeAt i → memGet s.mem (s.slotAddr i loc.r + j) = none →
    exec op s = .next (s.raise .uninitRead))
    ∧ FCode.uninitRead.code = 0x0A

/-- A whole `fifo.pop` or `fifo.drop` with no other step between (R94, R92): the oldest element in RES with
P = 1 and RD(i) up by one, or RES = 0 with P = 0 and nothing else changed. -/
def Obligations.TakeDeliversOldestOrAbsent : Prop :=
  ∀ (i : InstId) (op : Instr) (s : State), op = .fifoPop i ∨ op = .fifoDrop i → s.issues op →
    (s.count i = 0 →
      execAlone op 2 s = .next (s.setMe { s.me with res := some 0, p := some false }.done))
    ∧ (∀ v, s.count i ≠ 0 → s.regionsOk → s.elemRead i (s.fifoAt i).rd = some v →
      execAlone op 4 s = .next ((s.setFifo i { s.fifoAt i with rd := (s.fifoAt i).rd + 1 }).setMe
        { s.me with res := some (zext64 v), p := some true }.done))

/-- `fifo.isfull` and `fifo.isempty` (R96, R97): RD(i) is loaded first, WR(i) second, and the answer comes from
the two loaded values, full by `>=`. -/
def Obligations.QueriesAnswerFromTwoLoads : Prop :=
  ∀ (i : InstId) (s : State) (loc : Locals),
    (s.issues (.fifoIsfull i) → exec (.fifoIsfull i) s
      = .next (s.setMe (s.me.mid s.opWord 2 { Locals.empty with r := (s.fifoAt i).rd })))
    ∧ (s.issues (.fifoIsempty i) → exec (.fifoIsempty i) s
      = .next (s.setMe (s.me.mid s.opWord 2 { Locals.empty with r := (s.fifoAt i).rd })))
    ∧ (s.inside 2 loc → ∃ full, (full = true ↔ ((s.fifoAt i).wr - loc.r).toNat ≥ (s.fifoAt i).len.toNat)
      ∧ exec (.fifoIsfull i) s
          = .next (s.setMe { s.me with res := some (if full then 1 else 0), p := some full }.done))
    ∧ (s.inside 2 loc → ∃ empty, (empty = true ↔ (s.fifoAt i).wr = loc.r)
      ∧ exec (.fifoIsempty i) s
          = .next (s.setMe { s.me with res := some (if empty then 1 else 0), p := some empty }.done))

/-- `fifo.regwaker` registers the token in one step (R95), and registering the same token again changes no
instance (R65). -/
def Obligations.RegwakerRegisters : Prop :=
  ∀ (i : InstId) (tok : Word) (s : State), s.issues (.fifoRegwaker i tok) →
    exec (.fifoRegwaker i tok) s
      = .next ((s.setFifo i { s.fifoAt i with wkv := true, wkt := tok }).setMe s.me.done)
    ∧ ((s.fifoAt i).wkv = true → (s.fifoAt i).wkt = tok →
      exec (.fifoRegwaker i tok) s = .next (s.setMe s.me.done))

/-- `fifo.wake` takes and clears a registration and emits one Wake, or reports that there is none (R93). -/
def Obligations.WakeTakesAndClears : Prop :=
  ∀ (i : InstId) (s : State), s.issues (.fifoWake i) →
    ((s.fifoAt i).wkv = true → exec (.fifoWake i) s
      = .next (((s.emit (.wake i (s.fifoAt i).wkt)).setFifo i { s.fifoAt i with wkv := false }).setMe
          { s.me with res := some 1, p := some true }.done))
    ∧ ((s.fifoAt i).wkv = false → exec (.fifoWake i) s
      = .next (s.setMe { s.me with res := some 0, p := some false }.done))

/-- A registration on a bound instance is consumed by nothing but the Wake that answers it: after any operation's
step it still stands, or its Wake is the new entry of EV (R101, R93, R28). -/
def Obligations.RegistrationIsNeverLost : Prop :=
  ∀ (op : Instr) (i : InstId) (s t : State), exec op s = .next t →
    (s.fifoAt i).bound = true → (s.fifoAt i).wkv = true →
    ((t.fifoAt i).wkv = true ∧ t.ev = s.ev ∧ (t.fifoAt i).wkt = (s.fifoAt i).wkt)
      ∨ ((t.fifoAt i).wkv = true ∧ ∃ tok, op = .fifoRegwaker i tok ∧ (t.fifoAt i).wkt = tok)
      ∨ ((t.fifoAt i).wkv = true ∧ (t.fifoAt i).wkt = (s.fifoAt i).wkt ∧ ∃ e, t.ev = s.ev ++ [e])
      ∨ t.ev = s.ev ++ [.wake i (s.fifoAt i).wkt]

/-- A producer that gets full = 0 can push (R99 a): if RD(i) has only moved on, by at most the count the query
saw, the count is below LEN(i), so the push does not overrun. -/
def Obligations.NotFullGuaranteesRoom : Prop :=
  ∀ (i : InstId) (src : Operand) (x : DWord) (loc : Locals) (s t u : State) (d : Word),
    s.inside 2 loc → exec (.fifoIsfull i) s = .next t → t.me.p = some false →
    (u.fifoAt i).wr = (t.fifoAt i).wr → (u.fifoAt i).len = (t.fifoAt i).len →
    (u.fifoAt i).rd = loc.r + d → d.toNat ≤ ((t.fifoAt i).wr - loc.r).toNat →
    u.issues (.fifoPush i src) → operandValue src u = some x →
    (u.count i).toNat < (u.fifoAt i).len.toNat ∧ exec (.fifoPush i src) u ≠ .next (u.raise .overrun)

/-! ### What a FIFO holds -/

/-- A slot is read back as it was written, cut to EW(i) bits, byte j of the element at byte j of the slot and no other
byte written; the 64-bit counter is composed by arithmetic (R60, R61, R62, R32). -/
def Obligations.ElementsAreLittleEndian : Prop :=
  ∀ (s : State) (i : InstId) (idx v : Word), s.cfg.instLegal i = true →
    (∀ j, j < s.esizeAt i → memGet (s.elemWrite i idx v).mem (s.slotAddr i idx + j)
      = some (v.extractLsb' (8 * j) 8))
    ∧ (∀ y, y < s.slotAddr i idx ∨ s.slotAddr i idx + s.esizeAt i ≤ y →
      memGet (s.elemWrite i idx v).mem y = memGet s.mem y)
    ∧ (s.elemWrite i idx v).elemRead i idx = some (BitVec.ofNat 32 (v.toNat % 2 ^ (8 * s.esizeAt i)))
    ∧ (s.cfg.tick64 = true → s.nowval.toNat = s.hi.toNat * 2 ^ 32 + s.lo.toNat)

/-- Every slot of a bound instance is aligned and lies inside its region, and the slot index moves on by exactly
one modulo LEN(i), across the wrap of the index too (R62, R63, R164). -/
def Obligations.SlotsAreAlignedAndWrap : Prop :=
  ∀ (s : State) (i : InstId) (idx : Word), s.cfg.legal = true → s.regionsOk → (s.fifoAt i).bound = true →
    s.slotAddr i idx % s.esizeAt i = 0
    ∧ (s.fifoAt i).base.toNat ≤ s.slotAddr i idx
    ∧ s.slotAddr i idx + s.esizeAt i
        ≤ (s.fifoAt i).base.toNat + (s.fifoAt i).len.toNat * s.esizeAt i
    ∧ (idx + 1).toNat % (s.fifoAt i).len.toNat
        = (idx.toNat % (s.fifoAt i).len.toNat + 1) % (s.fifoAt i).len.toNat

/-- A whole `fifo.push` with room appends its value to what the FIFO holds (R91, R75). -/
def Obligations.PushAppendsElement : Prop :=
  ∀ (i : InstId) (src : Operand) (x : DWord) (s : State), s.cfg.legal = true → s.regionsOk →
    s.issues (.fifoPush i src) → operandValue src s = some x →
    (s.count i).toNat < (s.fifoAt i).len.toNat →
    ∃ t, execAlone (.fifoPush i src) 2 s = .next t
      ∧ t.contents i = s.contents i ++ [some (cutElem (s.esizeAt i) x)]
      ∧ t.me = s.me.done

/-- A whole `fifo.pop` or `fifo.drop` removes and returns the oldest element the FIFO holds (R94, R92, R75). -/
def Obligations.TakeRemovesHeadElement : Prop :=
  ∀ (i : InstId) (op : Instr) (v : Word) (rest : List (Option Word)) (s : State), s.regionsOk →
    op = .fifoPop i ∨ op = .fifoDrop i → s.issues op → s.contents i = some v :: rest →
    ∃ t, execAlone op 4 s = .next t
      ∧ t.contents i = rest
      ∧ t.me = { s.me with res := some (zext64 v), p := some true }.done

/-- FIFOs do not interfere: no step of any operation changes what an instance it does not name holds, its
registers included (R66, R75, and the source's "without interfering with each other"). -/
def Obligations.OtherFifosAreUntouched : Prop :=
  ∀ (op : Instr) (i : InstId) (s t : State), s.regionsOk → exec op s = .next t →
    (s.fifoAt i).bound = true → op.inst? ≠ some i →
    (∀ n, op.inst? = some n → (s.me.ctx = none ∨ (s.fifoAt n).bound = true)) →
    t.fifoAt i = s.fifoAt i ∧ t.contents i = s.contents i

/-- The drop-oldest idiom on a full buffer (R102, R89): run by the producer with no other step between, the
operations of `fifo.push_evict` raise no fault, drop the oldest element and append the new one. -/
def Obligations.PushEvictReplacesOldest : Prop :=
  ∀ (i : InstId) (v w : Word) (rest : List (Option Word)) (s : State), s.cfg.legal = true → s.regionsOk →
    s.me.ctx = none → s.actor = s.cfg.prod[i] → (s.fifoAt i).bound = true →
    (s.count i).toNat = (s.fifoAt i).len.toNat → s.contents i = some w :: rest →
    expand s.cfg (.pushEvict i v) = some [.fifoIsfull i, .seqBnp 2, .fifoDrop i, .fifoPush i (.imm v)]
    ∧ ∃ t, runAlone [(.fifoIsfull i, 2), (.seqBnp 2, 1), (.fifoDrop i, 4), (.fifoPush i (.imm v), 2)] s
        = .next t
      ∧ t.fault = s.fault
      ∧ t.contents i = rest ++ [some (cutElem (s.esizeAt i) (zext64 v))]
      ∧ t.me.apc = s.me.apc + 4

/-! ### The tick clock (spec/41_clock.md) -/

/-- The micro-operations of `tick.inc` (R103): with TICK_SPLIT true one word a micro-operation, with TICK_SPLIT false
the whole counter and the alarm check in one. -/
def Obligations.TickIncMicroOperations : Prop :=
  ∀ (s : State) (loc : Locals),
    (s.cfg.tickSplit = true → s.issues .tickInc → s.lo = 0xFFFFFFFF → s.cfg.tick64 = true →
      exec .tickInc s = .next ((s.setLo 0).setMe (s.me.mid s.opWord 2 { Locals.empty with c := true })))
    ∧ (s.cfg.tickSplit = true → s.issues .tickInc → (s.lo ≠ 0xFFFFFFFF ∨ s.cfg.tick64 = false) →
      s.cfg.alarmEn = true →
      ∃ c, exec .tickInc s
        = .next ((s.setLo (s.lo + 1)).setMe (s.me.mid s.opWord 3 { Locals.empty with c := c })))
    ∧ (s.cfg.tickSplit = true → s.issues .tickInc → (s.lo ≠ 0xFFFFFFFF ∨ s.cfg.tick64 = false) →
      s.cfg.alarmEn = false → exec .tickInc s = .next ((s.setLo (s.lo + 1)).setMe s.me.done))
    ∧ (s.cfg.tickSplit = true → s.inside 2 loc → s.cfg.alarmEn = true →
      exec .tickInc s = .next ((s.setHi (s.hi + 1)).setMe (s.me.mid s.opWord 3 loc)))
    ∧ (s.cfg.tickSplit = true → s.inside 2 loc → s.cfg.alarmEn = false →
      exec .tickInc s = .next ((s.setHi (s.hi + 1)).setMe s.me.done))
    ∧ (s.cfg.tickSplit = true → s.inside 3 loc → exec .tickInc s = .next (s.alarmCheck.setMe s.me.done))
    ∧ (s.cfg.tickSplit = false → s.issues .tickInc →
      let u := (s.setLo (s.lo + 1)).setHi (if s.cfg.tick64 = true ∧ s.lo
          = 0xFFFFFFFF then s.hi + 1 else s.hi)
      exec .tickInc s = .next ((if s.cfg.alarmEn then u.alarmCheck else u).setMe s.me.done))

/-- A whole `tick.inc` with no other step between advances the counter by exactly one tick, in every
configuration, and completes, in one step where TICK_SPLIT is false; RES, P and A are unchanged; where
ALARM_EN holds an alarm that is due at the new counter value fires (R103, R32, R109). -/
def Obligations.TickIncAdvancesCounterByOne : Prop :=
  ∀ (s : State), s.issues .tickInc → s.cfg.legal = true →
    ∃ n t, 1 ≤ n ∧ n ≤ 3 ∧ execAlone .tickInc n s = .next t
      ∧ t.me = s.me.done
      ∧ t.lo = s.lo + 1
      ∧ (s.cfg.tick64 = true → t.nowval = s.nowval + 1)
      ∧ (s.cfg.tick64 = false → t.hi = s.hi)
      ∧ (s.cfg.tickSplit = false → exec .tickInc s = .next t)
      ∧ (s.cfg.alarmEn = true → s.armed = true → s.ts.toNat ≤ (s.nowval + 1).toNat →
          t.ev = s.ev ++ [.fire s.cb] ∧ t.armed = false)
      ∧ (s.cfg.alarmEn = false ∨ s.armed = false ∨ (s.nowval + 1).toNat < s.ts.toNat →
          t.ev = s.ev ∧ t.armed = s.armed ∧ t.ts = s.ts ∧ t.cb = s.cb)

/-- `tick.now` (R104): one load without TICK64; else high, low, high again, and back to μ1 if the two high
words differ. -/
def Obligations.TickNowReadsWithRetry : Prop :=
  ∀ (s : State) (loc : Locals),
    (s.cfg.tick64 = false → s.issues .tickNow →
      exec .tickNow s = .next (s.setMe { s.me with res := some (zext64 s.lo) }.done))
    ∧ (s.cfg.tick64 = true → s.issues .tickNow →
      exec .tickNow s = .next (s.setMe (s.me.mid s.opWord 2 { Locals.empty with h1 := s.hi })))
    ∧ (s.cfg.tick64 = true → s.inside 1 loc →
      exec .tickNow s = .next (s.setMe (s.me.mid s.opWord 2 { loc with h1 := s.hi })))
    ∧ (s.cfg.tick64 = true → s.inside 2 loc →
      exec .tickNow s = .next (s.setMe (s.me.mid s.opWord 3 { loc with l := s.lo })))
    ∧ (s.cfg.tick64 = true → s.inside 3 loc → loc.h1 ≠ s.hi →
      exec .tickNow s = .next (s.setMe (s.me.mid s.opWord 1 { loc with h2 := s.hi })))
    ∧ (s.cfg.tick64 = true → s.inside 3 loc → loc.h1 = s.hi →
      exec .tickNow s = .next (s.setMe { s.me with res := some (loc.h1 ++ loc.l) }.done))

/-- `tick.elapsed` with no other step between (R105): the difference where snap <= now, else MAX_TW, in both
widths and both operand forms; P unchanged. -/
def Obligations.TickElapsedSaturates : Prop :=
  ∀ (src : Operand) (x : DWord) (s : State), s.issues (.tickElapsed src) → operandValue src s = some x →
    ∃ n dur, execAlone (.tickElapsed src) n s = .next (s.setMe { s.me with res := some dur }.done)
      ∧ (s.cfg.tick64 = true → x.toNat ≤ s.nowval.toNat → dur.toNat = s.nowval.toNat - x.toNat)
      ∧ (s.cfg.tick64 = true → s.nowval.toNat < x.toNat → dur.toNat = 2 ^ 64 - 1)
      ∧ (s.cfg.tick64 = false → x.toNat % 2 ^ 32 ≤ s.lo.toNat →
          dur.toNat = s.lo.toNat - x.toNat % 2 ^ 32)
      ∧ (s.cfg.tick64 = false → s.lo.toNat < x.toNat % 2 ^ 32 → dur.toNat = 2 ^ 32 - 1)

/-- The micro-operations of `tick.elapsed` (R105, R82), with and without TICK64: the snapshot captured at
issue, the read of `tick.now`, and the duration where snap <= now, else MAX_TW. -/
def Obligations.TickElapsedMicroOperations : Prop :=
  ∀ (src : Operand) (x : DWord) (loc : Locals) (s : State),
    (s.cfg.tick64 = false → s.issues (.tickElapsed src) → operandValue src s = some x →
      ∃ dur, exec (.tickElapsed src) s = .next (s.setMe { s.me with res := some dur }.done)
        ∧ (x.toNat % 2 ^ 32 ≤ s.lo.toNat → dur.toNat = s.lo.toNat - x.toNat % 2 ^ 32)
        ∧ (s.lo.toNat < x.toNat % 2 ^ 32 → dur.toNat = 2 ^ 32 - 1))
    ∧ (s.cfg.tick64 = true → s.issues (.tickElapsed src) → operandValue src s = some x →
      exec (.tickElapsed src) s
        = .next (s.setMe (s.me.mid s.opWord 2 { Locals.empty with snap := x, h1 := s.hi })))
    ∧ (s.cfg.tick64 = true → s.inside 1 loc →
      exec (.tickElapsed src) s = .next (s.setMe (s.me.mid s.opWord 2 { loc with h1 := s.hi })))
    ∧ (s.cfg.tick64 = true → s.inside 2 loc →
      exec (.tickElapsed src) s = .next (s.setMe (s.me.mid s.opWord 3 { loc with l := s.lo })))
    ∧ (s.cfg.tick64 = true → s.inside 3 loc → loc.h1 ≠ s.hi →
      exec (.tickElapsed src) s = .next (s.setMe (s.me.mid s.opWord 1 { loc with h2 := s.hi })))
    ∧ (s.cfg.tick64 = true → s.inside 3 loc → loc.h1 = s.hi →
      ∃ dur, exec (.tickElapsed src) s = .next (s.setMe { s.me with res := some dur }.done)
        ∧ (loc.snap.toNat ≤ (loc.h1 ++ loc.l).toNat →
            dur.toNat = (loc.h1 ++ loc.l).toNat - loc.snap.toNat)
        ∧ ((loc.h1 ++ loc.l).toNat < loc.snap.toNat → dur.toNat = 2 ^ 64 - 1))

/-- Where nothing steps between, `tick.now` returns NOWVAL (R104, R107). -/
def Obligations.TickNowReturnsCounter : Prop :=
  ∀ (s : State), s.issues .tickNow →
    ∃ n, execAlone .tickNow n s = .next (s.setMe { s.me with res := some s.nowval }.done)

/-- The window of a split update (R106): after μ1 of a `tick.inc` that carries, a whole `tick.now` of any other
agent reads the old HI with LO = 0, which is 2^32 - 1 below the value before the tick. -/
def Obligations.SplitUpdateWindowRegresses : Prop :=
  ∀ (s t : State) (r : AgentId), s.cfg.tickSplit = true → s.cfg.tick64 = true → s.lo = 0xFFFFFFFF →
    s.issues .tickInc → exec .tickInc s = .next t → r ≠ s.actor → s.agent[r].ctx = none →
    ∃ u v, execAlone .tickNow 3 (t.setActor r) = .next u ∧ u.me.res = some v
      ∧ v = s.hi ++ (0 : Word) ∧ v.toNat + (2 ^ 32 - 1) = s.nowval.toNat

/-! ### The alarm (spec/42_alarm.md) -/

/-- AlarmCheck (R109): a due alarm fires once, its slot is cleared and the check returns 1; an alarm that is not due
changes nothing and the check returns 0. -/
def Obligations.AlarmCheckFiresDueAlarm : Prop :=
  ∀ (s : State),
    (s.armed = true → s.ts.toNat ≤ s.nowval.toNat →
      s.alarmCheck = (s.emit (.fire s.cb)).setAlarm false 0xFFFFFFFFFFFFFFFF 0 ∧ s.alarmDue = true)
    ∧ ((s.armed = false ∨ s.nowval.toNat < s.ts.toNat) → s.alarmCheck = s ∧ s.alarmDue = false)

/-- `alarm.set` (R110): BUSY, PAST, OK, in that order of checks. -/
def Obligations.AlarmSetAcceptsOrRefuses : Prop :=
  ∀ (tok : Word) (ts : DWord) (s : State), s.issues (.alarmSet tok) → s.me.a = some ts →
    (s.armed = true → exec (.alarmSet tok) s
      = .next (s.setMe { s.me with res := some 2, p := some false }.done))
    ∧ (s.armed = false → ts.toNat ≤ s.nowval.toNat → exec (.alarmSet tok) s
      = .next ((s.setAlarm false max64 s.cb).setMe { s.me with res := some 1, p := some false }.done))
    ∧ (s.armed = false → s.nowval.toNat < ts.toNat → exec (.alarmSet tok) s
      = .next ((s.setAlarm true ts tok).setMe { s.me with res := some 0, p := some true }.done))

/-- `alarm.check` (R111): AlarmCheck, with RES and P telling whether it fired. -/
def Obligations.AlarmCheckReportsFiring : Prop :=
  ∀ (s : State), s.issues .alarmCheck →
    (s.armed = true → s.ts.toNat ≤ s.nowval.toNat → exec .alarmCheck s
      = .next (((s.emit (.fire s.cb)).setAlarm false max64 0).setMe
          { s.me with res := some 1, p := some true }.done))
    ∧ ((s.armed = false ∨ s.nowval.toNat < s.ts.toNat) → exec .alarmCheck s
      = .next (s.setMe { s.me with res := some 0, p := some false }.done))

/-- An accepted alarm fires exactly once (R112, R113): the first AlarmCheck at a counter value of at least ts
emits its Fire, an earlier one emits nothing, and the check after the Fire emits nothing. -/
def Obligations.AcceptedAlarmFiresExactlyOnce : Prop :=
  ∀ (s : State) (ts : DWord) (tok lo hi lo' hi' : Word), s.armed = false → s.nowval.toNat < ts.toNat →
    let t := ((s.alarmRegister ts tok).setLo lo).setHi hi
    (t.nowval.toNat < ts.toNat → t.alarmCheck = t)
    ∧ (ts.toNat ≤ t.nowval.toNat →
      t.alarmCheck.ev = s.ev ++ [.fire tok]
        ∧ ((t.alarmCheck.setLo lo').setHi hi').alarmCheck.ev = s.ev ++ [.fire tok])

/-! ### The sequencer (spec/43_sequencer.md) -/

/-- `seq.lda`, `seq.ldah`, `seq.adda` and `seq.mova` (R115 to R118): only A, and P for `seq.adda`, and APC up by
one; F_UNWRITTEN_REG where the register read is unwritten. -/
def Obligations.SequencerLoadsAndAdds : Prop :=
  ∀ (imm : Word) (x : DWord) (s : State), s.me.ctx = none →
    exec (.seqLda imm) s = .next (s.setMe { s.me with a := some (imm.setWidth 64) }.done)
    ∧ (s.me.a = some x → exec (.seqLdah imm) s
      = .next (s.setMe { s.me with a := some (imm ++ x.setWidth 32) }.done))
    ∧ (s.me.a = some x → ∃ sum : DWord, sum.toNat = (x.toInt + imm.toInt) % 2 ^ 64
      ∧ exec (.seqAdda imm) s
          = .next (s.setMe { s.me with a := some sum, p := some (decide (sum ≠ 0)) }.done))
    ∧ (s.me.res = some x → exec .seqMova s = .next (s.setMe { s.me with a := some x }.done))
    ∧ (s.me.a = none → exec (.seqLdah imm) s = .next (s.raise .unwrittenReg)
        ∧ exec (.seqAdda imm) s = .next (s.raise .unwrittenReg))
    ∧ (s.me.res = none → exec .seqMova s = .next (s.raise .unwrittenReg))

/-- The branches (R119, R120, R121): APC + simm where taken, APC + 1 where not, and nothing else changes;
F_UNWRITTEN_REG where P is unwritten. -/
def Obligations.BranchesSetApc : Prop :=
  ∀ (imm : Word) (b : Bool) (s : State), s.me.ctx = none →
    exec (.seqJ imm) s = .next (s.setMe { s.me with apc := s.me.apc + imm.toInt })
    ∧ (s.me.p = some b → exec (.seqBp imm) s
      = .next (s.setMe { s.me with apc := if b then s.me.apc + imm.toInt else s.me.apc + 1 }))
    ∧ (s.me.p = some b → exec (.seqBnp imm) s
      = .next (s.setMe { s.me with apc := if b then s.me.apc + 1 else s.me.apc + imm.toInt }))
    ∧ (s.me.p = none → exec (.seqBp imm) s = .next (s.raise .unwrittenReg)
        ∧ exec (.seqBnp imm) s = .next (s.raise .unwrittenReg))

/-- `seq.halt` (R122): HALTED, APC keeps the index of the halt, and A, RES and P keep their values. -/
def Obligations.HaltKeepsApcAndRegisters : Prop :=
  ∀ (s : State), s.me.ctx = none → exec .seqHalt s = .next (s.setMe { s.me with run := .halted })

/-! ### Frames: what an operation leaves unchanged -/

/-- An operation writes no other agent's record, no parameter and no program (R138, R149, R45), nor the script, the
actor and `hostDone`, the model's own fields (assumption 1). -/
def Obligations.OtherAgentsAreUntouched : Prop :=
  ∀ (op : Instr) (s t : State), exec op s = .next t →
    (∀ b : AgentId, b ≠ s.actor → t.agent[b] = s.agent[b])
    ∧ t.cfg = s.cfg ∧ t.prog = s.prog ∧ t.moves = s.moves ∧ t.actor = s.actor ∧ t.hostDone = s.hostDone

/-- The acting agent's A, RES, P and RUN: each is unchanged by the operations that R83 and the operation rules do
not name as its writers. -/
def Obligations.AgentRegistersFrame : Prop :=
  ∀ (op : Instr) (s t : State), exec op s = .next t →
    (¬ writesA op → t.me.a = s.me.a)
    ∧ (¬ writesRes op → t.me.res = s.me.res)
    ∧ (¬ writesP op → t.me.p = s.me.p)
    ∧ (op ≠ .seqHalt → t.me.run = s.me.run)

/-- Only `tick.inc` writes LO and HI; only `tick.inc`, `alarm.check` and `alarm.set` write the alarm slot; only
`fifo.wake`, `tick.inc` and `alarm.check` append to EV, one entry at most; FAULT changes by a raise
    alone, which
changes nothing else that is shared (R30, R31, R33, R34, R35, R36, R37). -/
def Obligations.ClockAlarmAndEventsFrame : Prop :=
  ∀ (op : Instr) (s t : State), exec op s = .next t →
    (op ≠ .tickInc → t.lo = s.lo ∧ t.hi = s.hi)
    ∧ (op ≠ .tickInc → op ≠ .alarmCheck → (¬ ∃ tok, op = .alarmSet tok) →
      t.armed = s.armed ∧ t.ts = s.ts ∧ t.cb = s.cb)
    ∧ (t.ev = s.ev ∨ (∃ e, t.ev = s.ev ++ [e])
      ∧ ((∃ i, op = .fifoWake i) ∨ op = .tickInc ∨ op = .alarmCheck))
    ∧ (t.fault = s.fault ∨ ∃ f, t = s.raise f)

/-- FIFO registers: an operation changes those of the instance it names alone; `fifo.push` only WR, `fifo.pop` and
`fifo.drop` only RD, `fifo.regwaker` only the waker slot, `fifo.wake` only WKV, and the queries and all
    other
operations none (R23 to R28, R98). -/
def Obligations.FifoRegistersFrame : Prop :=
  ∀ (op : Instr) (s t : State), exec op s = .next t →
    (∀ n, op.inst? ≠ some n → t.fifoAt n = s.fifoAt n)
    ∧ (∀ i src, op = .fifoPush i src →
      t.fifoAt i = { s.fifoAt i with wr := (t.fifoAt i).wr })
    ∧ (∀ i, op = .fifoPop i ∨ op = .fifoDrop i → t.fifoAt i = { s.fifoAt i with rd := (t.fifoAt i).rd })
    ∧ (∀ i tok, op = .fifoRegwaker i tok →
      t.fifoAt i = { s.fifoAt i with wkv := (t.fifoAt i).wkv, wkt := (t.fifoAt i).wkt })
    ∧ (∀ i, op = .fifoWake i → t.fifoAt i = { s.fifoAt i with wkv := (t.fifoAt i).wkv })
    ∧ (∀ i, op = .fifoIsfull i ∨ op = .fifoIsempty i → t.fifo = s.fifo)

/-- Data memory (R38, R59, R65): only μ1 of `fifo.push` writes it, and only the ESIZE(i) bytes of the slot of
WR(i); every other byte reads as before. -/
def Obligations.OnlyPushWritesItsSlot : Prop :=
  ∀ (op : Instr) (s t : State), exec op s = .next t →
    ((¬ ∃ i src, op = .fifoPush i src) → ∀ y, memGet t.mem y = memGet s.mem y)
    ∧ (∀ i src, op = .fifoPush i src → ∀ a, a = s.slotAddr i (s.fifoAt i).wr →
      ∀ y, y < a ∨ a + s.esizeAt i ≤ y → memGet t.mem y = memGet s.mem y)
    ∧ (∀ i src, op = .fifoPush i src → s.me.ctx ≠ none ∧ (∀ loc, ¬ s.inside 1 loc) → t.mem = s.mem)

/-! ### The machine: moves, host actions, reset -/

/-- Who may step (R69, R70, R39, R53): under FREE every RUNNING agent, under PREEMPT an interrupt agent likewise, and FG
only while every interrupt agent is HALTED; no agent while a fault is recorded. -/
def Obligations.SchedulingPolicy : Prop :=
  ∀ (s : State) (a : AgentId),
    s.mayStep a = true ↔ s.cfg.hasAgent a = true ∧ s.agent[a].run = .running ∧ s.fault = none
      ∧ (s.cfg.sched = .free ∨ a ≠ FG
        ∨ ∀ b : AgentId, b ≠ FG → s.cfg.hasAgent b = true → s.agent[b].run = .halted)

/-- `TRIGGER(a)` (R54): enabled exactly when the agent is HALTED with no context and no fault is recorded, for FG too, it
starts the agent at APC 0 with A, RES and P unwritten and changes nothing else; a request for a RUNNING
    agent has no
effect and is not held pending (R143). Derived: that such a request is a step which takes the move off
    the script, and that
the remaining ones are refused by name, is the model's reading (assumption 10) of its own script
    (assumption 1). -/
def Obligations.TriggerStartsActivation : Prop :=
  ∀ (s : State) (a : AgentId) (ms : List Move), s.cfg.legal = true → s.moves = .trigger a :: ms →
    s.cfg.hasAgent a = true →
    (s.triggerEnabled a = true ↔ s.agent[a].run = .halted ∧ s.agent[a].ctx = none ∧ s.fault = none)
    ∧ (s.agent[a].run = .halted → s.agent[a].ctx = none → s.fault = none →
      step s = .next ({ s with moves := ms }.setAgent a ⟨.running, 0, none, none, none, none⟩))
    ∧ (s.agent[a].run = .running → s.fault = none → step s = .next { s with moves := ms })
    ∧ (s.fault ≠ none ∨ (s.agent[a].run = .halted ∧ s.agent[a].ctx ≠ none) →
      step s = .refused .triggerNotEnabled)

/-- RESET (R152, R153, R55): every piece of state at its value of R152, memory kept, in every state; at power-on no byte
of memory is written; and from the state after it every interrupt agent may be triggered. Derived: that
    RESET keeps the
rest of the script (`t.moves = ms`) is the model's choice (assumption 11). -/
def Obligations.ResetRestoresEverything : Prop :=
  ∀ (s : State) (ms : List Move), s.cfg.legal = true → s.moves = .reset :: ms →
    ∃ t, step s = .next t
      ∧ (∀ i, t.fifoAt i = ⟨false, 0, 0, 0, 0, false, 0⟩)
      ∧ t.lo = 0 ∧ t.hi = 0 ∧ t.armed = false ∧ t.ts = 0xFFFFFFFFFFFFFFFF ∧ t.cb = 0
      ∧ t.fault = none ∧ t.ev = [] ∧ t.mem = s.mem
      ∧ t.agent[FG] = ⟨.running, 0, none, none, none, none⟩
      ∧ (∀ a : AgentId, a ≠ FG → t.agent[a] = ⟨.halted, 0, none, none, none, none⟩)
      ∧ t.cfg = s.cfg ∧ t.prog = s.prog ∧ t.moves = ms
      ∧ (∀ c p l y, memGet (State.powerOn c p l).mem y = none)
      ∧ (∀ a : AgentId, a ≠ FG → s.cfg.hasAgent a = true → t.triggerEnabled a = true)

/-- With no move scripted, the free choice takes a move that is enabled, and no TRIGGER where the host triggers no more
agents, whatever the free value is: the step is never refused
    (R49, R54, R55). In a state where a run ends well the only
step left is RESET (R58): no agent steps and none is triggered again. The script, the free choice and
    `hostDone` are the
model's own form of the choices R49 and R54 leave open (assumption 1). -/
def Obligations.FreeChoiceIsEnabled : Prop :=
  ∀ (s : State), s.cfg.legal = true →
    (s.moves = [] →
      (∃ m, s.enabled m = true ∧ (s.hostDone = true → ∀ a, m ≠ .trigger a)
        ∧ step s = performMove m { s with choiceNo := s.choiceNo + 1 })
      ∧ ∀ r, step s ≠ .refused r)
    ∧ (s.endsWell → ∀ t, step s = .next t →
      t = { s with moves := s.moves.tail, choiceNo := t.choiceNo }.hostReset)

/-- A step of an agent that may step is never refused, whatever its operation; a configuration that R17 refuses has no
step, and R17's conditions are these; and an agent that PREEMPT lets step FREE lets step
    (R17, R49; the spec derives the
last at R70). -/
def Obligations.AgentStepsAreNeverRefused : Prop :=
  ∀ (s : State),
    (∀ a ms r, s.cfg.legal = true → s.moves = .agent a :: ms → s.mayStep a = true → step s ≠ .refused r)
    ∧ (s.cfg.legal = false → step s = .refused .illegalConfig)
    ∧ (∀ c : Config, c.legal = true ↔
      (1 ≤ c.nfifo ∧ c.nfifo ≤ 16) ∧ c.nirq ≤ 14
      ∧ (∀ i : InstId, i.val < c.nfifo →
        (c.esize[i] = 1 ∨ c.esize[i] = 2 ∨ c.esize[i] = 4)
        ∧ (c.prod[i] = TMR ∨ ∃ k, k < c.nirq ∧ c.prod[i].val = k + 2) ∧ c.cons[i] = FG)
      ∧ (c.alarmEn = true → c.tick64 = true))
    ∧ (∀ a, s.mayStep a = true → { s with cfg := { s.cfg with sched := .free } }.mayStep a = true)

/-- Parameters and programs are fixed for the whole run: no step writes them (R22, R45, R76), nor the model's own field
`hostDone` (assumption 1). -/
def Obligations.ParametersAreFixed : Prop :=
  ∀ (s t : State), step s = .next t → t.cfg = s.cfg ∧ t.prog = s.prog ∧ t.hostDone = s.hostDone

/-- EV only grows, by one entry at most, in every step but RESET, which empties it (R37, R152). -/
def Obligations.EventHistoryOnlyGrows : Prop :=
  ∀ (s t : State) (m : Move) (ms : List Move), s.moves = m :: ms → step s = .next t →
    (m ≠ .reset → t.ev = s.ev ∨ ∃ e, t.ev = s.ev ++ [e]) ∧ (m = .reset → t.ev = [])

/-- A placed word is what the very next step runs: an agent that may issue it, at its APC, with no context. -/
def Obligations.PlacedWordRunsNext : Prop :=
  ∀ (s : State) (w : Nat) (i : Instr), s.cfg.legal = true → w < 2 ^ 64 →
    decode s.cfg (BitVec.ofNat 64 w) = .ok i →
    ∃ u, step (s.withFetchWord 64 w) = exec i u
      ∧ u.fetchWord? = some (BitVec.ofNat 64 w) ∧ u.me.ctx = none
      ∧ (roleOf i).allows u.cfg u.actor = true

/-! ### Invariants -/

/-- The invariant holds after reset, in every legal configuration, with any programs and any script (R152, R153). -/
def Obligations.InvariantHoldsAtReset : Prop :=
  State.reset.Inv ∧ ∀ c p ms, c.legal = true → (State.powerOn c p ms).Inv

/-- Every step keeps the invariant: canonical memory, storage as `fifo.init` demands and disjoint, unbound
instances at reset values, a clear disarmed alarm, absent parts untouched, and every context that of a legal
operation in flight (R23, R34, R44, R62, R63, R66, R140). -/
def Obligations.StepKeepsInvariant : Prop :=
  ∀ (s t : State), s.Inv → step s = .next t → t.Inv

/-- The canonical form of memory is kept by every step from any state whatever. -/
def Obligations.StepKeepsMemoryCanonical : Prop :=
  ∀ (s t : State), s.memOk → step s = .next t → t.memOk

/-- The model's own faults are unreachable: from a state with the invariant no step stops with one, so every
contract breach shows as the spec's own fault record (R51, R62, R123). -/
def Obligations.NoStepStopsUnderInvariant : Prop :=
  ∀ (s : State), s.Inv → ∀ f, step s ≠ .fault f

/-- One writer for each index (R98, R140): a step of agent `a` that changes WR(i) of a bound instance is the producer's,
and one that changes RD(i) is the consumer's or, by `fifo.drop`, the producer's. -/
def Obligations.OnlyTheRolesMoveTheIndices : Prop :=
  ∀ (s t : State) (a : AgentId) (ms : List Move) (i : InstId), s.Inv → s.moves = .agent a :: ms →
    step s = .next t → (s.fifoAt i).bound = true →
    ((t.fifoAt i).wr ≠ (s.fifoAt i).wr → a = s.cfg.prod[i])
    ∧ ((t.fifoAt i).rd ≠ (s.fifoAt i).rd → a = s.cfg.cons[i] ∨ a = s.cfg.prod[i])

/-- TMR alone writes the clock (R30, R31, R141): a step of any other agent leaves LO and HI. -/
def Obligations.OnlyTimerWritesTheClock : Prop :=
  ∀ (s t : State) (a : AgentId) (ms : List Move), s.Inv → s.moves = .agent a :: ms → step s = .next t →
    a ≠ TMR → t.lo = s.lo ∧ t.hi = s.hi
end

