-- ==== Sys2Proof/Laws/State.lean ====
section
/-! SUPPORT. What each update of the state writes and what it leaves: one lemma per field per update, and
the normal form in which the acting agent's record is written last. -/

namespace Sys2Proof.Machine

/-! ### One lemma per field per update -/

section SetAgentFields
variable (s : State) (a : AgentId) (x : Agent)

@[simp] theorem State.setAgent_fifo : (s.setAgent a x).fifo = s.fifo := rfl
@[simp] theorem State.setAgent_lo : (s.setAgent a x).lo = s.lo := rfl
@[simp] theorem State.setAgent_hi : (s.setAgent a x).hi = s.hi := rfl
@[simp] theorem State.setAgent_armed : (s.setAgent a x).armed = s.armed := rfl
@[simp] theorem State.setAgent_ts : (s.setAgent a x).ts = s.ts := rfl
@[simp] theorem State.setAgent_cb : (s.setAgent a x).cb = s.cb := rfl
@[simp] theorem State.setAgent_fault : (s.setAgent a x).fault = s.fault := rfl
@[simp] theorem State.setAgent_ev : (s.setAgent a x).ev = s.ev := rfl
@[simp] theorem State.setAgent_mem : (s.setAgent a x).mem = s.mem := rfl
@[simp] theorem State.setAgent_agent : (s.setAgent a x).agent = s.agent.set a x := rfl
@[simp] theorem State.setAgent_cfg : (s.setAgent a x).cfg = s.cfg := rfl
@[simp] theorem State.setAgent_prog : (s.setAgent a x).prog = s.prog := rfl
@[simp] theorem State.setAgent_moves : (s.setAgent a x).moves = s.moves := rfl
@[simp] theorem State.setAgent_actor : (s.setAgent a x).actor = s.actor := rfl
@[simp] theorem State.setAgent_choiceNo : (s.setAgent a x).choiceNo = s.choiceNo := rfl
@[simp] theorem State.setAgent_hostDone : (s.setAgent a x).hostDone = s.hostDone := rfl

end SetAgentFields

section SetMeFields
variable (s : State) (x : Agent)

@[simp] theorem State.setMe_fifo : (s.setMe x).fifo = s.fifo := rfl
@[simp] theorem State.setMe_lo : (s.setMe x).lo = s.lo := rfl
@[simp] theorem State.setMe_hi : (s.setMe x).hi = s.hi := rfl
@[simp] theorem State.setMe_armed : (s.setMe x).armed = s.armed := rfl
@[simp] theorem State.setMe_ts : (s.setMe x).ts = s.ts := rfl
@[simp] theorem State.setMe_cb : (s.setMe x).cb = s.cb := rfl
@[simp] theorem State.setMe_fault : (s.setMe x).fault = s.fault := rfl
@[simp] theorem State.setMe_ev : (s.setMe x).ev = s.ev := rfl
@[simp] theorem State.setMe_mem : (s.setMe x).mem = s.mem := rfl
@[simp] theorem State.setMe_agent : (s.setMe x).agent = s.agent.set s.actor x := rfl
@[simp] theorem State.setMe_cfg : (s.setMe x).cfg = s.cfg := rfl
@[simp] theorem State.setMe_prog : (s.setMe x).prog = s.prog := rfl
@[simp] theorem State.setMe_moves : (s.setMe x).moves = s.moves := rfl
@[simp] theorem State.setMe_actor : (s.setMe x).actor = s.actor := rfl
@[simp] theorem State.setMe_choiceNo : (s.setMe x).choiceNo = s.choiceNo := rfl
@[simp] theorem State.setMe_hostDone : (s.setMe x).hostDone = s.hostDone := rfl

end SetMeFields

section SetFifoFields
variable (s : State) (i : InstId) (f : Fifo)

@[simp] theorem State.setFifo_fifo : (s.setFifo i f).fifo = s.fifo.set i f := rfl
@[simp] theorem State.setFifo_lo : (s.setFifo i f).lo = s.lo := rfl
@[simp] theorem State.setFifo_hi : (s.setFifo i f).hi = s.hi := rfl
@[simp] theorem State.setFifo_armed : (s.setFifo i f).armed = s.armed := rfl
@[simp] theorem State.setFifo_ts : (s.setFifo i f).ts = s.ts := rfl
@[simp] theorem State.setFifo_cb : (s.setFifo i f).cb = s.cb := rfl
@[simp] theorem State.setFifo_fault : (s.setFifo i f).fault = s.fault := rfl
@[simp] theorem State.setFifo_ev : (s.setFifo i f).ev = s.ev := rfl
@[simp] theorem State.setFifo_mem : (s.setFifo i f).mem = s.mem := rfl
@[simp] theorem State.setFifo_agent : (s.setFifo i f).agent = s.agent := rfl
@[simp] theorem State.setFifo_cfg : (s.setFifo i f).cfg = s.cfg := rfl
@[simp] theorem State.setFifo_prog : (s.setFifo i f).prog = s.prog := rfl
@[simp] theorem State.setFifo_moves : (s.setFifo i f).moves = s.moves := rfl
@[simp] theorem State.setFifo_actor : (s.setFifo i f).actor = s.actor := rfl
@[simp] theorem State.setFifo_choiceNo : (s.setFifo i f).choiceNo = s.choiceNo := rfl
@[simp] theorem State.setFifo_hostDone : (s.setFifo i f).hostDone = s.hostDone := rfl

end SetFifoFields

section SetLoFields
variable (s : State) (v : Word)

@[simp] theorem State.setLo_fifo : (s.setLo v).fifo = s.fifo := rfl
@[simp] theorem State.setLo_lo : (s.setLo v).lo = v := rfl
@[simp] theorem State.setLo_hi : (s.setLo v).hi = s.hi := rfl
@[simp] theorem State.setLo_armed : (s.setLo v).armed = s.armed := rfl
@[simp] theorem State.setLo_ts : (s.setLo v).ts = s.ts := rfl
@[simp] theorem State.setLo_cb : (s.setLo v).cb = s.cb := rfl
@[simp] theorem State.setLo_fault : (s.setLo v).fault = s.fault := rfl
@[simp] theorem State.setLo_ev : (s.setLo v).ev = s.ev := rfl
@[simp] theorem State.setLo_mem : (s.setLo v).mem = s.mem := rfl
@[simp] theorem State.setLo_agent : (s.setLo v).agent = s.agent := rfl
@[simp] theorem State.setLo_cfg : (s.setLo v).cfg = s.cfg := rfl
@[simp] theorem State.setLo_prog : (s.setLo v).prog = s.prog := rfl
@[simp] theorem State.setLo_moves : (s.setLo v).moves = s.moves := rfl
@[simp] theorem State.setLo_actor : (s.setLo v).actor = s.actor := rfl
@[simp] theorem State.setLo_choiceNo : (s.setLo v).choiceNo = s.choiceNo := rfl
@[simp] theorem State.setLo_hostDone : (s.setLo v).hostDone = s.hostDone := rfl

end SetLoFields

section SetHiFields
variable (s : State) (v : Word)

@[simp] theorem State.setHi_fifo : (s.setHi v).fifo = s.fifo := rfl
@[simp] theorem State.setHi_lo : (s.setHi v).lo = s.lo := rfl
@[simp] theorem State.setHi_hi : (s.setHi v).hi = v := rfl
@[simp] theorem State.setHi_armed : (s.setHi v).armed = s.armed := rfl
@[simp] theorem State.setHi_ts : (s.setHi v).ts = s.ts := rfl
@[simp] theorem State.setHi_cb : (s.setHi v).cb = s.cb := rfl
@[simp] theorem State.setHi_fault : (s.setHi v).fault = s.fault := rfl
@[simp] theorem State.setHi_ev : (s.setHi v).ev = s.ev := rfl
@[simp] theorem State.setHi_mem : (s.setHi v).mem = s.mem := rfl
@[simp] theorem State.setHi_agent : (s.setHi v).agent = s.agent := rfl
@[simp] theorem State.setHi_cfg : (s.setHi v).cfg = s.cfg := rfl
@[simp] theorem State.setHi_prog : (s.setHi v).prog = s.prog := rfl
@[simp] theorem State.setHi_moves : (s.setHi v).moves = s.moves := rfl
@[simp] theorem State.setHi_actor : (s.setHi v).actor = s.actor := rfl
@[simp] theorem State.setHi_choiceNo : (s.setHi v).choiceNo = s.choiceNo := rfl
@[simp] theorem State.setHi_hostDone : (s.setHi v).hostDone = s.hostDone := rfl

end SetHiFields

section SetAlarmFields
variable (s : State) (b : Bool) (t : DWord) (c : Word)

@[simp] theorem State.setAlarm_fifo : (s.setAlarm b t c).fifo = s.fifo := rfl
@[simp] theorem State.setAlarm_lo : (s.setAlarm b t c).lo = s.lo := rfl
@[simp] theorem State.setAlarm_hi : (s.setAlarm b t c).hi = s.hi := rfl
@[simp] theorem State.setAlarm_armed : (s.setAlarm b t c).armed = b := rfl
@[simp] theorem State.setAlarm_ts : (s.setAlarm b t c).ts = t := rfl
@[simp] theorem State.setAlarm_cb : (s.setAlarm b t c).cb = c := rfl
@[simp] theorem State.setAlarm_fault : (s.setAlarm b t c).fault = s.fault := rfl
@[simp] theorem State.setAlarm_ev : (s.setAlarm b t c).ev = s.ev := rfl
@[simp] theorem State.setAlarm_mem : (s.setAlarm b t c).mem = s.mem := rfl
@[simp] theorem State.setAlarm_agent : (s.setAlarm b t c).agent = s.agent := rfl
@[simp] theorem State.setAlarm_cfg : (s.setAlarm b t c).cfg = s.cfg := rfl
@[simp] theorem State.setAlarm_prog : (s.setAlarm b t c).prog = s.prog := rfl
@[simp] theorem State.setAlarm_moves : (s.setAlarm b t c).moves = s.moves := rfl
@[simp] theorem State.setAlarm_actor : (s.setAlarm b t c).actor = s.actor := rfl
@[simp] theorem State.setAlarm_choiceNo : (s.setAlarm b t c).choiceNo = s.choiceNo := rfl
@[simp] theorem State.setAlarm_hostDone : (s.setAlarm b t c).hostDone = s.hostDone := rfl

end SetAlarmFields

section SetMemFields
variable (s : State) (m : List Host.Cell)

@[simp] theorem State.setMem_fifo : (s.setMem m).fifo = s.fifo := rfl
@[simp] theorem State.setMem_lo : (s.setMem m).lo = s.lo := rfl
@[simp] theorem State.setMem_hi : (s.setMem m).hi = s.hi := rfl
@[simp] theorem State.setMem_armed : (s.setMem m).armed = s.armed := rfl
@[simp] theorem State.setMem_ts : (s.setMem m).ts = s.ts := rfl
@[simp] theorem State.setMem_cb : (s.setMem m).cb = s.cb := rfl
@[simp] theorem State.setMem_fault : (s.setMem m).fault = s.fault := rfl
@[simp] theorem State.setMem_ev : (s.setMem m).ev = s.ev := rfl
@[simp] theorem State.setMem_mem : (s.setMem m).mem = m := rfl
@[simp] theorem State.setMem_agent : (s.setMem m).agent = s.agent := rfl
@[simp] theorem State.setMem_cfg : (s.setMem m).cfg = s.cfg := rfl
@[simp] theorem State.setMem_prog : (s.setMem m).prog = s.prog := rfl
@[simp] theorem State.setMem_moves : (s.setMem m).moves = s.moves := rfl
@[simp] theorem State.setMem_actor : (s.setMem m).actor = s.actor := rfl
@[simp] theorem State.setMem_choiceNo : (s.setMem m).choiceNo = s.choiceNo := rfl
@[simp] theorem State.setMem_hostDone : (s.setMem m).hostDone = s.hostDone := rfl

end SetMemFields

section EmitFields
variable (s : State) (e : Event)

@[simp] theorem State.emit_fifo : (s.emit e).fifo = s.fifo := rfl
@[simp] theorem State.emit_lo : (s.emit e).lo = s.lo := rfl
@[simp] theorem State.emit_hi : (s.emit e).hi = s.hi := rfl
@[simp] theorem State.emit_armed : (s.emit e).armed = s.armed := rfl
@[simp] theorem State.emit_ts : (s.emit e).ts = s.ts := rfl
@[simp] theorem State.emit_cb : (s.emit e).cb = s.cb := rfl
@[simp] theorem State.emit_fault : (s.emit e).fault = s.fault := rfl
@[simp] theorem State.emit_ev : (s.emit e).ev = s.ev ++ [e] := rfl
@[simp] theorem State.emit_mem : (s.emit e).mem = s.mem := rfl
@[simp] theorem State.emit_agent : (s.emit e).agent = s.agent := rfl
@[simp] theorem State.emit_cfg : (s.emit e).cfg = s.cfg := rfl
@[simp] theorem State.emit_prog : (s.emit e).prog = s.prog := rfl
@[simp] theorem State.emit_moves : (s.emit e).moves = s.moves := rfl
@[simp] theorem State.emit_actor : (s.emit e).actor = s.actor := rfl
@[simp] theorem State.emit_choiceNo : (s.emit e).choiceNo = s.choiceNo := rfl
@[simp] theorem State.emit_hostDone : (s.emit e).hostDone = s.hostDone := rfl

end EmitFields

section SetActorFields
variable (s : State) (a : AgentId)

@[simp] theorem State.setActor_fifo : (s.setActor a).fifo = s.fifo := rfl
@[simp] theorem State.setActor_lo : (s.setActor a).lo = s.lo := rfl
@[simp] theorem State.setActor_hi : (s.setActor a).hi = s.hi := rfl
@[simp] theorem State.setActor_armed : (s.setActor a).armed = s.armed := rfl
@[simp] theorem State.setActor_ts : (s.setActor a).ts = s.ts := rfl
@[simp] theorem State.setActor_cb : (s.setActor a).cb = s.cb := rfl
@[simp] theorem State.setActor_fault : (s.setActor a).fault = s.fault := rfl
@[simp] theorem State.setActor_ev : (s.setActor a).ev = s.ev := rfl
@[simp] theorem State.setActor_mem : (s.setActor a).mem = s.mem := rfl
@[simp] theorem State.setActor_agent : (s.setActor a).agent = s.agent := rfl
@[simp] theorem State.setActor_cfg : (s.setActor a).cfg = s.cfg := rfl
@[simp] theorem State.setActor_prog : (s.setActor a).prog = s.prog := rfl
@[simp] theorem State.setActor_moves : (s.setActor a).moves = s.moves := rfl
@[simp] theorem State.setActor_actor : (s.setActor a).actor = a := rfl
@[simp] theorem State.setActor_choiceNo : (s.setActor a).choiceNo = s.choiceNo := rfl
@[simp] theorem State.setActor_hostDone : (s.setActor a).hostDone = s.hostDone := rfl

end SetActorFields

section RaiseFields
variable (s : State) (f : FCode)

@[simp] theorem State.raise_fifo : (s.raise f).fifo = s.fifo := rfl
@[simp] theorem State.raise_lo : (s.raise f).lo = s.lo := rfl
@[simp] theorem State.raise_hi : (s.raise f).hi = s.hi := rfl
@[simp] theorem State.raise_armed : (s.raise f).armed = s.armed := rfl
@[simp] theorem State.raise_ts : (s.raise f).ts = s.ts := rfl
@[simp] theorem State.raise_cb : (s.raise f).cb = s.cb := rfl
@[simp] theorem State.raise_fault : (s.raise f).fault = some (s.faultRecord f) := rfl
@[simp] theorem State.raise_ev : (s.raise f).ev = s.ev := rfl
@[simp] theorem State.raise_mem : (s.raise f).mem = s.mem := rfl
@[simp] theorem State.raise_agent : (s.raise f).agent = s.agent.set s.actor { s.me with ctx := none } := rfl
@[simp] theorem State.raise_cfg : (s.raise f).cfg = s.cfg := rfl
@[simp] theorem State.raise_prog : (s.raise f).prog = s.prog := rfl
@[simp] theorem State.raise_moves : (s.raise f).moves = s.moves := rfl
@[simp] theorem State.raise_actor : (s.raise f).actor = s.actor := rfl
@[simp] theorem State.raise_choiceNo : (s.raise f).choiceNo = s.choiceNo := rfl
@[simp] theorem State.raise_hostDone : (s.raise f).hostDone = s.hostDone := rfl

end RaiseFields

/-! ### Reading back the acting agent and the instances -/

section ReadBack
variable (s : State)

@[simp] theorem State.me_setMe (x : Agent) : (s.setMe x).me = x := by
  simp [State.me, State.setMe, State.setAgent]

theorem State.agent_setMe_other (x : Agent) {b : AgentId} (h : b ≠ s.actor) :
    (s.setMe x).agent[b] = s.agent[b] := by
  simp only [State.setMe_agent]
  grind

theorem State.agent_setMe_self (x : Agent) : (s.setMe x).agent[s.actor] = x := by
  simp

@[simp] theorem State.setMe_setMe (x y : Agent) : (s.setMe x).setMe y = s.setMe y := by
  simp [State.setMe, State.setAgent]

@[simp] theorem State.setMe_me : s.setMe s.me = s := by
  simp [State.setMe, State.setAgent, State.me]

@[simp] theorem State.me_setFifo (i : InstId) (f : Fifo) : (s.setFifo i f).me = s.me := rfl
@[simp] theorem State.me_setLo (v : Word) : (s.setLo v).me = s.me := rfl
@[simp] theorem State.me_setHi (v : Word) : (s.setHi v).me = s.me := rfl
@[simp] theorem State.me_setAlarm (b : Bool) (t : DWord) (c : Word) : (s.setAlarm b t c).me = s.me := rfl
@[simp] theorem State.me_setMem (m : List Host.Cell) : (s.setMem m).me = s.me := rfl
@[simp] theorem State.me_emit (e : Event) : (s.emit e).me = s.me := rfl
@[simp] theorem State.me_setActor (a : AgentId) : (s.setActor a).me = s.agent[a] := rfl

@[simp] theorem State.fifoAt_setFifo (i : InstId) (f : Fifo) : (s.setFifo i f).fifoAt i = f := by
  simp [State.fifoAt]

theorem State.fifoAt_setFifo_other {i j : InstId} (h : j ≠ i) (f : Fifo) :
    (s.setFifo i f).fifoAt j = s.fifoAt j := by
  simp only [State.fifoAt, State.setFifo_fifo]
  grind

@[simp] theorem State.fifoAt_setMe (x : Agent) (i : InstId) : (s.setMe x).fifoAt i = s.fifoAt i := rfl
@[simp] theorem State.fifoAt_setLo (v : Word) (i : InstId) : (s.setLo v).fifoAt i = s.fifoAt i := rfl
@[simp] theorem State.fifoAt_setHi (v : Word) (i : InstId) : (s.setHi v).fifoAt i = s.fifoAt i := rfl
@[simp] theorem State.fifoAt_setAlarm (b : Bool) (t : DWord) (c : Word) (i : InstId) :
    (s.setAlarm b t c).fifoAt i = s.fifoAt i := rfl
@[simp] theorem State.fifoAt_setMem (m : List Host.Cell) (i : InstId) :
    (s.setMem m).fifoAt i = s.fifoAt i := rfl
@[simp] theorem State.fifoAt_emit (e : Event) (i : InstId) : (s.emit e).fifoAt i = s.fifoAt i := rfl
@[simp] theorem State.fifoAt_setActor (a : AgentId) (i : InstId) :
    (s.setActor a).fifoAt i = s.fifoAt i := rfl
@[simp] theorem State.fifoAt_raise (f : FCode) (i : InstId) : (s.raise f).fifoAt i = s.fifoAt i := rfl

/-! ### The acting agent's record is written last -/

@[simp] theorem State.setFifo_setMe (x : Agent) (i : InstId) (f : Fifo) :
    (s.setMe x).setFifo i f = (s.setFifo i f).setMe x := rfl
@[simp] theorem State.setLo_setMe (x : Agent) (v : Word) :
    (s.setMe x).setLo v = (s.setLo v).setMe x := rfl
@[simp] theorem State.setHi_setMe (x : Agent) (v : Word) :
    (s.setMe x).setHi v = (s.setHi v).setMe x := rfl
@[simp] theorem State.setAlarm_setMe (x : Agent) (b : Bool) (t : DWord) (c : Word) :
    (s.setMe x).setAlarm b t c = (s.setAlarm b t c).setMe x := rfl
@[simp] theorem State.setMem_setMe (x : Agent) (m : List Host.Cell) :
    (s.setMe x).setMem m = (s.setMem m).setMe x := rfl
@[simp] theorem State.emit_setMe (x : Agent) (e : Event) :
    (s.setMe x).emit e = (s.emit e).setMe x := rfl

/-! ### The derived updates, in that normal form -/

@[simp] theorem State.setA_eq (v : DWord) : s.setA v = s.setMe { s.me with a := some v } := rfl
@[simp] theorem State.setRes_eq (v : DWord) : s.setRes v = s.setMe { s.me with res := some v } := rfl
@[simp] theorem State.setP_eq (b : Bool) : s.setP b = s.setMe { s.me with p := some b } := rfl
@[simp] theorem State.completeAt_eq (n : Int) :
    s.completeAt n = s.setMe { s.me with ctx := none, apc := n } := rfl
@[simp] theorem State.complete_eq :
    s.complete = s.setMe { s.me with ctx := none, apc := s.me.apc + 1 } := rfl
@[simp] theorem State.goto_eq (k : Nat) (loc : Locals) :
    s.goto k loc = s.setMe { s.me with ctx := s.me.ctx.map fun c => { c with k := k, loc := loc } } := rfl
@[simp] theorem State.enter_eq (loc : Locals) :
    s.enter loc = s.setMe { s.me with ctx := some ⟨s.progWord, 1, loc⟩ } := rfl
@[simp] theorem State.elemWrite_eq (i : InstId) (idx v : Word) :
    s.elemWrite i idx v = s.setMem (memWrite s.mem (s.slotAddr i idx) (s.esizeAt i) v.toNat) := rfl

@[simp] theorem State.setOutcome_eq (b : Bool) :
    s.setOutcome b = s.setMe { s.me with res := some (bool64 b), p := some b } := by
  simp [State.setOutcome]

@[simp] theorem State.setPresent_eq (v : Word) :
    s.setPresent v = s.setMe { s.me with res := some (zext64 v), p := some true } := by
  simp [State.setPresent]

@[simp] theorem State.setAbsent_eq :
    s.setAbsent = s.setMe { s.me with res := some 0, p := some false } := by
  simp [State.setAbsent]

@[simp] theorem State.setStatus_eq (v : DWord) :
    s.setStatus v = s.setMe { s.me with res := some v, p := some (v == 0) } := by
  simp [State.setStatus]

/-! ### What an agent's record does not touch -/

@[simp] theorem State.fetchWord?_setMe (x : Agent) :
    (s.setMe x).fetchWord? = if x.apc < 0 then none else s.prog[s.actor][x.apc.toNat]? := by
  simp [State.fetchWord?]

@[simp] theorem State.count_setMe (x : Agent) (i : InstId) : (s.setMe x).count i = s.count i := rfl
@[simp] theorem State.slotAddr_setMe (x : Agent) (i : InstId) (idx : Word) :
    (s.setMe x).slotAddr i idx = s.slotAddr i idx := rfl
@[simp] theorem State.slotInSpace_setMe (x : Agent) (i : InstId) (idx : Word) :
    (s.setMe x).slotInSpace i idx = s.slotInSpace i idx := rfl
@[simp] theorem State.esizeAt_setMe (x : Agent) (i : InstId) : (s.setMe x).esizeAt i = s.esizeAt i := rfl
@[simp] theorem State.elemRead_setMe (x : Agent) (i : InstId) (idx : Word) :
    (s.setMe x).elemRead i idx = s.elemRead i idx := rfl
@[simp] theorem State.nowval_setMe (x : Agent) : (s.setMe x).nowval = s.nowval := rfl
@[simp] theorem State.carries_setMe (x : Agent) : (s.setMe x).carries = s.carries := rfl
@[simp] theorem State.alarmDue_setMe (x : Agent) : (s.setMe x).alarmDue = s.alarmDue := rfl
@[simp] theorem State.alarmStatus_setMe (x : Agent) (t : DWord) :
    (s.setMe x).alarmStatus t = s.alarmStatus t := rfl
@[simp] theorem State.boundOk_setMe (x : Agent) (i : Instr) : (s.setMe x).boundOk i = s.boundOk i := rfl

end ReadBack

end Sys2Proof.Machine
end

