-- ==== Sys2Proof/Laws/Memory.lean ====
section
/-! SUPPORT. Data memory: a byte reads back what was written, every other byte is left, and the canonical
form is kept. -/

namespace Sys2Proof.Machine

theorem memGet_memSet (m : List Host.Cell) (x : Nat) (b : Byte) (y : Nat) :
    memGet (memSet m x b) y = if y = x then some b else memGet m y := by
  induction m with
  | nil => simp [memSet, memGet, eq_comm]
  | cons hd tl ih =>
    obtain ⟨a, c⟩ := hd
    simp only [memSet]
    split
    · simp [memGet, eq_comm]
    · split
      · simp only [memGet]; grind
      · simp only [memGet, ih]; grind

/-- Everything `MemWrite` can do to a byte: one of its `n` bytes, or the old one. -/
theorem memGet_memWrite (n : Nat) (m : List Host.Cell) (addr v y : Nat) :
    memGet (memWrite m addr n v) y
      = if addr ≤ y ∧ y < addr + n then some (BitVec.ofNat 8 (v / 2 ^ (8 * (y - addr)))) else memGet m y := by
  induction n generalizing m addr v with
  | zero => rw [if_neg (by omega)]; rfl
  | succ n ih =>
    simp only [memWrite, ih, memGet_memSet]
    by_cases h : y = addr
    · subst h
      simp
    · have hv : ¬ (y = addr) := h
      simp only [hv, if_false]
      by_cases hr : addr + 1 ≤ y ∧ y < addr + 1 + n
      · rw [if_pos hr, if_pos (by omega)]
        have e : 8 * (y - addr) = 8 + 8 * (y - (addr + 1)) := by omega
        rw [e, Nat.pow_add, Nat.div_div_eq_div_mul]
      · rw [if_neg hr, if_neg (by omega)]

theorem memGet_memWrite_outside {n addr y : Nat} (m : List Host.Cell) (v : Nat)
    (h : y < addr ∨ addr + n ≤ y) : memGet (memWrite m addr n v) y = memGet m y := by
  rw [memGet_memWrite, if_neg (by omega)]

/-- `MemRead` looks at its own bytes only. -/
theorem memRead_congr {m m' : List Host.Cell} (n addr : Nat)
    (h : ∀ y, addr ≤ y → y < addr + n → memGet m y = memGet m' y) :
    memRead m addr n = memRead m' addr n := by
  induction n generalizing addr with
  | zero => rfl
  | succ n ih =>
    simp only [memRead]
    rw [h addr (by omega) (by omega), ih (addr + 1) fun y h1 h2 => h y (by omega) (by omega)]

/-- A read elsewhere sees what it saw before the write. -/
theorem memRead_memWrite_apart (m : List Host.Cell) {a n b k v : Nat} (h : b + k ≤ a ∨ a + n ≤ b) :
    memRead (memWrite m a n v) b k = memRead m b k :=
  memRead_congr k b fun y _ _ => memGet_memWrite_outside m v (by omega)

/-- A read of the bytes just written gives the value, cut to their number. -/
theorem memRead_memWrite_same (n : Nat) (m : List Host.Cell) (a v : Nat) :
    memRead (memWrite m a n v) a n = some (v % 2 ^ (8 * n)) := by
  induction n generalizing m a v with
  | zero => simp [memRead, Nat.mod_one]
  | succ n ih =>
    have hb : memGet (memWrite m a (n + 1) v) a = some (BitVec.ofNat 8 v) := by
      rw [memGet_memWrite, if_pos (by omega)]
      simp
    simp only [memRead, hb]
    simp only [memWrite, ih]
    have e : 8 * (n + 1) = 8 + 8 * n := by omega
    rw [e, Nat.pow_add, Nat.mod_mul]
    simp

/-! ### The canonical form -/

theorem memSet_addr {m : List Host.Cell} {x : Nat} {b : Byte} {z : Host.Cell}
    (h : z ∈ memSet m x b) : z.1 = x ∨ z ∈ m := by
  induction m with
  | nil => simp_all [memSet]
  | cons hd tl ih =>
    obtain ⟨a, c⟩ := hd
    simp only [memSet] at h
    grind

theorem memSet_rising {m : List Host.Cell} (x : Nat) (b : Byte)
    (h : m.Pairwise fun x y => x.1 < y.1) : (memSet m x b).Pairwise fun x y => x.1 < y.1 := by
  induction m with
  | nil => simp [memSet]
  | cons hd tl ih =>
    obtain ⟨a, c⟩ := hd
    obtain ⟨h1, h2⟩ := List.pairwise_cons.mp h
    simp only [memSet]
    split
    · rename_i hlt
      refine List.pairwise_cons.mpr ⟨fun z hz => ?_, h⟩
      rcases List.mem_cons.mp hz with rfl | hz
      · exact hlt
      · exact Nat.lt_trans hlt (h1 z hz)
    · split
      · rename_i _ heq
        subst heq
        exact List.pairwise_cons.mpr ⟨h1, h2⟩
      · refine List.pairwise_cons.mpr ⟨fun z hz => ?_, ih h2⟩
        rcases memSet_addr hz with hz | hz
        · rw [hz]; simp only; omega
        · exact h1 z hz

theorem memSet_wf {m : List Host.Cell} {x : Nat} (b : Byte) (hx : x < Config.dataSpace)
    (h : Memory.wf m = true) : Memory.wf (memSet m x b) = true := by
  simp only [Memory.wf, Bool.and_eq_true, decide_eq_true_eq, List.all_eq_true] at h ⊢
  refine ⟨memSet_rising x b h.1, fun z hz => ?_⟩
  rcases memSet_addr hz with hz | hz
  · omega
  · exact h.2 z hz

/-- A store inside the data space keeps the canonical form. -/
theorem memWrite_wf {n : Nat} {m : List Host.Cell} {a : Nat} (v : Nat)
    (ha : a + n ≤ Config.dataSpace) (h : Memory.wf m = true) : Memory.wf (memWrite m a n v) = true := by
  induction n generalizing m a v with
  | zero => exact h
  | succ n ih =>
    simp only [memWrite]
    exact ih _ (by omega) (memSet_wf _ (by omega) h)

/-- A push that is not stopped stores inside the data space, and keeps the canonical form. -/
theorem State.elemWrite_memOk {s : State} {i : InstId} {idx : Word} (v : Word)
    (hs : s.slotInSpace i idx = true) (h : s.memOk) : (s.elemWrite i idx v).memOk := by
  simp only [State.slotInSpace, decide_eq_true_eq] at hs
  exact memWrite_wf _ hs h

theorem reset_mem_wf : Memory.wf State.reset.mem = true := by decide

end Sys2Proof.Machine
end

