-- ==== Sys2Proof/Laws/Ops.lean ====
section
/-! SUPPORT. One specification lemma for each shared operation: issuing and continuing an operation, raising a
fault, the comparator, the slots of a bound instance. The provers cite these instead of unfolding. -/

namespace Sys2Proof.Machine

/-! ### perform: issue, continue, and everything it can answer -/

section Perform
variable {i : Instr} {capture : State → Option Locals} {micro : Nat → Locals → State → Result}
variable {s t : State}

theorem perform_continues {c : Ctx} (h : s.me.ctx = some c) :
    perform i capture micro s = micro c.k c.loc s := by
  simp [perform, h]

theorem perform_inside {k : Nat} {loc : Locals} (h : s.inside k loc) :
    perform i capture micro s = micro k loc s := by
  obtain ⟨w, h⟩ := h
  exact perform_continues h

theorem perform_issues {loc : Locals} (h : s.issues i) (hc : capture s = some loc) :
    perform i capture micro s = micro 1 loc (s.enter loc) := by
  obtain ⟨h1, h2, h3⟩ := h
  simp [perform, h1, h2, h3, hc]

theorem perform_raises_role (h : s.me.ctx = none) (hr : (roleOf i).allows s.cfg s.actor = false) :
    perform i capture micro s = .next (s.raise .role) := by
  simp [perform, h, hr]

theorem perform_raises_unbound (h : s.me.ctx = none) (hr : (roleOf i).allows s.cfg s.actor = true)
    (hb : s.boundOk i = false) : perform i capture micro s = .next (s.raise .unbound) := by
  simp [perform, h, hr, hb]

theorem perform_raises_unwritten (h : s.issues i) (hc : capture s = none) :
    perform i capture micro s = .next (s.raise .unwrittenReg) := by
  obtain ⟨h1, h2, h3⟩ := h
  simp [perform, h1, h2, h3, hc]

/-- Everything `perform` can answer: a raise at issue, a continued μk, or μ1 after the checks. -/
theorem perform_cases (i : Instr) (capture : State → Option Locals)
    (micro : Nat → Locals → State → Result) (s : State) :
    (∃ f, perform i capture micro s = .next (s.raise f))
      ∨ (∃ c, s.me.ctx = some c ∧ perform i capture micro s = micro c.k c.loc s)
      ∨ (s.issues i ∧ ∃ loc, capture s = some loc
          ∧ perform i capture micro s = micro 1 loc (s.enter loc)) := by
  cases hc : s.me.ctx with
  | some c => exact .inr (.inl ⟨c, rfl, perform_continues hc⟩)
  | none =>
    cases hr : (roleOf i).allows s.cfg s.actor with
    | false => exact .inl ⟨_, perform_raises_role hc hr⟩
    | true =>
      cases hb : s.boundOk i with
      | false => exact .inl ⟨_, perform_raises_unbound hc hr hb⟩
      | true =>
        cases hl : capture s with
        | none => exact .inl ⟨_, perform_raises_unwritten ⟨hc, hr, hb⟩ hl⟩
        | some loc => exact .inr (.inr ⟨⟨hc, hr, hb⟩, loc, rfl, perform_issues ⟨hc, hr, hb⟩ hl⟩)

end Perform

@[simp] theorem atomically_one (act : Locals → State → Result) (loc : Locals) (s : State) :
    atomically act 1 loc s = act loc s := rfl

/-- An atomic operation has μ1 only. -/
theorem atomically_next {act : Locals → State → Result} {k : Nat} {loc : Locals} {s t : State}
    (h : atomically act k loc s = .next t) : k = 1 ∧ act loc s = .next t := by
  unfold atomically at h
  split at h
  · exact ⟨rfl, h⟩
  · cases h

/-! ### Raising a fault -/

@[simp] theorem State.faultRecord_setMe (s : State) (x : Agent) (h : x.apc = s.me.apc) (f : FCode) :
    (s.setMe x).faultRecord f = s.faultRecord f := by
  simp [State.faultRecord, State.progWord, h]
  rfl

/-- A raise forgets what the same step has put into the agent's own context. -/
theorem State.raise_enter (s : State) (loc : Locals) (f : FCode) : (s.enter loc).raise f = s.raise f := by
  have h : (s.enter loc).faultRecord f = s.faultRecord f := by
    exact State.faultRecord_setMe s { s.me with ctx := some ⟨s.progWord, 1, loc⟩ } rfl f
  simp only [State.raise, h]
  simp [State.setMe, State.setAgent, State.me]

@[simp] theorem State.me_raise (s : State) (f : FCode) : (s.raise f).me = { s.me with ctx := none } := by
  simp [State.raise]

theorem State.agent_raise_other (s : State) (f : FCode) {b : AgentId} (h : b ≠ s.actor) :
    (s.raise f).agent[b] = s.agent[b] := by
  simp only [State.raise_agent]
  grind

/-! ### The word of an operation -/

theorem State.opWord_issue {s : State} (h : s.me.ctx = none) : s.opWord = s.progWord := by
  simp [State.opWord, h]

theorem State.opWord_inside {s : State} {c : Ctx} (h : s.me.ctx = some c) : s.opWord = c.word := by
  simp [State.opWord, h]

/-! ### The comparator -/

theorem State.alarmCheck_setMe (s : State) (x : Agent) : (s.setMe x).alarmCheck = s.alarmCheck.setMe x := by
  unfold State.alarmCheck
  cases h : s.alarmDue <;> simp [h]

theorem State.alarmRegister_setMe (s : State) (x : Agent) (ts : DWord) (tok : Word) :
    (s.setMe x).alarmRegister ts tok = (s.alarmRegister ts tok).setMe x := by
  unfold State.alarmRegister
  cases h : s.armed with
  | true => simp [h]
  | false => by_cases hn : ts.toNat ≤ s.nowval.toNat <;> simp [h, hn]

theorem State.tickWhole_setMe (s : State) (x : Agent) : (s.setMe x).tickWhole = s.tickWhole.setMe x := by
  have hc : (s.setMe x).carries = s.carries := rfl
  unfold State.tickWhole
  cases h : (s.cfg.tick64 && s.carries) <;> simp only [hc, State.setMe_cfg, h] <;> rfl

theorem State.checkIfPresent_setMe (s : State) (x : Agent) :
    (s.setMe x).checkIfPresent = s.checkIfPresent.setMe x := by
  unfold State.checkIfPresent
  cases h : s.cfg.alarmEn <;> simp only [State.setMe_cfg, h, State.alarmCheck_setMe] <;> rfl

/-- Everything AlarmCheck can do. -/
theorem State.alarmCheck_cases (s : State) :
    (s.alarmDue = true ∧ s.alarmCheck = (s.emit (.fire s.cb)).setAlarm false max64 0)
      ∨ (s.alarmDue = false ∧ s.alarmCheck = s) := by
  unfold State.alarmCheck
  cases h : s.alarmDue <;> simp

@[simp] theorem State.me_alarmCheck (s : State) : s.alarmCheck.me = s.me := by
  rcases s.alarmCheck_cases with ⟨-, h⟩ | ⟨-, h⟩ <;> simp [h]

/-- Everything a registration can do to the slot. -/
theorem State.alarmRegister_cases (s : State) (ts : DWord) (tok : Word) :
    (s.armed = true ∧ s.alarmRegister ts tok = s)
      ∨ (s.armed = false ∧ ts.toNat ≤ s.nowval.toNat ∧ s.alarmRegister ts tok = s.setAlarm false max64 s.cb)
      ∨ (s.armed = false ∧ s.nowval.toNat < ts.toNat ∧ s.alarmRegister ts tok = s.setAlarm true ts tok) := by
  unfold State.alarmRegister
  cases h : s.armed with
  | true => exact .inl ⟨rfl, rfl⟩
  | false =>
    by_cases hn : ts.toNat ≤ s.nowval.toNat
    · exact .inr (.inl ⟨rfl, hn, by simp [hn]⟩)
    · exact .inr (.inr ⟨rfl, by omega, by simp [hn]⟩)

@[simp] theorem State.me_alarmRegister (s : State) (ts : DWord) (tok : Word) :
    (s.alarmRegister ts tok).me = s.me := by
  rcases s.alarmRegister_cases ts tok with ⟨-, h⟩ | ⟨-, -, h⟩ | ⟨-, -, h⟩ <;> rw [h] <;> rfl

@[simp] theorem State.me_tickWhole (s : State) : s.tickWhole.me = s.me := by
  unfold State.tickWhole
  split <;> rfl

@[simp] theorem State.me_checkIfPresent (s : State) : s.checkIfPresent.me = s.me := by
  unfold State.checkIfPresent
  split <;> simp

/-! ### The counter and the halves of a register -/

theorem State.carries_iff (s : State) : s.carries = true ↔ s.lo = 0xFFFFFFFF := by
  simp [State.carries]

theorem State.carries_false_iff (s : State) : s.carries = false ↔ s.lo ≠ 0xFFFFFFFF := by
  simp [State.carries]

theorem pair_eq_append (h l : Word) : pair h l = h ++ l := by
  apply BitVec.eq_of_toNat_eq
  simp only [pair, BitVec.toNat_ofNat, BitVec.toNat_append]
  rw [← Nat.shiftLeft_add_eq_or_of_lt l.isLt, Nat.shiftLeft_eq]
  have := h.isLt
  have := l.isLt
  omega

theorem pair_toNat (h l : Word) : (pair h l).toNat = h.toNat * 2 ^ 32 + l.toNat := by
  simp only [pair, BitVec.toNat_ofNat]
  have := h.isLt
  have := l.isLt
  omega

/-! ### The operand forms -/

/-- Nothing is cut off a snapshot where the counter has 64 bits (R82). -/
theorem cutTick_64 {c : Config} (h : c.tick64 = true) (x : DWord) : cutTick c x = x := by
  apply BitVec.eq_of_toNat_eq
  have := x.isLt
  simp only [cutTick, Config.tw, h, if_true, BitVec.toNat_ofNat]
  omega

/-- The low 32 bits of a snapshot remain where it has 32 (R82). -/
theorem cutTick_32 {c : Config} (h : c.tick64 = false) (x : DWord) :
    (cutTick c x).toNat = x.toNat % 2 ^ 32 := by
  simp only [cutTick, Config.tw, h, Bool.false_eq_true, if_false, BitVec.toNat_ofNat]
  omega

theorem zext64_toNat (v : Word) : (zext64 v).toNat = v.toNat := by
  have := v.isLt
  simp only [zext64, BitVec.toNat_ofNat]
  omega

/-! ### The slots of a bound instance -/

theorem isPow2_iff {n : Nat} (h : n < 2 ^ 64) : isPow2 n = true ↔ ∃ k, n = 2 ^ k := by
  simp only [isPow2, List.any_eq_true, List.mem_range, beq_iff_eq]
  constructor
  · rintro ⟨k, -, h⟩
    exact ⟨k, h⟩
  · rintro ⟨k, rfl⟩
    exact ⟨k, (Nat.pow_lt_pow_iff_right (by decide)).mp h, rfl⟩

theorem State.storageOk.len_pos {s : State} {i : InstId} (h : s.storageOk i) :
    0 < (s.fifoAt i).len.toNat := by
  obtain ⟨k, hk⟩ := (isPow2_iff (by have := (s.fifoAt i).len.isLt; omega)).mp h.1
  rw [hk]
  exact Nat.two_pow_pos k

/-- LEN(i) divides 2^32 (R62). -/
theorem State.storageOk.len_dvd {s : State} {i : InstId} (h : s.storageOk i) :
    (s.fifoAt i).len.toNat ∣ 2 ^ 32 := by
  obtain ⟨k, hk⟩ := (isPow2_iff (by have := (s.fifoAt i).len.isLt; omega)).mp h.1
  have h2 := h.2.1
  rw [hk] at h2 ⊢
  have hk32 : k ≤ 31 := (Nat.pow_le_pow_iff_right (by decide)).mp h2
  exact Nat.pow_dvd_pow 2 (by omega)

/-- A slot lies inside its instance's region (R62). -/
theorem State.storageOk.slot_bounds {s : State} {i : InstId} (h : s.storageOk i) (idx : Word) :
    (s.fifoAt i).base.toNat ≤ s.slotAddr i idx
      ∧ s.slotAddr i idx + s.esizeAt i
          ≤ (s.fifoAt i).base.toNat + (s.fifoAt i).len.toNat * s.esizeAt i := by
  have hm := Nat.mod_lt idx.toNat h.len_pos
  refine ⟨Nat.le_add_right _ _, ?_⟩
  have : (idx.toNat % (s.fifoAt i).len.toNat + 1) * s.esizeAt i
      ≤ (s.fifoAt i).len.toNat * s.esizeAt i := Nat.mul_le_mul_right _ hm
  rw [Nat.add_mul, Nat.one_mul] at this
  unfold State.slotAddr
  omega

theorem State.storageOk.slotInSpace {s : State} {i : InstId} (h : s.storageOk i) (idx : Word) :
    s.slotInSpace i idx = true := by
  have hb := (h.slot_bounds idx).2
  have hr := h.2.2.2
  exact decide_eq_true (Nat.le_trans hb hr)

/-- A state whose regions are in order gives every bound instance its slots. -/
theorem State.regionsOk.slotInSpace {s : State} (h : s.regionsOk) {i : InstId}
    (hb : (s.fifoAt i).bound = true) (idx : Word) : s.slotInSpace i idx = true :=
  (h.1 i hb).2.slotInSpace idx

end Sys2Proof.Machine
end

