-- ==== Sys2Proof/Laws/Effect.lean ====
section
/-! SUPPORT. Said once for all operations: everything that one step of an operation can do to the shared state
and to the acting agent's own record. Frames and invariants are derived from `exec_effect`. -/

namespace Sys2Proof.Machine

/-- What one step of `op` may do to the state outside the acting agent's record. -/
inductive SharedEffect (s : State) : Instr → State → Prop where
  | unchanged (op : Instr) : SharedEffect s op s
  | bind (i : InstId) (len : Word) (base : DWord) (h : s.initCheck i base len = none) :
      SharedEffect s (.fifoInit i len) (s.setFifo i (Fifo.binding base len))
  | store (i : InstId) (src : Operand) (v : Word) (h : s.slotInSpace i (s.fifoAt i).wr = true)
      (hk : s.issues (.fifoPush i src) ∨ ∃ loc, s.inside 1 loc) :
      SharedEffect s (.fifoPush i src) (s.elemWrite i (s.fifoAt i).wr v)
  | publish (i : InstId) (src : Operand) (v : Word) :
      SharedEffect s (.fifoPush i src) (s.setFifo i { s.fifoAt i with wr := v })
  | take (op : Instr) (i : InstId) (v : Word) (h : op = .fifoPop i ∨ op = .fifoDrop i) :
      SharedEffect s op (s.setFifo i { s.fifoAt i with rd := v })
  | register (i : InstId) (tok : Word) :
      SharedEffect s (.fifoRegwaker i tok) (s.setFifo i { s.fifoAt i with wkv := true, wkt := tok })
  | notify (i : InstId) (h : (s.fifoAt i).wkv = true) :
      SharedEffect s (.fifoWake i)
        ((s.emit (.wake i (s.fifoAt i).wkt)).setFifo i { s.fifoAt i with wkv := false })
  | low : SharedEffect s .tickInc (s.setLo (s.lo + 1))
  | high (loc : Locals) (h : s.inside 2 loc) : SharedEffect s .tickInc (s.setHi (s.hi + 1))
  | whole : SharedEffect s .tickInc s.tickWhole.checkIfPresent
  | check (op : Instr) (h : op = .tickInc ∨ op = .alarmCheck) : SharedEffect s op s.alarmCheck
  | arm (tok : Word) (ts : DWord) : SharedEffect s (.alarmSet tok) (s.alarmRegister ts tok)

/-- What one step of `op` may do to the acting agent's own record. -/
structure OwnEffect (s : State) (op : Instr) (x : Agent) : Prop where
  a   : ¬ writesA op → x.a = s.me.a
  res : ¬ writesRes op → x.res = s.me.res
  p   : ¬ writesP op → x.p = s.me.p
  run : op ≠ .seqHalt → x.run = s.me.run
  ctx : x.ctx = none
    ∨ ∃ k loc, x.ctx = some ⟨s.opWord, k, loc⟩ ∧ midIndex s.cfg op k = true ∧ x.apc = s.me.apc

/-- A completed operation that leaves A, RES, P and RUN. -/
theorem OwnEffect.leave (s : State) (op : Instr) (n : Int) :
    OwnEffect s op { s.me with ctx := none, apc := n } :=
  ⟨fun _ => rfl, fun _ => rfl, fun _ => rfl, fun _ => rfl, .inl rfl⟩

/-- A completed operation that R83 gives both a result and an outcome. -/
theorem OwnEffect.outcome {s : State} {op : Instr} (v : DWord) (b : Bool) (n : Int)
    (h1 : writesRes op) (h2 : writesP op) :
    OwnEffect s op { s.me with res := some v, p := some b, ctx := none, apc := n } :=
  ⟨fun _ => rfl, fun h => absurd h1 h, fun h => absurd h2 h, fun _ => rfl, .inl rfl⟩

/-- A completed operation that R83 gives a result alone. -/
theorem OwnEffect.result {s : State} {op : Instr} (v : DWord) (n : Int) (h1 : writesRes op) :
    OwnEffect s op { s.me with res := some v, ctx := none, apc := n } :=
  ⟨fun _ => rfl, fun h => absurd h1 h, fun _ => rfl, fun _ => rfl, .inl rfl⟩

/-- An operation that goes on at `k`. -/
theorem OwnEffect.goesOn {s : State} {op : Instr} {k : Nat} (loc : Locals)
    (h : midIndex s.cfg op k = true) :
    OwnEffect s op { s.me with ctx := some ⟨s.opWord, k, loc⟩ } :=
  ⟨fun _ => rfl, fun _ => rfl, fun _ => rfl, fun _ => rfl, .inr ⟨k, loc, rfl, h, rfl⟩⟩

/-- The two ways a step of `op` can end in a next state. -/
def StepEffect (s : State) (op : Instr) (t : State) : Prop :=
  (∃ f, t = s.raise f)
    ∨ ((s.issues op ∨ s.me.ctx ≠ none) ∧ ∃ s' x, SharedEffect s op s' ∧ OwnEffect s op x ∧ t = s'.setMe x)

/-! ### From the micro-operations of an operation to its step -/

/-- What must be shown of an operation's micro-operations. -/
def MicroOk (op : Instr) (micro : Nat → Locals → State → Result) : Prop :=
  ∀ (s t : State) (k : Nat) (loc : Locals), s.inside k loc → micro k loc s = .next t →
    (∃ f, t = s.raise f) ∨ ∃ s' x, SharedEffect s op s' ∧ OwnEffect s op x ∧ t = s'.setMe x

/-- Entering an operation changes the agent's own record only, so μ1 has the effect it has without. -/
theorem SharedEffect.ofEnter {s s' : State} {op : Instr} {loc : Locals} (hi : s.issues op)
    (h : SharedEffect (s.enter loc) op s') :
    ∃ s'', SharedEffect s op s'' ∧ ∀ x, s'.setMe x = s''.setMe x := by
  cases h with
  | unchanged => exact ⟨s, .unchanged op, fun x => by simp⟩
  | bind i len base h => exact ⟨_, .bind i len base h, fun x => by simp⟩
  | store i src v h _ => exact ⟨_, .store i src v h (.inl hi), fun x => by simp⟩
  | publish i src v => exact ⟨_, .publish i src v, fun x => by simp⟩
  | take op i v h => exact ⟨_, .take op i v h, fun x => by simp⟩
  | register i tok => exact ⟨_, .register i tok, fun x => by simp⟩
  | notify i h => exact ⟨_, .notify i h, fun x => by simp⟩
  | low => exact ⟨_, .low, fun x => by simp⟩
  | high loc' h =>
    obtain ⟨w, hw⟩ := h
    simp at hw
  | whole => exact ⟨_, .whole, fun x => by simp [State.tickWhole_setMe, State.checkIfPresent_setMe]⟩
  | check op h => exact ⟨_, .check op h, fun x => by simp [State.alarmCheck_setMe]⟩
  | arm tok ts => exact ⟨_, .arm tok ts, fun x => by simp [State.alarmRegister_setMe]⟩

theorem OwnEffect.ofEnter {s : State} {op : Instr} {loc : Locals} {x : Agent} (hi : s.issues op)
    (h : OwnEffect (s.enter loc) op x) : OwnEffect s op x := by
  obtain ⟨ha, hr, hp, hu, hc⟩ := h
  have hw : (s.enter loc).opWord = s.opWord := by
    rw [State.opWord_issue hi.1]
    exact State.opWord_inside (c := ⟨s.progWord, 1, loc⟩) (by simp)
  simp only [State.enter_eq, State.me_setMe, State.setMe_cfg] at ha hr hp hu hc
  rw [State.enter_eq] at hw
  rw [hw] at hc
  exact ⟨ha, hr, hp, hu, hc⟩

theorem perform_effect {op : Instr} {capture : State → Option Locals}
    {micro : Nat → Locals → State → Result} (hm : MicroOk op micro) {s t : State}
    (h : perform op capture micro s = .next t) : StepEffect s op t := by
  rcases perform_cases op capture micro s with ⟨f, hf⟩ | ⟨c, hc, hk⟩ | ⟨hi, loc, -, hk⟩
  · rw [hf] at h
    cases h
    exact .inl ⟨f, rfl⟩
  · rw [hk] at h
    rcases hm s t c.k c.loc ⟨c.word, hc⟩ h with hf | he
    · exact .inl hf
    · exact .inr ⟨.inr (by simp [hc]), he⟩
  · rw [hk] at h
    rcases hm (s.enter loc) t 1 loc ⟨s.progWord, by simp⟩ h with ⟨f, rfl⟩ | ⟨s', x, hs, hx, rfl⟩
    · exact .inl ⟨f, s.raise_enter loc f⟩
    · obtain ⟨s'', h1, h2⟩ := hs.ofEnter hi
      exact .inr ⟨.inl hi, s'', x, h1, hx.ofEnter hi, h2 x⟩

/-- For an atomic operation, its action is all there is. -/
theorem MicroOk.ofAtomic {op : Instr} {act : Locals → State → Result}
    (h : ∀ (s t : State) (loc : Locals), act loc s = .next t →
      (∃ f, t = s.raise f) ∨ ∃ s' x, SharedEffect s op s' ∧ OwnEffect s op x ∧ t = s'.setMe x) :
    MicroOk op (atomically act) :=
  fun s t _ loc _ hk => h s t loc (atomically_next hk).2

/-- Going on at `k'` from a context. -/
theorem State.goto_inside {s : State} {k : Nat} {loc : Locals} (h : s.inside k loc) (k' : Nat)
    (loc' : Locals) : s.goto k' loc' = s.setMe (s.me.mid s.opWord k' loc') := by
  obtain ⟨w, h⟩ := h
  simp [h, Agent.mid, State.opWord]

/-! ### The operations -/

theorem fifoInit_effect {i : InstId} {len : Word} {s t : State}
    (h : execFifoInit i len s = .next t) : StepEffect s (.fifoInit i len) t := by
  refine perform_effect (.ofAtomic fun s t loc h => ?_) h
  cases hc : s.initCheck i loc.base len with
  | some f =>
    simp only [hc] at h
    cases h
    exact .inl ⟨f, rfl⟩
  | none =>
    simp only [hc] at h
    cases h
    exact .inr ⟨_, _, .bind i len loc.base hc, .leave s _ (s.me.apc + 1), by simp⟩

theorem fifoPush_effect {i : InstId} {src : Operand} {s t : State}
    (h : execFifoPush i src s = .next t) : StepEffect s (.fifoPush i src) t := by
  refine perform_effect (fun s t k loc hk h => ?_) h
  unfold pushMicro at h
  split at h
  · simp only at h
    split at h
    · cases h
      exact .inl ⟨_, rfl⟩
    · split at h
      · cases h
      · rename_i hs
        cases h
        refine .inr ⟨_, _, .store i src loc.v (by simpa using hs) (.inr ⟨loc, hk⟩),
          .goesOn (k := 2) { loc with w := (s.fifoAt i).wr } rfl, ?_⟩
        obtain ⟨w, hw⟩ := hk
        simp [hw, State.opWord]
  · cases h
    exact .inr ⟨_, _, .publish i src (loc.w + 1), .leave s _ (s.me.apc + 1), by simp⟩
  · cases h

/-- The shared micro-operations of `fifo.pop` and `fifo.drop`. -/
theorem take_micro {i : InstId} {op : Instr} (ho : op = .fifoPop i ∨ op = .fifoDrop i)
    (hk1 : ∀ c, midIndex c op 2 = true ∧ midIndex c op 3 = true ∧ midIndex c op 4 = true)
    (hr : writesRes op) (hp : writesP op) : MicroOk op (takeMicro i) := by
  intro s t k loc hk h
  unfold takeMicro at h
  split at h
  · cases h
    exact .inr ⟨s, _, .unchanged op, .goesOn _ (hk1 s.cfg).1, State.goto_inside hk _ _⟩
  · simp only at h
    split at h
    · cases h
      exact .inr ⟨s, _, .unchanged op, .outcome 0 false (s.me.apc + 1) hr hp, by simp⟩
    · cases h
      exact .inr ⟨s, _, .unchanged op, .goesOn _ (hk1 s.cfg).2.1, State.goto_inside hk _ _⟩
  · split at h
    · cases h
    · split at h
      · cases h
        exact .inl ⟨_, rfl⟩
      · cases h
        exact .inr ⟨s, _, .unchanged op, .goesOn _ (hk1 s.cfg).2.2, State.goto_inside hk _ _⟩
  · cases h
    exact .inr ⟨_, _, .take op i (loc.r + 1) ho, .outcome (zext64 loc.v) true (s.me.apc + 1) hr hp,
      by simp⟩
  · cases h

theorem fifoPop_effect {i : InstId} {s t : State} (h : execFifoPop i s = .next t) :
    StepEffect s (.fifoPop i) t :=
  perform_effect (take_micro (.inl rfl) (fun _ => ⟨rfl, rfl, rfl⟩) (by simp [writesRes])
    (by simp [writesP])) h

theorem fifoDrop_effect {i : InstId} {s t : State} (h : execFifoDrop i s = .next t) :
    StepEffect s (.fifoDrop i) t :=
  perform_effect (take_micro (.inr rfl) (fun _ => ⟨rfl, rfl, rfl⟩) (by simp [writesRes])
    (by simp [writesP])) h

/-- The shared micro-operations of the queries. -/
theorem query_micro {i : InstId} {op : Instr} (hk1 : ∀ c, midIndex c op 2 = true) (hr : writesRes op)
    (hp : writesP op) (f : Word → Word → Bool) : MicroOk op (queryMicro i f) := by
  intro s t k loc hk h
  unfold queryMicro at h
  split at h
  · cases h
    exact .inr ⟨s, _, .unchanged op, .goesOn _ (hk1 s.cfg), State.goto_inside hk _ _⟩
  · cases h
    exact .inr ⟨s, _, .unchanged op, .outcome (bool64 (f (s.fifoAt i).wr loc.r))
      (f (s.fifoAt i).wr loc.r) (s.me.apc + 1) hr hp, by simp⟩
  · cases h

theorem fifoIsfull_effect {i : InstId} {s t : State} (h : execFifoIsfull i s = .next t) :
    StepEffect s (.fifoIsfull i) t :=
  perform_effect (query_micro (fun _ => rfl) (by simp [writesRes]) (by simp [writesP]) _) h

theorem fifoIsempty_effect {i : InstId} {s t : State} (h : execFifoIsempty i s = .next t) :
    StepEffect s (.fifoIsempty i) t :=
  perform_effect (query_micro (fun _ => rfl) (by simp [writesRes]) (by simp [writesP]) _) h

theorem fifoRegwaker_effect {i : InstId} {tok : Word} {s t : State}
    (h : execFifoRegwaker i tok s = .next t) : StepEffect s (.fifoRegwaker i tok) t := by
  refine perform_effect (.ofAtomic fun s t loc h => ?_) h
  cases h
  exact .inr ⟨_, _, .register i tok, .leave s _ (s.me.apc + 1), by simp⟩

theorem fifoWake_effect {i : InstId} {s t : State} (h : execFifoWake i s = .next t) :
    StepEffect s (.fifoWake i) t := by
  refine perform_effect (.ofAtomic fun s t loc h => ?_) h
  have hr : writesRes (.fifoWake i) := by simp [writesRes]
  have hp : writesP (.fifoWake i) := by simp [writesP]
  split at h
  · rename_i hw
    cases h
    exact .inr ⟨_, _, .notify i hw, .outcome (bool64 true) true (s.me.apc + 1) hr hp, by simp⟩
  · cases h
    exact .inr ⟨s, _, .unchanged _, .outcome (bool64 false) false (s.me.apc + 1) hr hp, by simp⟩

theorem tickSplit_micro : MicroOk .tickInc fun k loc s =>
    if s.cfg.tickSplit then tickSplitMicro k loc s else tickAtomicMicro k loc s := by
  intro s t k loc hk h
  cases hsp : s.cfg.tickSplit with
  | false =>
    simp only [hsp, Bool.false_eq_true, if_false] at h
    obtain ⟨-, h⟩ := atomically_next (act := fun _ s => .next s.tickWhole.checkIfPresent.complete) h
    cases h
    exact .inr ⟨_, _, .whole, .leave s _ (s.me.apc + 1), by simp⟩
  | true =>
    simp only [hsp, if_true] at h
    have tail : ∀ (u : State) (l : Locals), u.me = s.me → u.cfg = s.cfg → (∃ k, u.inside k loc) →
        ∃ x, OwnEffect s .tickInc x ∧ u.tickTail l = u.setMe x := by
      intro u l hm hc hu
      unfold State.tickTail
      obtain ⟨k, w, hw⟩ := hu
      split
      · rename_i ha
        refine ⟨_, .goesOn (k := 3) l (by simp [midIndex, hsp, hc ▸ ha]), ?_⟩
        rw [State.goto_inside ⟨w, hw⟩, hm]
        have : u.opWord = s.opWord := by simp only [State.opWord, ← hm, hw]
        rw [this]
        rfl
      · exact ⟨_, .leave s _ (s.me.apc + 1), by simp [hm]⟩
    unfold tickSplitMicro at h
    split at h
    · simp only at h
      split at h
      · rename_i hc
        cases h
        simp only [Bool.and_eq_true] at hc
        refine .inr ⟨_, _, .low, .goesOn (k := 2) { loc with c := s.carries }
          (by simp [midIndex, hsp, hc.1]), ?_⟩
        obtain ⟨w, hw⟩ := hk
        simp [hw, State.opWord]
      · cases h
        obtain ⟨x, hx, he⟩ := tail (s.setLo (s.lo + 1)) { loc with c := s.carries } rfl rfl ⟨_, hk⟩
        exact .inr ⟨_, x, .low, hx, he⟩
    · cases h
      obtain ⟨x, hx, he⟩ := tail (s.setHi (s.hi + 1)) loc rfl rfl ⟨_, hk⟩
      exact .inr ⟨_, x, .high loc hk, hx, he⟩
    · cases h
      exact .inr ⟨_, _, .check _ (.inl rfl), .leave s _ (s.me.apc + 1), by simp⟩
    · cases h

theorem tickInc_effect {s t : State} (h : execTickInc s = .next t) : StepEffect s .tickInc t := by
  have e : execTickInc s = perform .tickInc captureNone (fun k loc u =>
      if u.cfg.tickSplit then tickSplitMicro k loc u else tickAtomicMicro k loc u) s := by
    unfold execTickInc perform
    cases hsp : s.cfg.tickSplit <;> simp [hsp]
  rw [e] at h
  exact perform_effect tickSplit_micro h

/-- The shared micro-operations of `tick.now` and `tick.elapsed`. -/
theorem clockRead_micro {op : Instr} {use : Locals → DWord → State → State}
    (hk1 : ∀ c : Config, c.tick64 = true →
      midIndex c op 1 = true ∧ midIndex c op 2 = true ∧ midIndex c op 3 = true)
    (hr : writesRes op) (hu : ∀ loc n s, ∃ v, use loc n s = s.setRes v) :
    MicroOk op (clockReadMicro use) := by
  intro s t k loc hk h
  have fin : ∀ n, ∃ s' x, SharedEffect s op s' ∧ OwnEffect s op x ∧ (use loc n s).complete = s'.setMe x := by
    intro n
    obtain ⟨v, hv⟩ := hu loc n s
    exact ⟨s, _, .unchanged op, .result v (s.me.apc + 1) hr, by simp [hv]⟩
  unfold clockReadMicro at h
  split at h
  · rename_i h64
    obtain ⟨m1, m2, m3⟩ := hk1 s.cfg h64
    unfold clockRead64 at h
    split at h
    · cases h
      exact .inr ⟨s, _, .unchanged op, .goesOn _ m2, State.goto_inside hk _ _⟩
    · cases h
      exact .inr ⟨s, _, .unchanged op, .goesOn _ m3, State.goto_inside hk _ _⟩
    · split at h
      · cases h
        exact .inr ⟨s, _, .unchanged op, .goesOn _ m1, State.goto_inside hk _ _⟩
      · cases h
        exact .inr (fin _)
    · cases h
  · unfold clockRead32 at h
    split at h
    · cases h
      exact .inr (fin _)
    · cases h

theorem tickNow_effect {s t : State} (h : execTickNow s = .next t) : StepEffect s .tickNow t :=
  perform_effect (clockRead_micro (fun c h => by simp [midIndex, h]) (by simp [writesRes])
    fun _ n _ => ⟨n, rfl⟩) h

theorem tickElapsed_effect {src : Operand} {s t : State} (h : execTickElapsed src s = .next t) :
    StepEffect s (.tickElapsed src) t :=
  perform_effect (clockRead_micro (fun c h => by simp [midIndex, h]) (by simp [writesRes])
    fun _ _ _ => ⟨_, rfl⟩) h

theorem alarmSet_effect {tok : Word} {s t : State} (h : execAlarmSet tok s = .next t) :
    StepEffect s (.alarmSet tok) t := by
  refine perform_effect (.ofAtomic fun s t loc h => ?_) h
  cases h
  exact .inr ⟨_, _, .arm tok loc.ts,
    .outcome (s.alarmStatus loc.ts) (s.alarmStatus loc.ts == 0) (s.me.apc + 1) (by simp [writesRes])
      (by simp [writesP]), by simp⟩

theorem alarmCheck_effect {s t : State} (h : execAlarmCheck s = .next t) :
    StepEffect s .alarmCheck t := by
  refine perform_effect (.ofAtomic fun s t loc h => ?_) h
  cases h
  exact .inr ⟨_, _, .check _ (.inr rfl),
    .outcome (bool64 s.alarmDue) s.alarmDue (s.me.apc + 1) (by simp [writesRes]) (by simp [writesP]),
    by simp⟩

/-- A read of a register with a written bit either raises or uses its value. -/
theorem State.readReg_next {α : Type} {s t : State} {reg : Option α} {use : α → State}
    (h : s.readReg reg use = .next t) : (∃ f, t = s.raise f) ∨ ∃ x, reg = some x ∧ t = use x := by
  unfold State.readReg at h
  split at h
  · cases h
    exact .inl ⟨_, rfl⟩
  · cases h
    exact .inr ⟨_, rfl, rfl⟩

theorem seqLda_effect {imm : Word} {s t : State} (h : execSeqLda imm s = .next t) :
    StepEffect s (.seqLda imm) t := by
  refine perform_effect (.ofAtomic fun s t loc h => ?_) h
  cases h
  exact .inr ⟨s, { s.me with a := some (zext64 imm), ctx := none, apc := s.me.apc + 1 }, .unchanged _,
    ⟨fun h => absurd (by simp [writesA]) h, fun _ => rfl, fun _ => rfl, fun _ => rfl, .inl rfl⟩, by simp⟩

theorem seqLdah_effect {imm : Word} {s t : State} (h : execSeqLdah imm s = .next t) :
    StepEffect s (.seqLdah imm) t := by
  refine perform_effect (.ofAtomic fun s t loc h => ?_) h
  rcases State.readReg_next h with hf | ⟨x, -, rfl⟩
  · exact .inl hf
  exact .inr ⟨s, { s.me with a := some (setHighHalf x imm), ctx := none, apc := s.me.apc + 1 }, .unchanged _,
    ⟨fun h => absurd (by simp [writesA]) h, fun _ => rfl, fun _ => rfl, fun _ => rfl, .inl rfl⟩, by simp⟩

theorem seqAdda_effect {imm : Word} {s t : State} (h : execSeqAdda imm s = .next t) :
    StepEffect s (.seqAdda imm) t := by
  refine perform_effect (.ofAtomic fun s t loc h => ?_) h
  rcases State.readReg_next h with hf | ⟨x, -, rfl⟩
  · exact .inl hf
  exact .inr ⟨s, { s.me with
      a := some (x + sext64 imm), p := some (nonzero (x + sext64 imm)), ctx := none,
      apc := s.me.apc + 1 }, .unchanged _,
    ⟨fun h => absurd (by simp [writesA]) h, fun _ => rfl, fun h => absurd (by simp [writesP]) h,
      fun _ => rfl, .inl rfl⟩, by simp⟩

theorem seqMova_effect {s t : State} (h : execSeqMova s = .next t) : StepEffect s .seqMova t := by
  refine perform_effect (.ofAtomic fun s t loc h => ?_) h
  rcases State.readReg_next h with hf | ⟨x, -, rfl⟩
  · exact .inl hf
  exact .inr ⟨s, { s.me with a := some x, ctx := none, apc := s.me.apc + 1 }, .unchanged _,
    ⟨fun h => absurd (by simp [writesA]) h, fun _ => rfl, fun _ => rfl, fun _ => rfl, .inl rfl⟩, by simp⟩

/-- A branch writes APC and nothing else. -/
theorem State.branchIf_eq (s : State) (taken : Bool) (simm : Word) :
    s.branchIf taken simm = s.setMe { s.me with
      ctx := none, apc := if taken then branchTarget s.me.apc simm else s.me.apc + 1 } := by
  cases taken <;> simp [State.branchIf]

theorem seqJ_effect {simm : Word} {s t : State} (h : execSeqJ simm s = .next t) :
    StepEffect s (.seqJ simm) t := by
  refine perform_effect (.ofAtomic fun s t loc h => ?_) h
  cases h
  exact .inr ⟨s, _, .unchanged _, .leave s _ (branchTarget s.me.apc simm), rfl⟩

theorem seqBp_effect {simm : Word} {s t : State} (h : execSeqBp simm s = .next t) :
    StepEffect s (.seqBp simm) t := by
  refine perform_effect (.ofAtomic fun s t loc h => ?_) h
  rcases State.readReg_next h with hf | ⟨x, -, rfl⟩
  · exact .inl hf
  exact .inr ⟨s, _, .unchanged _, .leave s _ _, s.branchIf_eq x simm⟩

theorem seqBnp_effect {simm : Word} {s t : State} (h : execSeqBnp simm s = .next t) :
    StepEffect s (.seqBnp simm) t := by
  refine perform_effect (.ofAtomic fun s t loc h => ?_) h
  rcases State.readReg_next h with hf | ⟨x, -, rfl⟩
  · exact .inl hf
  exact .inr ⟨s, _, .unchanged _, .leave s _ _, s.branchIf_eq (!x) simm⟩

theorem seqHalt_effect {s t : State} (h : execSeqHalt s = .next t) : StepEffect s .seqHalt t := by
  refine perform_effect (.ofAtomic fun s t loc h => ?_) h
  cases h
  exact .inr ⟨s, { s.me with run := .halted, ctx := none }, .unchanged _,
    ⟨fun _ => rfl, fun _ => rfl, fun _ => rfl, fun h => absurd rfl h, .inl rfl⟩, rfl⟩

/-- Everything one step of an operation can do, if it answers a next state: raise a fault, or one shared effect of
that operation together with one effect on the acting agent's own record. -/
theorem exec_effect {op : Instr} {s t : State} (h : exec op s = .next t) : StepEffect s op t := by
  cases op with
  | fifoInit i len => exact fifoInit_effect h
  | fifoPush i src => exact fifoPush_effect h
  | fifoPop i => exact fifoPop_effect h
  | fifoDrop i => exact fifoDrop_effect h
  | fifoIsfull i => exact fifoIsfull_effect h
  | fifoIsempty i => exact fifoIsempty_effect h
  | fifoRegwaker i tok => exact fifoRegwaker_effect h
  | fifoWake i => exact fifoWake_effect h
  | tickInc => exact tickInc_effect h
  | tickNow => exact tickNow_effect h
  | tickElapsed src => exact tickElapsed_effect h
  | alarmSet tok => exact alarmSet_effect h
  | alarmCheck => exact alarmCheck_effect h
  | seqLda imm => exact seqLda_effect h
  | seqLdah imm => exact seqLdah_effect h
  | seqAdda simm => exact seqAdda_effect h
  | seqMova => exact seqMova_effect h
  | seqJ simm => exact seqJ_effect h
  | seqBp simm => exact seqBp_effect h
  | seqBnp simm => exact seqBnp_effect h
  | seqHalt => exact seqHalt_effect h

end Sys2Proof.Machine
end

