-- ==== Sys2Proof/Laws/Step.lean ====
section
/-! SUPPORT. What one step of the machine is: the move it takes, the fetch, and what it cannot answer. -/

namespace Sys2Proof.Machine

/-! ### The move a step takes -/

/-- With a move scripted, a step performs it. -/
theorem step_scripted {s : State} {m : Move} {ms : List Move} (hl : s.cfg.legal = true)
    (h : s.moves = m :: ms) : step s = performMove m { s with moves := ms } := by
  simp [step, hl, State.nextMove, h]

/-- With none scripted, it performs the one the free value chooses. -/
theorem step_unscripted {s : State} (hl : s.cfg.legal = true) (h : s.moves = []) :
    step s = performMove (s.chosenMove (Config.freeChoice s.choiceNo))
      { s with choiceNo := s.choiceNo + 1 } := by
  simp [step, hl, State.nextMove, h]

theorem step_illegal {s : State} (h : s.cfg.legal = false) : step s = .refused .illegalConfig := by
  simp [step, h]

/-- Every step performs some move, in a state that differs in the script and the choice number alone. -/
theorem step_cases {s : State} (hl : s.cfg.legal = true) :
    ∃ m ms n, step s = performMove m { s with moves := ms, choiceNo := n } := by
  cases h : s.moves with
  | nil => exact ⟨_, [], s.choiceNo + 1, by rw [step_unscripted hl h, ← h]⟩
  | cons m ms => exact ⟨m, ms, s.choiceNo, step_scripted hl h⟩

theorem reset_mem_offeredMoves (s : State) : Move.reset ∈ s.offeredMoves :=
  List.mem_filter.mpr ⟨by simp [allMoves], rfl⟩

/-- The free choice is among the offered moves, whatever the free value is. -/
theorem State.chosenMove_offered (s : State) (n : Nat) : s.offered (s.chosenMove n) = true := by
  have hlen : 0 < s.offeredMoves.length := List.length_pos_of_mem (reset_mem_offeredMoves s)
  have hlt : n % s.offeredMoves.length < s.offeredMoves.length := Nat.mod_lt _ hlen
  have hm : s.chosenMove n ∈ s.offeredMoves := by
    rw [State.chosenMove, List.getD_eq_getElem _ _ hlt]
    exact List.getElem_mem hlt
  exact (List.mem_filter.mp hm).2

/-- An offered move is enabled, and is no TRIGGER where the host triggers no more agents. -/
theorem State.offered_iff (s : State) (m : Move) : s.offered m = true ↔
    s.enabled m = true ∧ (s.hostDone = true → ∀ a, m ≠ .trigger a) := by
  cases m <;> simp [State.offered, and_comm]

theorem State.chosenMove_enabled (s : State) (n : Nat) : s.enabled (s.chosenMove n) = true :=
  ((s.offered_iff _).mp (s.chosenMove_offered n)).1

/-! ### The step of an agent -/

/-- There is no word at an APC outside the program (R50). -/
theorem State.fetchWord?_none (s : State) :
    s.fetchWord? = none ↔ s.me.apc < 0 ∨ (s.prog[s.actor].length : Int) ≤ s.me.apc := by
  unfold State.fetchWord?
  split
  · simp_all
  · rw [List.getElem?_eq_none_iff]
    omega

/-- At a word index, the fetch reads that word. -/
theorem State.fetchWord?_at {s : State} {n : Nat} (h : s.me.apc = n) :
    s.fetchWord? = s.prog[s.actor][n]? := by
  unfold State.fetchWord?
  rw [h]
  simp

theorem performMove_agent {s : State} {a : AgentId} (h : s.mayStep a = true) :
    performMove (.agent a) s = agentStep (s.setActor a) := by
  simp [performMove, h]

theorem agentStep_issues {s : State} {w : DWord} {i : Instr} (hc : s.me.ctx = none)
    (hw : s.fetchWord? = some w) (hd : decode s.cfg w = .ok i) : agentStep s = exec i s := by
  simp [agentStep, State.fetch, hc, State.fetchNew, hw, hd]

theorem agentStep_continues {s : State} {c : Ctx} {i : Instr} (hc : s.me.ctx = some c)
    (hd : decode s.cfg c.word = .ok i) : agentStep s = exec i s := by
  simp [agentStep, State.fetch, hc, State.fetchCtx, hd]

theorem agentStep_pcRange {s : State} (hc : s.me.ctx = none) (hw : s.fetchWord? = none) :
    agentStep s = .next (s.raise .pcRange) := by
  simp [agentStep, State.fetch, hc, State.fetchNew, hw]

theorem agentStep_illegal {s : State} {w : DWord} {e : DecodeError} (hc : s.me.ctx = none)
    (hw : s.fetchWord? = some w) (hd : decode s.cfg w = .error e) :
    agentStep s = .next (s.raise .illegal) := by
  simp [agentStep, State.fetch, hc, State.fetchNew, hw, hd]

/-- Everything an agent's step can be. -/
theorem agentStep_cases (s : State) :
    (∃ f, agentStep s = .next (s.raise f))
      ∨ (∃ w i, s.me.ctx = none ∧ s.fetchWord? = some w ∧ decode s.cfg w = .ok i
          ∧ agentStep s = exec i s)
      ∨ (∃ c i, s.me.ctx = some c ∧ decode s.cfg c.word = .ok i ∧ agentStep s = exec i s)
      ∨ (∃ c e, s.me.ctx = some c ∧ decode s.cfg c.word = .error e
          ∧ agentStep s = .fault .illegalContext) := by
  cases hc : s.me.ctx with
  | none =>
    cases hw : s.fetchWord? with
    | none => exact .inl ⟨_, agentStep_pcRange hc hw⟩
    | some w =>
      cases hd : decode s.cfg w with
      | error e => exact .inl ⟨_, agentStep_illegal hc hw hd⟩
      | ok i => exact .inr (.inl ⟨w, i, rfl, rfl, hd, agentStep_issues hc hw hd⟩)
  | some c =>
    cases hd : decode s.cfg c.word with
    | error e =>
      exact .inr (.inr (.inr ⟨c, e, rfl, hd, by simp [agentStep, State.fetch, hc, State.fetchCtx, hd]⟩))
    | ok i => exact .inr (.inr (.inl ⟨c, i, rfl, hd, agentStep_continues hc hd⟩))

/-! ### What an operation's step cannot answer -/

/-- The two ways an operation's step can stop, both outside every run: a micro-operation the operation does not
have, and a slot outside data memory. -/
def StopsBad (i : Instr) (s : State) (f : Fault) : Prop :=
  (f = .noSuchMicroOp ∧ ∃ c, s.me.ctx = some c ∧ c.k ≠ 1 ∧ midIndex s.cfg i c.k = false)
    ∨ (f = .addressOutsideSpace ∧ (s.issues i ∨ s.me.ctx ≠ none)
      ∧ ∃ n idx, needsBound i = some n ∧ s.slotInSpace n idx = false)

/-- What must be shown of an operation's micro-operations. -/
def MicroStops (i : Instr) (micro : Nat → Locals → State → Result) : Prop :=
  ∀ (s : State) (k : Nat) (loc : Locals),
    (∀ r, micro k loc s ≠ .refused r)
      ∧ ∀ f, micro k loc s = .fault f →
        (f = .noSuchMicroOp ∧ k ≠ 1 ∧ midIndex s.cfg i k = false)
          ∨ (f = .addressOutsideSpace ∧ ∃ n idx, needsBound i = some n ∧ s.slotInSpace n idx = false)

theorem perform_stops (i : Instr) {capture : State → Option Locals}
    {micro : Nat → Locals → State → Result} (hm : MicroStops i micro) (s : State) :
    (∀ r, perform i capture micro s ≠ .refused r)
      ∧ ∀ f, perform i capture micro s = .fault f → StopsBad i s f := by
  rcases perform_cases i capture micro s with ⟨f, hf⟩ | ⟨c, hc, hk⟩ | ⟨hi, loc, -, hk⟩
  · simp [hf]
  · rw [hk]
    refine ⟨(hm s c.k c.loc).1, fun f hf => ?_⟩
    rcases (hm s c.k c.loc).2 f hf with ⟨h1, h2, h3⟩ | h
    · exact .inl ⟨h1, c, hc, h2, h3⟩
    · exact .inr ⟨h.1, .inr (by simp [hc]), h.2⟩
  · rw [hk]
    refine ⟨(hm (s.enter loc) 1 loc).1, fun f hf => ?_⟩
    rcases (hm (s.enter loc) 1 loc).2 f hf with ⟨-, h2, -⟩ | h
    · exact absurd rfl h2
    · exact .inr ⟨h.1, .inl hi, by simpa using h.2⟩

theorem atomically_stops {i : Instr} {act : Locals → State → Result}
    (h0 : ∀ c k, k ≠ 1 → midIndex c i k = false)
    (h : ∀ loc s, ∃ t, act loc s = .next t) : MicroStops i (atomically act) := by
  intro s k loc
  unfold atomically
  split
  · obtain ⟨t, ht⟩ := h loc s
    simp [ht]
  · rename_i hk
    have hk : k ≠ 1 := hk
    simp [h0 s.cfg k hk, hk]

theorem readReg_answers {α : Type} (s : State) (reg : Option α) (use : α → State) :
    ∃ t, s.readReg reg use = .next t := by
  unfold State.readReg
  split <;> exact ⟨_, rfl⟩

/-- A step of an operation is never refused, and stops only in the two ways of `StopsBad`. -/
theorem exec_stops (i : Instr) (s : State) :
    (∀ r, exec i s ≠ .refused r) ∧ ∀ f, exec i s = .fault f → StopsBad i s f := by
  have take : ∀ n op, needsBound op = some n → (∀ c k, midIndex c op k = (k == 2 || k == 3 || k == 4)) →
      MicroStops op (takeMicro n) := by
    intro n op hn hk s k loc
    unfold takeMicro
    split
    · simp
    · simp only
      split <;> simp
    · split
      · rename_i hs
        have hx : ∃ idx, s.slotInSpace n idx = false := ⟨loc.r, hs⟩
        simp [hn, hx]
      · split <;> simp
    · simp
    · simp_all
  have query : ∀ n op f, (∀ c k, midIndex c op k = (k == 2)) → MicroStops op (queryMicro n f) := by
    intro n op f hk s k loc
    unfold queryMicro
    split <;> simp_all
  have clock : ∀ op use, (∀ c k, midIndex c op k = (c.tick64 && (k == 1 || k == 2 || k == 3))) →
      MicroStops op (clockReadMicro use) := by
    intro op use hk s k loc
    unfold clockReadMicro
    split
    · unfold clockRead64
      split
      · simp
      · simp
      · split <;> simp
      · simp_all
    · unfold clockRead32
      split <;> simp_all
  cases i with
  | fifoInit i len =>
    simp only [exec, execFifoInit]
    refine perform_stops (.fifoInit i len) (atomically_stops (fun _ _ _ => rfl) fun loc s => ?_) s
    split <;> exact ⟨_, rfl⟩
  | fifoPush i src =>
    simp only [exec, execFifoPush]
    refine perform_stops (.fifoPush i src) (fun s k loc => ?_) s
    unfold pushMicro
    split
    · simp only
      split
      · simp
      · split
        · rename_i hs
          have hx : ∃ idx, s.slotInSpace i idx = false := ⟨_, hs⟩
          simp [needsBound, hx]
        · simp
    · simp
    · simp_all [midIndex]
  | fifoPop i =>
    simp only [exec, execFifoPop]
    exact perform_stops (.fifoPop i) (take i _ rfl fun _ _ => rfl) s
  | fifoDrop i =>
    simp only [exec, execFifoDrop]
    exact perform_stops (.fifoDrop i) (take i _ rfl fun _ _ => rfl) s
  | fifoIsfull i =>
    simp only [exec, execFifoIsfull]
    exact perform_stops (.fifoIsfull i) (query i _ _ fun _ _ => rfl) s
  | fifoIsempty i =>
    simp only [exec, execFifoIsempty]
    exact perform_stops (.fifoIsempty i) (query i _ _ fun _ _ => rfl) s
  | fifoRegwaker i tok =>
    simp only [exec, execFifoRegwaker]
    exact perform_stops (.fifoRegwaker i tok) (atomically_stops (fun _ _ _ => rfl) fun _ _ => ⟨_, rfl⟩) s
  | fifoWake i =>
    simp only [exec, execFifoWake]
    refine perform_stops (.fifoWake i) (atomically_stops (fun _ _ _ => rfl) fun loc s => ?_) s
    split <;> exact ⟨_, rfl⟩
  | tickInc =>
    have e : execTickInc s = perform .tickInc captureNone (fun k loc u =>
        if u.cfg.tickSplit then tickSplitMicro k loc u else tickAtomicMicro k loc u) s := by
      unfold execTickInc perform
      cases hsp : s.cfg.tickSplit <;> simp [hsp]
    show (∀ r, execTickInc s ≠ _) ∧ ∀ f, execTickInc s = _ → _
    rw [e]
    refine perform_stops .tickInc (fun s k loc => ?_) s
    cases hsp : s.cfg.tickSplit with
    | false =>
      simp only [Bool.false_eq_true, if_false]
      unfold tickAtomicMicro atomically
      split
      · simp
      · simp_all [midIndex]
    | true =>
      simp only [if_true]
      unfold tickSplitMicro
      split
      · simp only
        split <;> simp
      · simp
      · simp
      · simp_all [midIndex]
  | tickNow =>
    simp only [exec, execTickNow]
    exact perform_stops .tickNow (clock _ _ fun _ _ => rfl) s
  | tickElapsed src =>
    simp only [exec, execTickElapsed]
    exact perform_stops (.tickElapsed src) (clock _ _ fun _ _ => rfl) s
  | alarmSet tok =>
    simp only [exec, execAlarmSet]
    exact perform_stops (.alarmSet tok) (atomically_stops (fun _ _ _ => rfl) fun _ _ => ⟨_, rfl⟩) s
  | alarmCheck =>
    simp only [exec, execAlarmCheck]
    exact perform_stops .alarmCheck (atomically_stops (fun _ _ _ => rfl) fun _ _ => ⟨_, rfl⟩) s
  | seqLda imm =>
    simp only [exec, execSeqLda]
    exact perform_stops (.seqLda imm) (atomically_stops (fun _ _ _ => rfl) fun _ _ => ⟨_, rfl⟩) s
  | seqLdah imm =>
    simp only [exec, execSeqLdah]
    exact perform_stops (.seqLdah imm) (atomically_stops (fun _ _ _ => rfl) fun _ s => readReg_answers s _ _) s
  | seqAdda simm =>
    simp only [exec, execSeqAdda]
    exact perform_stops (.seqAdda simm) (atomically_stops (fun _ _ _ => rfl) fun _ s => readReg_answers s _ _) s
  | seqMova =>
    simp only [exec, execSeqMova]
    exact perform_stops .seqMova (atomically_stops (fun _ _ _ => rfl) fun _ s => readReg_answers s _ _) s
  | seqJ simm =>
    simp only [exec, execSeqJ]
    exact perform_stops (.seqJ simm) (atomically_stops (fun _ _ _ => rfl) fun _ _ => ⟨_, rfl⟩) s
  | seqBp simm =>
    simp only [exec, execSeqBp]
    exact perform_stops (.seqBp simm) (atomically_stops (fun _ _ _ => rfl) fun _ s => readReg_answers s _ _) s
  | seqBnp simm =>
    simp only [exec, execSeqBnp]
    exact perform_stops (.seqBnp simm) (atomically_stops (fun _ _ _ => rfl) fun _ s => readReg_answers s _ _) s
  | seqHalt =>
    simp only [exec, execSeqHalt]
    exact perform_stops .seqHalt (atomically_stops (fun _ _ _ => rfl) fun _ _ => ⟨_, rfl⟩) s

/-! ### What every step leaves -/

theorem SharedEffect.keeps {s s' : State} {op : Instr} (h : SharedEffect s op s') :
    s'.cfg = s.cfg ∧ s'.prog = s.prog ∧ s'.moves = s.moves ∧ s'.actor = s.actor
      ∧ s'.choiceNo = s.choiceNo ∧ s'.agent = s.agent ∧ s'.fault = s.fault ∧ s'.hostDone = s.hostDone := by
  have check : ∀ u : State, u.alarmCheck.cfg = u.cfg ∧ u.alarmCheck.prog = u.prog
      ∧ u.alarmCheck.moves = u.moves ∧ u.alarmCheck.actor = u.actor
      ∧ u.alarmCheck.choiceNo = u.choiceNo ∧ u.alarmCheck.agent = u.agent
      ∧ u.alarmCheck.fault = u.fault ∧ u.alarmCheck.hostDone = u.hostDone := by
    intro u
    rcases u.alarmCheck_cases with ⟨-, h⟩ | ⟨-, h⟩ <;> simp [h]
  cases h with
  | whole =>
    have tick : s.tickWhole.cfg = s.cfg ∧ s.tickWhole.prog = s.prog ∧ s.tickWhole.moves = s.moves
        ∧ s.tickWhole.actor = s.actor ∧ s.tickWhole.choiceNo = s.choiceNo
        ∧ s.tickWhole.agent = s.agent ∧ s.tickWhole.fault = s.fault
        ∧ s.tickWhole.hostDone = s.hostDone := by
      unfold State.tickWhole
      split <;> simp
    unfold State.checkIfPresent
    split
    · have := check s.tickWhole
      simp only [tick] at this
      exact this
    · exact tick
  | check op h => exact check s
  | arm tok ts =>
    rcases s.alarmRegister_cases ts tok with ⟨-, h⟩ | ⟨-, -, h⟩ | ⟨-, -, h⟩ <;> simp [h]
  | _ => simp

/-- No operation writes another agent's record, a parameter, a program or what the host does next. -/
theorem exec_keeps {op : Instr} {s t : State} (h : exec op s = .next t) :
    (∀ b : AgentId, b ≠ s.actor → t.agent[b] = s.agent[b])
      ∧ t.cfg = s.cfg ∧ t.prog = s.prog ∧ t.moves = s.moves ∧ t.actor = s.actor
      ∧ t.hostDone = s.hostDone := by
  rcases exec_effect h with ⟨f, rfl⟩ | ⟨-, s', x, hs, -, rfl⟩
  · exact ⟨fun b hb => s.agent_raise_other f hb, rfl, rfl, rfl, rfl, rfl⟩
  · obtain ⟨h1, h2, h3, h4, -, h6, -, h8⟩ := hs.keeps
    refine ⟨fun b hb => ?_, h1, h2, h3, h4, h8⟩
    rw [State.agent_setMe_other _ _ (by rw [h4]; exact hb), h6]

end Sys2Proof.Machine
end

