-- ==== Sys2Proof/Laws/Frame.lean ====
section
/-! SUPPORT. What steps leave unchanged, in the form the invariants and frames cite. -/

namespace Sys2Proof.Machine

/-! ### What an operation leaves of the shared state -/

theorem inst_of_take {op : Instr} {n} (h : op = .fifoPop n ∨ op = .fifoDrop n) : op.inst? = some n := by
  rcases h with rfl | rfl <;> rfl

/-- An operation writes the registers of no instance but the one it names. -/
theorem SharedEffect.fifoAt_other {s s' : State} {op : Instr} (h : SharedEffect s op s') (i : InstId)
    (hi : op.inst? ≠ some i) : s'.fifoAt i = s.fifoAt i := by
  have check : ∀ u : State, u.alarmCheck.fifoAt i = u.fifoAt i := by
    intro u
    rcases u.alarmCheck_cases with ⟨-, h⟩ | ⟨-, h⟩ <;> simp [h]
  cases h with
  | bind j => exact State.fifoAt_setFifo_other _ (by rintro rfl; simp [Instr.inst?] at hi) _
  | publish j => exact State.fifoAt_setFifo_other _ (by rintro rfl; simp [Instr.inst?] at hi) _
  | take op j v ho => exact State.fifoAt_setFifo_other _ (by rintro rfl; simp [inst_of_take ho] at hi) _
  | register j => exact State.fifoAt_setFifo_other _ (by rintro rfl; simp [Instr.inst?] at hi) _
  | notify j => exact State.fifoAt_setFifo_other _ (by rintro rfl; simp [Instr.inst?] at hi) _
  | whole =>
    have tick : s.tickWhole.fifoAt i = s.fifoAt i := by
      unfold State.tickWhole
      split <;> rfl
    unfold State.checkIfPresent
    split
    · rw [check, tick]
    · exact tick
  | check op h => exact check s
  | arm tok ts => rcases s.alarmRegister_cases ts tok with ⟨-, h⟩ | ⟨-, -, h⟩ | ⟨-, -, h⟩ <;> simp [h]
  | _ => rfl

/-- Data memory changes by μ1 of a push alone, and only inside the data space. -/
theorem SharedEffect.mem_cases {s s' : State} {op : Instr} (h : SharedEffect s op s') : s'.mem = s.mem
    ∨ ∃ i src v, op = .fifoPush i src ∧ s.slotInSpace i (s.fifoAt i).wr = true ∧ (s.issues op
    ∨ ∃ loc, s.inside 1 loc) ∧ s' = s.elemWrite i (s.fifoAt i).wr v := by
  have check : ∀ u : State, u.alarmCheck.mem = u.mem := by
    intro u
    rcases u.alarmCheck_cases with ⟨-, h⟩ | ⟨-, h⟩ <;> simp [h]
  cases h with
  | store i src v h1 h2 => exact .inr ⟨i, src, v, rfl, h1, h2, rfl⟩
  | whole =>
    have tick : s.tickWhole.mem = s.mem := by
      unfold State.tickWhole
      split <;> rfl
    unfold State.checkIfPresent
    split
    · left; rw [check, tick]
    · exact .inl tick
  | check op h => exact .inl (check s)
  | arm tok ts => left; rcases s.alarmRegister_cases ts tok with ⟨-, h⟩ | ⟨-, -, h⟩ | ⟨-, -, h⟩ <;> simp [h]
  | _ => exact .inl rfl

theorem State.alarmCheck_keeps (u : State) : u.alarmCheck.lo = u.lo ∧ u.alarmCheck.hi = u.hi
    ∧ u.alarmCheck.cfg = u.cfg := by
  rcases u.alarmCheck_cases with ⟨-, h⟩ | ⟨-, h⟩ <;> simp [h]

theorem State.checkIfPresent_keeps (u : State) : u.checkIfPresent.lo = u.lo ∧ u.checkIfPresent.hi = u.hi
    ∧ u.checkIfPresent.cfg = u.cfg := by
  unfold State.checkIfPresent
  split
  · exact State.alarmCheck_keeps u
  · simp

theorem State.tickWhole_spec (u : State) : u.tickWhole.lo = u.lo + 1 ∧ u.tickWhole.hi = (if u.cfg.tick64
    = true ∧ u.lo = 0xFFFFFFFF then u.hi + 1 else u.hi) ∧ u.tickWhole.cfg = u.cfg := by
  unfold State.tickWhole
  by_cases h : u.cfg.tick64 = true ∧ u.lo = 0xFFFFFFFF
  · have : (u.cfg.tick64 && u.carries) = true := by simp [h.1, u.carries_iff.mpr h.2]
    rw [if_pos this, if_pos h]; simp
  · have : ¬ (u.cfg.tick64 && u.carries) = true := by simpa [u.carries_iff] using h
    rw [if_neg this, if_neg h]; simp

theorem State.alarmDue_iff (s : State) : s.alarmDue = true ↔ s.armed = true
    ∧ s.ts.toNat ≤ s.nowval.toNat := by simp [State.alarmDue]

/-! ### Moves -/

theorem step_legal {s t : State} (h : step s = .next t) : s.cfg.legal = true := by
  unfold step at h
  split at h
  · assumption
  · cases h

/-- Everything a move can be, if it answers a next state. -/
theorem performMove_cases {s t : State} {m : Move} (h : performMove m s = .next t) :
   (∃ a, m = .agent a ∧ s.mayStep a = true ∧ agentStep (s.setActor a) = .next t)
   ∨ (∃ a, m = .trigger a ∧ s.triggerEnabled a = true ∧ t = s.trigger a)
   ∨ (∃ a, m = .trigger a ∧ t = s)
   ∨ (m = .reset ∧ t = s.hostReset) := by
  cases m with
  | agent a =>
    simp only [performMove] at h
    split at h
    · exact .inl ⟨a, rfl, ‹_›, h⟩
    · cases h
  | trigger a =>
    simp only [performMove, hostTrigger] at h
    split at h
    · cases h; exact .inr (.inl ⟨a, rfl, ‹_›, rfl⟩)
    · split at h
      · cases h; exact .inr (.inr (.inl ⟨a, rfl, rfl⟩))
      · cases h
  | reset =>
    cases h
    exact .inr (.inr (.inr ⟨rfl, rfl⟩))

theorem agentStep_keeps {s t : State} (h : agentStep s = .next t) :
    (∀ b : AgentId, b ≠ s.actor → t.agent[b] = s.agent[b])
      ∧ t.cfg = s.cfg ∧ t.prog = s.prog ∧ t.moves = s.moves ∧ t.actor = s.actor
      ∧ t.hostDone = s.hostDone := by
  rcases agentStep_cases s with ⟨f, hf⟩ | ⟨w, i, -, -, -, hf⟩ | ⟨c, i, -, -, hf⟩ | ⟨c, e, -, -, hf⟩ <;>
      rw [hf] at h
  · cases h
    exact ⟨fun b hb => s.agent_raise_other f hb, rfl, rfl, rfl, rfl, rfl⟩
  · exact exec_keeps h
  · exact exec_keeps h
  · cases h

/-! ### Parts that exist -/

theorem Config.hasAgent_fg (c : Config) : c.hasAgent FG = true := by simp [Config.hasAgent, FG]

theorem Config.hasAgent_tmr (c : Config) : c.hasAgent TMR = true := by simp [Config.hasAgent, TMR]

theorem Config.legal_instLegal {c : Config} (hl : c.legal = true) {i : InstId} (h : c.hasInst i
    = true) : c.instLegal i = true := by
  simp only [Config.legal, Bool.and_eq_true, List.all_eq_true] at hl
  have := hl.1.2 i (List.mem_finRange i)
  simpa [h] using this

theorem Config.instLegal_roles {c : Config} {i : InstId} (h : c.instLegal i
    = true) : c.hasAgent c.prod[i] = true ∧ c.prod[i] ≠ FG ∧ c.cons[i] = FG := by
  simp only [Config.instLegal, Config.isInterrupt, Bool.and_eq_true, decide_eq_true_eq] at h
  exact ⟨h.1.1.2.1, h.1.1.2.2, h.1.2⟩

theorem inst_of_role {op : Instr} {i : InstId} (h : roleOf op = .producer i ∨ roleOf op
    = .consumer i) : op.inst? = some i := by
  cases op <;> simp [roleOf, Instr.inst?] at * <;> exact h

/-! ### Loading a word -/

theorem placeWord_get (p : List DWord) (n : Nat) (w : DWord) : (placeWord p n w)[n]? = some w := by
  rw [placeWord, List.getElem?_set_self]
  simp
  omega

theorem Role.allows_agentFor (r : Role) (c : Config) : r.allows c (r.agentFor c) = true := by
  cases r <;> simp [Role.allows, Role.agentFor]

end Sys2Proof.Machine
end

