-- ==== Sys2Proof/Laws/Contents.lean ====
section
/-! SUPPORT. The storage of an instance and what it holds, and runs of one operation with nothing
    between. -/

namespace Sys2Proof.Machine

/-! ### The checks of fifo.init -/

theorem len_of_pow2 (len : Word) (h : ∃ k, len.toNat = 2 ^ k) : len.toNat ≠ 0 ∧ isPow2 len.toNat = true
    ∧ len.toNat ≤ 2 ^ 31 := by
  have hl := len.isLt
  refine ⟨?_, (isPow2_iff (by omega)).mpr h, ?_⟩
  · obtain ⟨k, hk⟩ := h; have := Nat.two_pow_pos k; omega
  · obtain ⟨k, hk⟩ := h
    rw [hk] at hl ⊢
    have := (Nat.pow_lt_pow_iff_right (a := 2) (by decide)).mp hl
    exact Nat.pow_le_pow_right (by decide) (by omega)

/-- Two regions meet exactly when some byte lies in both. -/
theorem State.meetsRegion_iff (s : State) (i : InstId) (b n : Nat) (j : InstId) :
   s.meetsRegion i b n j = true ↔ j ≠ i ∧ s.cfg.hasInst j = true ∧ (s.fifoAt j).bound = true
       ∧ ∃ y, b ≤ y ∧ y < b + n ∧ (s.fifoAt j).base.toNat ≤ y ∧ y < (s.fifoAt j).base.toNat +
       (s.fifoAt j).len.toNat * s.esizeAt j := by
  simp only [State.meetsRegion, Bool.and_eq_true, decide_eq_true_eq, and_assoc]
  refine and_congr_right fun _ => and_congr_right fun _ => and_congr_right fun _ => ?_
  constructor
  · intro h; exact ⟨max b (s.fifoAt j).base.toNat, by omega⟩
  · rintro ⟨y, h⟩; omega

/-! ### Slots -/

theorem Config.instLegal_esize {c : Config} {i : InstId} (h : c.instLegal i = true) : c.esize[i] = 1
    ∨ c.esize[i] = 2 ∨ c.esize[i] = 4 := by
  simp only [Config.instLegal, Bool.and_eq_true, Bool.or_eq_true, beq_iff_eq] at h
  tauto

theorem State.storageOk.slot_add {s : State} {i : InstId} (h : s.storageOk i) (idx : Word) (n : Nat) :
    (idx + BitVec.ofNat 32 n).toNat % (s.fifoAt i).len.toNat = (idx.toNat + n) %
    (s.fifoAt i).len.toNat := by
  rw [BitVec.toNat_add, Nat.mod_mod_of_dvd _ h.len_dvd, BitVec.toNat_ofNat, Nat.add_mod,
      Nat.mod_mod_of_dvd _ h.len_dvd, ← Nat.add_mod]

/-- Two indices less than LEN(i) apart have slots that share no byte. -/
theorem State.storageOk.slots_apart {s : State} {i : InstId} (h : s.storageOk i) (idx : Word)
    {a b : Nat} (hab : a < b) (hb : b < a + (s.fifoAt i).len.toNat) :
   s.slotAddr i (idx + BitVec.ofNat 32 a) + s.esizeAt i ≤ s.slotAddr i (idx + BitVec.ofNat 32 b)
       ∨ s.slotAddr i (idx + BitVec.ofNat 32 b) + s.esizeAt i ≤ s.slotAddr i (idx + BitVec.ofNat 32 a) := by
  simp only [State.slotAddr, State.storageOk.slot_add h]
  have hp := h.len_pos
  generalize (s.fifoAt i).len.toNat = n at *
  have hne : (idx.toNat + a) % n ≠ (idx.toNat + b) % n := by
    intro e
    have e' := (Nat.modEq_iff_dvd' (n := n) (a := idx.toNat + a) (b := idx.toNat + b) (by omega)).mp e
    obtain ⟨c, hc⟩ := e'
    have : b - a = n * c := by omega
    rcases c with _ | c
    · omega
    · rw [Nat.mul_add] at this; omega
  generalize (idx.toNat + a) % n = p at *
  generalize (idx.toNat + b) % n = q at *
  rcases Nat.lt_or_gt_of_ne hne with h | h
  · left
    have := Nat.mul_le_mul_right (s.esizeAt i) (show p + 1 ≤ q by omega)
    rw [Nat.add_mul, Nat.one_mul] at this; omega
  · right
    have := Nat.mul_le_mul_right (s.esizeAt i) (show q + 1 ≤ p by omega)
    rw [Nat.add_mul, Nat.one_mul] at this; omega

/-- A read of an unwritten byte is no read. -/
theorem memRead_none {m : List Host.Cell} {n a j : Nat} (hj : j < n) (h : memGet m (a + j)
    = none) : memRead m a n = none := by
  induction n generalizing a j with
  | zero => omega
  | succ n ih =>
    simp only [memRead]
    cases j with
    | zero => simp at h; simp [h]
    | succ j =>
      rw [ih (a := a + 1) (j := j) (by omega) (by rw [← h]; congr 1; omega)]
      cases memGet m a <;> rfl

theorem cutElem_lt {c : Config} {i : InstId} (h : c.instLegal i = true) (x : DWord) :
    (cutElem c.esize[i] x).toNat < 2 ^ (8 * c.esize[i]) := by
  rcases Config.instLegal_esize h with h | h | h <;> rw [h] <;> simp [cutElem] <;> omega

/-! ### Contents -/

theorem State.elemRead_congr {s t : State} {i : InstId} {idx : Word} (hc : t.cfg = s.cfg) (hb :
    (t.fifoAt i).base = (s.fifoAt i).base) (hl : (t.fifoAt i).len = (s.fifoAt i).len)
   (hm : memRead t.mem (s.slotAddr i idx) (s.esizeAt i) = memRead s.mem (s.slotAddr i idx)
       (s.esizeAt i)) : t.elemRead i idx = s.elemRead i idx := by
  simp only [State.elemRead, State.slotAddr, State.esizeAt, hc, hb, hl] at *
  rw [hm]

theorem State.rd_add_count {s : State} {i} : (s.fifoAt i).rd + BitVec.ofNat 32 (s.count i).toNat =
    (s.fifoAt i).wr := by
  simp only [State.count]; rw [BitVec.ofNat_toNat, BitVec.setWidth_eq]; bv_omega

theorem State.contents_push {s t : State} {i : InstId} {v : Word} (hst : s.storageOk i)
    (hce : v.toNat < 2 ^ (8 * s.esizeAt i))
    (hcfg : t.cfg = s.cfg) (hf : t.fifoAt i = { s.fifoAt i with wr := (s.fifoAt i).wr + 1 })
    (hm : t.mem = memWrite s.mem (s.slotAddr i (s.fifoAt i).wr) (s.esizeAt i) v.toNat)
    (hc : (s.count i).toNat < (s.fifoAt i).len.toNat) :
    t.contents i = s.contents i ++ [some v] := by
  have hcnt : t.count i = s.count i + 1 := by
    simp only [State.count, hf]; bv_omega
  have hcn : (s.count i + 1).toNat = (s.count i).toNat + 1 := by
    have := (s.fifoAt i).len.isLt; bv_omega
  have hread : ∀ idx, t.elemRead i idx = (memRead t.mem (s.slotAddr i idx) (s.esizeAt i)).map
      (BitVec.ofNat 32) := by
    intro idx; simp [State.elemRead, State.slotAddr, State.esizeAt, hf, hcfg]
  simp only [State.contents]
  rw [hcnt, hcn, List.range_succ, List.map_append, hf]
  congr 1
  · apply List.map_congr_left
    intro j hj
    rw [List.mem_range] at hj
    rw [hread, hm, memRead_memWrite_apart]
    · rfl
    have := State.storageOk.slots_apart hst (s.fifoAt i).rd (a := j) (b := (s.count i).toNat) hj (by omega)
    rw [State.rd_add_count] at this
    omega
  · simp only [List.map_cons, List.map_nil, State.rd_add_count, hread, hm, memRead_memWrite_same,
      Nat.mod_eq_of_lt hce]
    simp

theorem State.contents_congr {s t : State} {i : InstId} (hc : t.cfg = s.cfg) (hf : t.fifoAt i = s.fifoAt i)
    (hm : ∀ idx, memRead t.mem (s.slotAddr i idx) (s.esizeAt i) = memRead s.mem (s.slotAddr i idx)
        (s.esizeAt i)) :
    t.contents i = s.contents i := by
  simp only [State.contents, State.count, State.elemRead, State.slotAddr, State.esizeAt, hc, hf] at *
  simp only [hm]

theorem State.regionsOk_congr {s t : State} (hc : t.cfg = s.cfg) (hf : ∀ j, (t.fifoAt j).bound =
    (s.fifoAt j).bound ∧ (t.fifoAt j).base = (s.fifoAt j).base ∧ (t.fifoAt j).len = (s.fifoAt j).len)
    (h : s.regionsOk) : t.regionsOk := by
  have e : ∀ j, t.storageOk j ↔ s.storageOk j := by
    intro j
    obtain ⟨h1, h2, h3⟩ := hf j
    simp only [State.storageOk, State.esizeAt, h2, h3, hc]
  refine ⟨fun i hb => ?_, fun i j hij hbi hbj => ?_⟩
  · rw [(hf i).1] at hb
    rw [e, hc]
    exact h.1 i hb
  · rw [(hf i).1] at hbi
    rw [(hf j).1] at hbj
    have := h.2 i j hij hbi hbj
    simp only [State.apart, State.esizeAt, (hf i).2.1, (hf i).2.2, (hf j).2.1, (hf j).2.2, hc] at this ⊢
    exact this

/-! ### One operation with no other step between -/

@[simp] theorem Agent.mid_mid (x : Agent) (w w' k k' l l') : (x.mid w k l).mid w' k' l'
    = x.mid w' k' l' := rfl

theorem execAlone_next {i : Instr} {s t : State} (h : exec i s = .next t) (n : Nat) :
    execAlone i (n + 1) s = execAlone i n t := by simp [execAlone, h]

theorem runAlone_next {i : Instr} {n : Nat} {rest} {s t : State} (h : execAlone i n s
    = .next t) : runAlone ((i, n) :: rest) s = runAlone rest t := by
  simp [runAlone, h]

theorem State.opWord_mid (s : State) (k loc) : (s.setMe (s.me.mid s.opWord k loc)).opWord = s.opWord := by
  rw [State.opWord_inside (c := ⟨s.opWord, k, loc⟩) (by simp [Agent.mid])]

theorem State.inside_mid (s : State) (x : Agent) (w k loc) : (s.setMe
    (x.mid w k loc)).inside k loc := ⟨w, by simp [Agent.mid]⟩

theorem exec_take {i : InstId} {op : Instr} {s : State} (h : op = .fifoPop i ∨ op
    = .fifoDrop i) : exec op s = perform op captureNone (takeMicro i) s := by
  rcases h with rfl | rfl <;> rfl

end Sys2Proof.Machine
end

