-- ==== Sys2Proof/Laws/Encoding.lean ====
section
/-! SUPPORT. The fields of an encoded word are the fields it was made from, and what the decoder accepts. -/

namespace Sys2Proof

theorem Bool.toNat_le_one (b : Bool) : b.toNat ≤ 1 := by cases b <;> simp

section MkWord
variable {opc : Nat} (h : opc < 256) (i : InstId) (src : Bool) (imm : Word)
include h

theorem mkWord_toNat :
    (mkWord opc i src imm).toNat = imm.toNat * 2 ^ 32 + src.toNat * 2 ^ 12 + i.val * 2 ^ 8 + opc := by
  have h1 := imm.isLt
  have h2 := i.isLt
  have h3 := Bool.toNat_le_one src
  simp only [mkWord, BitVec.toNat_ofNat]
  omega

theorem opcField_mkWord : opcField (mkWord opc i src imm) = BitVec.ofNat 8 opc := by
  simp only [opcField, mkWord_toNat h]
  congr 1
  omega

theorem instField_mkWord : instField (mkWord opc i src imm) = i := by
  have h2 := i.isLt
  have h3 := Bool.toNat_le_one src
  apply Fin.ext
  simp only [instField, mkWord_toNat h, Fin.ofNat]
  omega

theorem srcField_mkWord : srcField (mkWord opc i src imm) = src := by
  have h2 := i.isLt
  simp only [srcField, mkWord_toNat h]
  cases src
  · simp only [Bool.toNat_false, beq_eq_false_iff_ne, ne_eq]; omega
  · simp only [Bool.toNat_true, beq_iff_eq]; omega

theorem rsvField_mkWord : rsvField (mkWord opc i src imm) = 0 := by
  have h2 := i.isLt
  have h3 := Bool.toNat_le_one src
  simp only [rsvField, mkWord_toNat h]
  omega

theorem immField_mkWord : immField (mkWord opc i src imm) = imm := by
  have h1 := imm.isLt
  have h2 := i.isLt
  have h3 := Bool.toNat_le_one src
  apply BitVec.eq_of_toNat_eq
  simp only [immField, mkWord_toNat h, BitVec.toNat_ofNat]
  omega

end MkWord

/-- A word is made of its fields: with no reserved bit set, `mkWord` gives it back. -/
theorem mkWord_fields {w : DWord} (h : rsvField w = 0) :
    mkWord (opcField w).toNat (instField w) (srcField w) (immField w) = w := by
  have hw := w.isLt
  apply BitVec.eq_of_toNat_eq
  have hs : (srcField w).toNat = w.toNat / 2 ^ 12 % 2 := by
    simp only [srcField]
    rcases Nat.mod_two_eq_zero_or_one (w.toNat / 2 ^ 12) with h | h <;> rw [h] <;> rfl
  simp only [rsvField] at h
  simp only [mkWord, hs, opcField, instField, immField, Fin.ofNat, BitVec.toNat_ofNat]
  omega

theorem Instr.opc_lt (i : Instr) : i.opc < 256 := by cases i <;> simp [Instr.opc]

/-! ### The decoder, row by row -/

/-- A word whose row does not reject it decodes to what the row builds. -/
theorem decode_of_row {c : Config} {w : DWord} {r : OpcodeRow}
    (h : opcodeMap.find? (fun r => r.opc == opcField w) = some r) (hr : r.reject c w = none) :
    decode c w = .ok (r.build (instField w) (operandField w) (immField w)) := by
  simp only [decode, h, hr]

/-- A word that decodes has a row that does not reject it. -/
theorem row_of_decode {c : Config} {w : DWord} {i : Instr} (h : decode c w = .ok i) :
    ∃ r, opcodeMap.find? (fun r => r.opc == opcField w) = some r ∧ r.reject c w = none
      ∧ i = r.build (instField w) (operandField w) (immField w) := by
  simp only [decode] at h
  split at h
  · cases h
  · rename_i r hr
    split at h
    · cases h
    · rename_i hn
      cases h
      exact ⟨r, hr, hn, rfl⟩

/-- What a row accepts: none of the conditions 2 to 7 of R86. -/
theorem reject_none_iff {r : OpcodeRow} {c : Config} {w : DWord} :
    r.reject c w = none ↔ rsvField w = 0 ∧ (r.isFifo = true → c.hasInst (instField w) = true)
      ∧ (r.isFifo = false → instField w = 0) ∧ (srcField w = true → r.takesSrc = true)
      ∧ (immField w ≠ 0 → r.takesImm = true ∧ srcField w = false)
      ∧ (r.needsAlarm = true → c.alarmEn = true) := by
  simp only [OpcodeRow.reject]
  generalize rsvField w = a
  generalize instField w = b
  generalize srcField w = d
  generalize immField w = e
  cases r.isFifo <;> cases r.takesSrc <;> cases r.takesImm <;> cases r.needsAlarm <;> cases d <;>
    cases c.alarmEn <;> cases c.hasInst b <;> by_cases ha : a = 0 <;> by_cases hb : b = 0 <;>
    by_cases he : e = 0#32 <;> simp [ha, hb, he]

theorem mem_opcodeMap {r : OpcodeRow} {w : DWord}
    (h : opcodeMap.find? (fun r => r.opc == opcField w) = some r) :
    r ∈ opcodeMap ∧ r.opc = opcField w :=
  ⟨List.mem_of_find?_eq_some h, by simpa using List.find?_some h⟩

end Sys2Proof
end

