-- ==== Sys2Proof/Laws/PerInstr.lean ====
section
/-! SUPPORT. The per-instruction family `Encoding`: the fields of each operation's command word (spec/30_encoding.md
rules R80, R82, R84, R88). -/

namespace Sys2Proof.Laws.Encoding

/-- The word of an operation carries its OPC, its instance (0 for none), its SRC and IMM, and no reserved bit; and OPC
alone names its row of the opcode map. -/
def Statement (i : Instr) : Prop :=
  opcField (encode i) = BitVec.ofNat 8 i.opc
    ∧ instField (encode i) = i.inst?.getD 0
    ∧ srcField (encode i) = i.src
    ∧ immField (encode i) = i.immBits
    ∧ rsvField (encode i) = 0
    ∧ ∃ r, opcodeMap.find? (fun r => r.opc == opcField (encode i)) = some r
        ∧ r.isFifo = i.inst?.isSome
        ∧ r.needsAlarm = i.isAlarm
        ∧ (i.src = true → r.takesSrc = true)
        ∧ (i.immBits ≠ 0 → r.takesImm = true ∧ i.src = false)
        ∧ r.build (i.inst?.getD 0) (if i.src then .regA else .imm i.immBits) i.immBits = i

/-- The part of the statement that does not depend on the operation. -/
theorem fields_of_encode (i : Instr) :
    opcField (encode i) = BitVec.ofNat 8 i.opc
      ∧ instField (encode i) = i.inst?.getD 0
      ∧ srcField (encode i) = i.src
      ∧ immField (encode i) = i.immBits
      ∧ rsvField (encode i) = 0 :=
  ⟨opcField_mkWord i.opc_lt _ _ _, instField_mkWord i.opc_lt _ _ _, srcField_mkWord i.opc_lt _ _ _,
    immField_mkWord i.opc_lt _ _ _, rsvField_mkWord i.opc_lt _ _ _⟩

/-- The statement follows from the row the opcode map gives the operation's OPC. -/
theorem of_row {i : Instr} (r : OpcodeRow)
    (h : opcodeMap.find? (fun r => r.opc == BitVec.ofNat 8 i.opc) = some r)
    (h1 : r.isFifo = i.inst?.isSome) (h2 : r.needsAlarm = i.isAlarm)
    (h3 : i.src = true → r.takesSrc = true) (h4 : i.immBits ≠ 0 → r.takesImm = true ∧ i.src = false)
    (h5 : r.build (i.inst?.getD 0) (if i.src then .regA else .imm i.immBits) i.immBits = i) :
    Statement i := by
  obtain ⟨f1, f2, f3, f4, f5⟩ := fields_of_encode i
  exact ⟨f1, f2, f3, f4, f5, r, by rw [f1]; exact h, h1, h2, h3, h4, h5⟩

theorem fifoInit (i : InstId) (len : Word) : Statement (.fifoInit i len) :=
  of_row ⟨0x10, true, false, true, false, fun i _ v => .fifoInit i v⟩
    rfl rfl rfl (by simp [Instr.src]) (by simp [Instr.src, Instr.immBits]) rfl

theorem fifoPush (i : InstId) (src : Operand) : Statement (.fifoPush i src) := by
  cases src <;>
    exact of_row ⟨0x11, true, true, true, false, fun i o _ => .fifoPush i o⟩
      rfl rfl rfl (by simp [Instr.src, Operand.src])
      (by simp [Instr.src, Operand.src, Instr.immBits, Operand.immBits]) rfl

theorem fifoPop (i : InstId) : Statement (.fifoPop i) :=
  of_row ⟨0x12, true, false, false, false, fun i _ _ => .fifoPop i⟩
    rfl rfl rfl (by simp [Instr.src]) (by simp [Instr.src, Instr.immBits]) rfl

theorem fifoDrop (i : InstId) : Statement (.fifoDrop i) :=
  of_row ⟨0x13, true, false, false, false, fun i _ _ => .fifoDrop i⟩
    rfl rfl rfl (by simp [Instr.src]) (by simp [Instr.src, Instr.immBits]) rfl

theorem fifoIsfull (i : InstId) : Statement (.fifoIsfull i) :=
  of_row ⟨0x14, true, false, false, false, fun i _ _ => .fifoIsfull i⟩
    rfl rfl rfl (by simp [Instr.src]) (by simp [Instr.src, Instr.immBits]) rfl

theorem fifoIsempty (i : InstId) : Statement (.fifoIsempty i) :=
  of_row ⟨0x15, true, false, false, false, fun i _ _ => .fifoIsempty i⟩
    rfl rfl rfl (by simp [Instr.src]) (by simp [Instr.src, Instr.immBits]) rfl

theorem fifoRegwaker (i : InstId) (tok : Word) : Statement (.fifoRegwaker i tok) :=
  of_row ⟨0x16, true, false, true, false, fun i _ v => .fifoRegwaker i v⟩
    rfl rfl rfl (by simp [Instr.src]) (by simp [Instr.src, Instr.immBits]) rfl

theorem fifoWake (i : InstId) : Statement (.fifoWake i) :=
  of_row ⟨0x17, true, false, false, false, fun i _ _ => .fifoWake i⟩
    rfl rfl rfl (by simp [Instr.src]) (by simp [Instr.src, Instr.immBits]) rfl

theorem tickInc : Statement (.tickInc) :=
  of_row ⟨0x20, false, false, false, false, fun _ _ _ => .tickInc⟩
    rfl rfl rfl (by simp [Instr.src]) (by simp [Instr.src, Instr.immBits]) rfl

theorem tickNow : Statement (.tickNow) :=
  of_row ⟨0x21, false, false, false, false, fun _ _ _ => .tickNow⟩
    rfl rfl rfl (by simp [Instr.src]) (by simp [Instr.src, Instr.immBits]) rfl

theorem tickElapsed (src : Operand) : Statement (.tickElapsed src) := by
  cases src <;>
    exact of_row ⟨0x22, false, true, true, false, fun _ o _ => .tickElapsed o⟩
      rfl rfl rfl (by simp [Instr.src, Operand.src])
      (by simp [Instr.src, Operand.src, Instr.immBits, Operand.immBits]) rfl

theorem alarmSet (tok : Word) : Statement (.alarmSet tok) :=
  of_row ⟨0x28, false, false, true, true, fun _ _ v => .alarmSet v⟩
    rfl rfl rfl (by simp [Instr.src]) (by simp [Instr.src, Instr.immBits]) rfl

theorem alarmCheck : Statement (.alarmCheck) :=
  of_row ⟨0x29, false, false, false, true, fun _ _ _ => .alarmCheck⟩
    rfl rfl rfl (by simp [Instr.src]) (by simp [Instr.src, Instr.immBits]) rfl

theorem seqLda (imm : Word) : Statement (.seqLda imm) :=
  of_row ⟨0x40, false, false, true, false, fun _ _ v => .seqLda v⟩
    rfl rfl rfl (by simp [Instr.src]) (by simp [Instr.src, Instr.immBits]) rfl

theorem seqLdah (imm : Word) : Statement (.seqLdah imm) :=
  of_row ⟨0x41, false, false, true, false, fun _ _ v => .seqLdah v⟩
    rfl rfl rfl (by simp [Instr.src]) (by simp [Instr.src, Instr.immBits]) rfl

theorem seqAdda (simm : Word) : Statement (.seqAdda simm) :=
  of_row ⟨0x42, false, false, true, false, fun _ _ v => .seqAdda v⟩
    rfl rfl rfl (by simp [Instr.src]) (by simp [Instr.src, Instr.immBits]) rfl

theorem seqMova : Statement (.seqMova) :=
  of_row ⟨0x43, false, false, false, false, fun _ _ _ => .seqMova⟩
    rfl rfl rfl (by simp [Instr.src]) (by simp [Instr.src, Instr.immBits]) rfl

theorem seqJ (simm : Word) : Statement (.seqJ simm) :=
  of_row ⟨0x44, false, false, true, false, fun _ _ v => .seqJ v⟩
    rfl rfl rfl (by simp [Instr.src]) (by simp [Instr.src, Instr.immBits]) rfl

theorem seqBp (simm : Word) : Statement (.seqBp simm) :=
  of_row ⟨0x45, false, false, true, false, fun _ _ v => .seqBp v⟩
    rfl rfl rfl (by simp [Instr.src]) (by simp [Instr.src, Instr.immBits]) rfl

theorem seqBnp (simm : Word) : Statement (.seqBnp simm) :=
  of_row ⟨0x46, false, false, true, false, fun _ _ v => .seqBnp v⟩
    rfl rfl rfl (by simp [Instr.src]) (by simp [Instr.src, Instr.immBits]) rfl

theorem seqHalt : Statement (.seqHalt) :=
  of_row ⟨0x47, false, false, false, false, fun _ _ _ => .seqHalt⟩
    rfl rfl rfl (by simp [Instr.src]) (by simp [Instr.src, Instr.immBits]) rfl

end Sys2Proof.Laws.Encoding
end

