-- ==== Sys2Proof/Tests/Slice0.lean ====
section
/-! SUPPORT. The model's own tests. Expected values are those of spec/95_test_vectors.md
    (its vector ids stand in the
comments) or are worked out by hand from the rules. Then, for every statement with hypotheses, a state
    and operands that
meet them. -/

namespace Sys2Proof.Tests

open Sys2Proof Sys2Proof.Machine

/- One theorem at a time: each waits for the kernel's check of the one before it, so side by side they
    would only
hold threads. -/
set_option Elab.async false

/-! ### Small states -/

/-- The first peripheral interrupt agent (R149). -/
def IRQ0 : AgentId := 2

/-- A RUNNING agent at APC 0 with nothing written. -/
def idle : Agent := Agent.reset .running

/-- The same with A written. -/
def withA (v : DWord) : Agent := { idle with a := some v }

/-- The machine after reset with agent `a` acting and its record `x`. -/
def acting (a : AgentId) (x : Agent) : State := (State.reset.setActor a).setAgent a x

/-- The base state of spec/95 section 2.1: instance 0 at 0x20000000 with LEN 4. -/
def fifo4 (wr rd : Word) : Fifo := ⟨true, 0x20000000, 4, wr, rd, false, 0⟩

/-- Agent `a` acting, instance 0 bound, slots 0 to 3 holding 0x11, 0x22, 0x33, 0x44. -/
def onFifo (a : AgentId) (wr rd : Word) : State :=
  ((acting a idle).setFifo 0 (fifo4 wr rd)).setMem
    [(0x20000000, 0x11), (0x20000001, 0x22), (0x20000002, 0x33), (0x20000003, 0x44)]

/-- TMR acting with the counter and configuration given. -/
def onClock (c : Config) (a : AgentId) (hi lo : Word) : State :=
  { acting a idle with cfg := c, hi := hi, lo := lo }

/-- The acting agent suspended before its operation's `k`-th micro-operation. -/
def suspended (s : State) (k : Nat) (loc : Locals) : State :=
  s.setMe { s.me with ctx := some ⟨s.opWord, k, loc⟩ }

/-- What a result's next state shows through `f`. -/
def see {α : Type} (r : Result) (f : State → α) : Option α :=
  match r with
  | .next t => some (f t)
  | _ => none

/-- The fault code a result's next state has recorded. -/
def codeOf (r : Result) : Option (Option (BitVec 8)) := see r fun t => t.fault.map FaultRecord.fcode

/-- RES and P of the acting agent. -/
def resP (t : State) : Option DWord × Option Bool := (t.me.res, t.me.p)

def no64 : Config := { Config.default with tick64 := false, alarmEn := false }
def noAlarm : Config := { Config.default with alarmEn := false }
def whole64 : Config := { Config.default with tickSplit := false }
def free64 : Config := { Config.default with sched := .free }
def oneFifo : Config := { Config.default with nfifo := 1, alarmEn := false }

/-! ### Well-formedness: each check refuses -/

theorem test_inst_absent : (Instr.fifoPop 2).wellFormed Config.default = false := by decide
theorem test_inst_present : (Instr.fifoPop 1).wellFormed Config.default = true := by decide
theorem test_alarm_absent :
    (Instr.alarmSet 9).wellFormed noAlarm = false ∧ Instr.alarmCheck.wellFormed noAlarm = false := by decide

/-- R17, one configuration for each of its conditions. -/
theorem test_config_refused :
    ({ Config.default with nfifo := 0 } : Config).legal = false
      ∧ ({ Config.default with nfifo := 17 } : Config).legal = false
      ∧ ({ Config.default with nirq := 15 } : Config).legal = false
      ∧ ({ Config.default with esize := Vector.replicate 16 3 } : Config).legal = false
      ∧ ({ Config.default with prod := Vector.replicate 16 FG } : Config).legal = false
      ∧ ({ Config.default with prod := Vector.replicate 16 3 } : Config).legal = false
      ∧ ({ Config.default with cons := Vector.replicate 16 TMR } : Config).legal = false
      ∧ ({ Config.default with tick64 := false } : Config).legal = false := by decide +kernel

theorem test_config_legal :
    Config.default.legal = true ∧ no64.legal = true ∧ noAlarm.legal = true ∧ whole64.legal = true
      ∧ free64.legal = true ∧ oneFifo.legal = true := by decide +kernel

/-! ### Decoding: a word written out from R80 and R84 for every operation -/

theorem test_decode_fifo :
    decode Config.default 0x0000000400000010 = .ok (.fifoInit 0 4)
      ∧ decode Config.default 0x0000004100000011 = .ok (.fifoPush 0 (.imm 0x41))
      ∧ decode Config.default 0x0000000000001111 = .ok (.fifoPush 1 .regA)
      ∧ decode Config.default 0x0000000000000112 = .ok (.fifoPop 1)
      ∧ decode Config.default 0x0000000000000013 = .ok (.fifoDrop 0) := by decide +kernel

theorem test_decode_fifo_rest :
    decode Config.default 0x0000000000000014 = .ok (.fifoIsfull 0)
      ∧ decode Config.default 0x0000000000000115 = .ok (.fifoIsempty 1)
      ∧ decode Config.default 0x0000000700000016 = .ok (.fifoRegwaker 0 7)
      ∧ decode Config.default 0x0000000000000017 = .ok (.fifoWake 0) := by decide +kernel

theorem test_decode_clock :
    decode Config.default 0x0000000000000020 = .ok .tickInc
      ∧ decode Config.default 0x0000000000000021 = .ok .tickNow
      ∧ decode Config.default 0x0000006400000022 = .ok (.tickElapsed (.imm 100))
      ∧ decode Config.default 0x0000000000001022 = .ok (.tickElapsed .regA)
      ∧ decode Config.default 0x0000000900000028 = .ok (.alarmSet 9)
      ∧ decode Config.default 0x0000000000000029 = .ok .alarmCheck := by decide +kernel

theorem test_decode_seq :
    decode Config.default 0x2000000000000040 = .ok (.seqLda 0x20000000)
      ∧ decode Config.default 0x0000000100000041 = .ok (.seqLdah 1)
      ∧ decode Config.default 0xFFFFFFFF00000042 = .ok (.seqAdda 0xFFFFFFFF)
      ∧ decode Config.default 0x0000000000000043 = .ok .seqMova := by decide +kernel

theorem test_decode_seq_rest :
    decode Config.default 0xFFFFFFFE00000044 = .ok (.seqJ 0xFFFFFFFE)
      ∧ decode Config.default 0x0000000300000045 = .ok (.seqBp 3)
      ∧ decode Config.default 0x0000000300000046 = .ok (.seqBnp 3)
      ∧ decode Config.default 0x0000000000000047 = .ok .seqHalt := by decide +kernel

/-- DE1 to DE6. -/
theorem test_decode_rejects_opc_rsv :
    decode oneFifo 0 = .error .unassignedOpc
      ∧ decode oneFifo 0xFFFFFFFFFFFFFFFF = .error .unassignedOpc
      ∧ decode oneFifo 0x18 = .error .unassignedOpc
      ∧ decode oneFifo 0x48 = .error .unassignedOpc
      ∧ decode oneFifo 0x2047 = .error .reservedBits
      ∧ decode oneFifo 0x80000047 = .error .reservedBits := by decide +kernel

/-- DE7 to DE13. -/
theorem test_decode_rejects_fields :
    decode oneFifo 0x112 = .error .instAbsent
      ∧ decode oneFifo 0x120 = .error .instNotTaken
      ∧ decode oneFifo 0x1012 = .error .srcNotTaken
      ∧ decode oneFifo 0x100000012 = .error .immNotTaken
      ∧ decode oneFifo 0x100000021 = .error .immNotTaken
      ∧ decode oneFifo 0x500001011 = .error .immNotTaken
      ∧ decode oneFifo 0x28 = .error .alarmAbsent := by decide +kernel

/-- DE14 to DE16. -/
theorem test_decode_accepts :
    decode oneFifo 0x1011 = .ok (.fifoPush 0 .regA)
      ∧ decode oneFifo 0xFFFFFFFF00000011 = .ok (.fifoPush 0 (.imm 0xFFFFFFFF))
      ∧ decode oneFifo 0x1022 = .ok (.tickElapsed .regA) := by decide +kernel

theorem test_table_word : decodeTableWord 64 0x1011 = some (.fifoPush 0 .regA) := by decide +kernel

/-- R79: the bytes of `fifo.push c0, #0x41`, least significant first. -/
theorem test_program_image :
    programOfBytes [0x11, 0, 0, 0, 0x41, 0, 0, 0] = some [0x0000004100000011] := by decide +kernel

/-! ### One operation each -/

/-- FI1. -/
theorem test_init_binds :
    see (exec (.fifoInit 0 4) (acting FG (withA 0x20000000))) (fun t => t.fifoAt 0)
      = some ⟨true, 0x20000000, 4, 0, 0, false, 0⟩ := by decide +kernel

/-- FI2, FI4, FI11, FI15: F_INIT_TWICE, F_INIT_LEN, F_INIT_RANGE, F_ROLE. -/
theorem test_init_faults :
    codeOf (exec (.fifoInit 0 4) ((acting FG (withA 0x20000000)).setFifo 0 (fifo4 0 0))) = some (some 0x04)
      ∧ codeOf (exec (.fifoInit 0 3) (acting FG (withA 0x100))) = some (some 0x05)
      ∧ codeOf (exec (.fifoInit 0 4) (acting FG (withA 0x100000000))) = some (some 0x07)
      ∧ codeOf (exec (.fifoInit 0 4) (acting IRQ0 (withA 0x100))) = some (some 0x02) := by decide +kernel

/-- FS1: the element is in memory after μ1, WR moves at μ2. -/
theorem test_push_steps :
    see (execAlone (.fifoPush 0 (.imm 0x41)) 1 (onFifo IRQ0 2 0))
        (fun t => (memGet t.mem 0x20000002, (t.fifoAt 0).wr)) = some (some 0x41, 2)
      ∧ see (execAlone (.fifoPush 0 (.imm 0x41)) 2 (onFifo IRQ0 2 0)) (fun t => (t.fifoAt 0).wr)
          = some 3 := by
  decide +kernel

/-- FS3 and FS4: the wrap of the index, and the cut to EW bits. -/
theorem test_push_wraps :
    see (execAlone (.fifoPush 0 (.imm 0x1234)) 2 (onFifo IRQ0 0xFFFFFFFF 0xFFFFFFFE))
      (fun t => (memGet t.mem 0x20000003, (t.fifoAt 0).wr)) = some (some 0x34, 0) := by decide +kernel

/-- FS6: register A, four bytes, little-endian. -/
theorem test_push_regA :
    see (execAlone (.fifoPush 1 .regA) 2
        ((acting IRQ0 (withA 0x1122334455667788)).setFifo 1 ⟨true, 0x200, 2, 0, 0, false, 0⟩))
            (fun t => t.mem)
      = some [(0x200, 0x88), (0x201, 0x77), (0x202, 0x66), (0x203, 0x55)] := by decide +kernel

/-- FP3 and FP5. -/
theorem test_pop_present :
    see (execAlone (.fifoPop 0) 4 (onFifo FG 3 1)) (fun t => (resP t, (t.fifoAt 0).rd))
        = some ((some 0x22, some true), 2)
      ∧ see (execAlone (.fifoPop 0) 4 (onFifo FG 0 0xFFFFFFFF)) (fun t => (resP t, (t.fifoAt 0).rd))
        = some ((some 0x44, some true), 0) := by decide +kernel

/-- FP2: two micro-operations, RD kept. -/
theorem test_pop_absent :
    see (execAlone (.fifoPop 0) 2 (onFifo FG 5 5)) (fun t => (resP t, (t.fifoAt 0).rd))
      = some ((some 0, some false), 5) := by decide +kernel

/-- FD1 and FD2. -/
theorem test_drop :
    see (execAlone (.fifoDrop 0) 4 (onFifo IRQ0 4 0)) (fun t => (resP t, (t.fifoAt 0).rd))
        = some ((some 0x11, some true), 1)
      ∧ see (execAlone (.fifoDrop 0) 2 (onFifo IRQ0 0 0)) resP = some
          (some 0, some false) := by decide +kernel

/-- FQ1, FQ2, FQ3. -/
theorem test_isfull :
    see (execAlone (.fifoIsfull 0) 2 (onFifo FG 6 2)) resP = some (some 1, some true)
      ∧ see (execAlone (.fifoIsfull 0) 2 (onFifo FG 5 2)) resP = some (some 0, some false)
      ∧ see (execAlone (.fifoIsfull 0) 2 (onFifo FG 7 2)) resP = some
          (some 1, some true) := by decide +kernel

/-- FQ5, FQ6. -/
theorem test_isempty :
    see (execAlone (.fifoIsempty 0) 2 (onFifo FG 0x80000000 0x80000000)) resP = some (some 1, some true)
      ∧ see (execAlone (.fifoIsempty 0) 2 (onFifo FG 0 0xFFFFFFFF)) resP = some (some 0, some false) := by
  decide +kernel

/-- FW2. -/
theorem test_regwaker :
    see (exec (.fifoRegwaker 0 9) ((onFifo FG 0 0).setFifo 0 { fifo4 0 0 with wkv := true, wkt := 7 }))
      (fun t => ((t.fifoAt 0).wkv, (t.fifoAt 0).wkt, t.ev)) = some (true, 9, []) := by decide +kernel

/-- FW3, FW4. -/
theorem test_wake :
    see (exec (.fifoWake 0) ((onFifo IRQ0 0 0).setFifo 0 { fifo4 0 0 with wkv := true, wkt := 7 }))
        (fun t => (t.ev, (t.fifoAt 0).wkv, resP t)) = some ([.wake 0 7], false, (some 1, some true))
      ∧ see (exec (.fifoWake 0) (onFifo IRQ0 0 0)) (fun t => (t.ev, resP t)) = some ([],
          (some 0, some false)) := by
  decide +kernel

/-- KI3 and KI4: the split update shows its window, the whole one does not. -/
theorem test_tick_inc :
    see (execAlone .tickInc 1 (onClock noAlarm TMR 2 0xFFFFFFFF)) (fun t => (t.hi, t.lo)) = some (2, 0)
      ∧ see (execAlone .tickInc 2 (onClock noAlarm TMR 2 0xFFFFFFFF)) (fun t => (t.hi, t.lo)) = some (3, 0)
      ∧ see (execAlone .tickInc 1 (onClock whole64 TMR 2 0xFFFFFFFF)) (fun t => (t.hi, t.lo, t.me.apc))
        = some (3, 0, 1) := by decide +kernel

/-- AT2: the alarm fires in the tick that carries into HI. -/
theorem test_tick_inc_fires :
    see (execAlone .tickInc 3 ((onClock Config.default TMR 0 0xFFFFFFFF).setAlarm true 0x100000000 4))
      (fun t => (t.ev, t.armed, t.ts, t.cb)) = some
          ([.fire 4], false, 0xFFFFFFFFFFFFFFFF, 0) := by decide +kernel

/-- KN1, KN2. -/
theorem test_tick_now :
    see (execAlone .tickNow 1 (onClock no64 FG 0 0x1234)) (fun t => t.me.res) = some (some 0x1234)
      ∧ see (execAlone .tickNow 3 (onClock Config.default FG 1 5)) (fun t => t.me.res)
        = some (some 0x100000005) := by decide +kernel

/-- KN3: the retry, from the read's third micro-operation, after a tick has moved HI from 0 to 1. -/
theorem test_tick_now_retries :
    see (execAlone .tickNow 4 (suspended (onClock Config.default FG 1 0) 3 Locals.empty))
      (fun t => t.me.res) = some (some 0x100000000) := by decide +kernel

/-- KE2, KE5. -/
theorem test_elapsed_saturates :
    see (execAlone (.tickElapsed (.imm 100)) 3 (onClock Config.default FG 0 50)) (fun t => t.me.res)
        = some (some 0xFFFFFFFFFFFFFFFF)
      ∧ see (execAlone (.tickElapsed (.imm 0xFFFFFFF0)) 1 (onClock no64 FG 0 0x10)) (fun t => t.me.res)
        = some (some 0xFFFFFFFF) := by decide +kernel

/-- KE1, KE6, KE7. -/
theorem test_elapsed_differs :
    see (execAlone (.tickElapsed (.imm 100)) 3 (onClock Config.default FG 0 250)) (fun t => t.me.res)
        = some (some 150)
      ∧ see (execAlone (.tickElapsed .regA) 3 ((onClock Config.default FG 1 5).setMe (withA 0x100000000)))
          (fun t => t.me.res) = some (some 5)
      ∧ see (execAlone (.tickElapsed .regA) 1 ((onClock no64 FG 0 7).setMe (withA 0x100000005)))
          (fun t => t.me.res) = some (some 2) := by decide +kernel

/-- AS1, AS2. -/
theorem test_alarm_set :
    see (exec (.alarmSet 9) ((onClock Config.default FG 0 1000).setMe (withA 1100)))
        (fun t => (t.armed, t.ts, t.cb)) = some (true, 1100, 9)
      ∧ see (exec (.alarmSet 9) ((onClock Config.default FG 0 1000).setMe (withA 1100))) resP
        = some (some 0, some true)
      ∧ see (exec (.alarmSet 9) ((onClock Config.default FG 0 1000).setMe (withA 1000)))
        (fun t => (t.armed, t.ts, resP t)) = some (false, 0xFFFFFFFFFFFFFFFF, (some 1, some false)) := by
  decide +kernel

/-- AS5: BUSY before PAST. -/
theorem test_alarm_busy :
    see (exec (.alarmSet 5) (((onClock Config.default FG 0 1000).setAlarm true 1100 9).setMe (withA 0)))
      (fun t => (t.ts, t.cb, resP t)) = some (1100, 9, (some 2, some false)) := by decide +kernel

/-- AC1, AC2. -/
theorem test_alarm_check :
    see (exec .alarmCheck ((onClock Config.default TMR 0 1099).setAlarm true 1100 9)) (fun t =>
        (t.ev, resP t))
        = some ([], (some 0, some false))
      ∧ see (exec .alarmCheck ((onClock Config.default TMR 0 1100).setAlarm true 1100 9))
        (fun t => (t.ev, t.armed, resP t)) = some ([.fire 9], false,
            (some 1, some true)) := by decide +kernel

/-- SL1, SH1. -/
theorem test_loads :
    see (exec (.seqLda 0x20000000) (acting FG (withA 0xFFFFFFFFFFFFFFFF))) (fun t => t.me.a)
        = some (some 0x20000000)
      ∧ see (exec (.seqLdah 1) (acting FG (withA 0x10))) (fun t => t.me.a) = some (some 0x100000010) := by
  decide +kernel

/-- SA2, SA3, SA6. -/
theorem test_adda :
    see (exec (.seqAdda 0xFFFFFFFF) (acting FG (withA 1))) (fun t => (t.me.a, t.me.p)) = some
        (some 0, some false)
      ∧ see (exec (.seqAdda 0xFFFFFFFF) (acting FG (withA 0))) (fun t => (t.me.a, t.me.p))
        = some (some 0xFFFFFFFFFFFFFFFF, some true)
      ∧ see (exec (.seqAdda 0x80000000) (acting FG (withA 0))) (fun t => (t.me.a, t.me.p))
        = some (some 0xFFFFFFFF80000000, some true) := by decide +kernel

/-- SM1, SM2. -/
theorem test_mova :
    see (exec .seqMova (acting FG { idle with res := some 0x33, p := some false })) (fun t =>
        (t.me.a, resP t))
        = some (some 0x33, (some 0x33, some false))
      ∧ codeOf (exec .seqMova (acting FG idle)) = some (some 0x0C) := by decide +kernel

/-- SJ1, SB1, SB2. -/
theorem test_branches :
    see (exec (.seqJ 0xFFFFFFFE) (acting FG { idle with apc := 5 })) (fun t => t.me.apc) = some 3
      ∧ see (exec (.seqBp 3) (acting FG { idle with apc := 4, p := some true })) (fun t => t.me.apc)
          = some 7
      ∧ see (exec (.seqBp 3) (acting FG { idle with apc := 4, p := some false })) (fun t => t.me.apc)
          = some 5 := by
  decide +kernel

/-- SB3, SB4, SX1. -/
theorem test_bnp_halt :
    see (exec (.seqBnp 3) (acting FG { idle with apc := 4, p := some false })) (fun t => t.me.apc) = some 7
      ∧ see (exec (.seqBnp 3) (acting FG { idle with apc := 4, p := some true })) (fun t => t.me.apc)
          = some 5
      ∧ see (exec .seqHalt (acting FG { idle with apc := 3 })) (fun t => (t.me.run, t.me.apc))
        = some (.halted, 3) := by decide +kernel

/-! ### States and operands that meet the hypotheses of each statement -/

/-- Where a step has a next state, what it shows is what that next state shows. -/
theorem exists_next {α : Type} {r : Result} {f : State → α} {x : α} (h : see r f = some x) :
    ∃ t, r = .next t ∧ f t = x := by
  cases r with
  | next t => exact ⟨t, rfl, Option.some.inj h⟩
  | fault f => cases h
  | refused f => cases h

theorem inside_suspended (s : State) (k : Nat) (loc : Locals) : (suspended s k loc).inside k loc :=
  ⟨s.opWord, by simp [suspended]⟩

/-- Sixteen instances of four-byte elements: the widest configuration. -/
def widest : Config :=
  { Config.default with
    nfifo := 16, nirq := 14, prod := Vector.replicate 16 15, esize := Vector.replicate 16 4 }

/-- The default machine with the program of one agent and the moves given. -/
def scripted (a : AgentId) (p : List DWord) (ms : List Move) : State :=
  { State.reset with prog := State.reset.prog.set a p, moves := ms }

/-- Like `onFifo`, with agent `a`'s program the one word `w`. -/
def programmed (a : AgentId) (w : DWord) (wr rd : Word) : State :=
  { onFifo a wr rd with prog := State.reset.prog.set a [w] }

theorem witness_DecodeOfEncode :
    widest.legal = true ∧ (Instr.fifoInit 15 0xFFFFFFFF).wellFormed widest = true
      ∧ (Instr.fifoPush 15 .regA).wellFormed widest = true
      ∧ (Instr.alarmSet 0xFFFFFFFF).wellFormed widest = true
      ∧ Instr.seqHalt.wellFormed Config.default = true := by decide +kernel

theorem witness_EncodeOfDecode :
    decode widest 0xFFFFFFFF00000F11 = .ok (.fifoPush 15 (.imm 0xFFFFFFFF))
      ∧ decode widest 0x0000000000001F11 = .ok (.fifoPush 15 .regA)
      ∧ decode oneFifo 0x0000000000000047 = .ok .seqHalt := by decide +kernel

/-- Both sides of the boundary of each condition of R86. -/
theorem witness_DecodeRejectsExactlyIllegalWords :
    wordLegal oneFifo 0x17 ∧ ¬ wordLegal oneFifo 0x18 ∧ ¬ wordLegal oneFifo 0x2047
      ∧ ¬ wordLegal oneFifo 0x112 ∧ wordLegal widest 0xF12 ∧ ¬ wordLegal oneFifo 0x120
      ∧ ¬ wordLegal oneFifo 0x1012 ∧ wordLegal oneFifo 0x1011 ∧ ¬ wordLegal oneFifo 0x100000012
      ∧ ¬ wordLegal oneFifo 0x500001011 ∧ ¬ wordLegal oneFifo 0x28 ∧ wordLegal widest 0x28 := by
  refine ⟨?_, ?_, ?_, ?_, ?_, ?_, ?_, ?_, ?_, ?_, ?_, ?_⟩ <;> simp only [wordLegal] <;> decide +kernel

/-- A new operation at its APC, and one in flight. -/
theorem witness_StepRunsDecodedOperation :
    let s := scripted FG [0x47] [.agent FG]
    let r := (suspended (programmed IRQ0 0x4100000011 2 0) 2 Locals.empty)
    (s.cfg.legal = true ∧ s.mayStep FG = true ∧ s.agent[FG].ctx = none
      ∧ (s.setActor FG).fetchWord? = some 0x47 ∧ decode s.cfg 0x47 = .ok .seqHalt)
    ∧ (r.cfg.legal = true ∧ r.mayStep IRQ0 = true ∧ r.agent[IRQ0].ctx = some ⟨0x4100000011, 2, Locals.empty⟩
      ∧ decode r.cfg 0x4100000011 = .ok (.fifoPush 0 (.imm 0x41))) := by decide +kernel

/-- APC below the program, APC at its end, and a word that is illegal at the last index. -/
theorem witness_FetchRaisesPcRangeAndIllegal :
    let s := scripted FG [0x47, 0] [.agent FG]
    let at' := fun n : Int => s.setAgent FG { idle with apc := n }
    s.cfg.legal = true ∧ (∀ n ∈ [(-1 : Int), 1, 2], (at' n).moves = [.agent FG] ∧ (at' n).mayStep FG = true
        ∧ (at' n).agent[FG].ctx = none ∧ (at' n).agent[FG].apc = n)
      ∧ s.prog[FG].length = 2 ∧ s.prog[FG][1]? = some 0 ∧ decode s.cfg 0 = .error .unassignedOpc := by
  decide +kernel

theorem witness_FetchRaisesPcRangeAndIllegal_word : ¬ wordLegal Config.default 0 := by
  simp only [wordLegal]; decide +kernel

theorem witness_DecodeRejectsExactlyIllegalWords_issue :
    let s := scripted FG [0] []
    s.cfg = Config.default ∧ s.me.ctx = none ∧ s.fetchWord? = some 0 ∧ decode s.cfg 0 = .error .unassignedOpc := by
  decide +kernel

theorem witness_RaiseRecordsFaultAndNothingElse :
    (programmed FG 0x12 2 0).actor = FG ∧ FG ≠ IRQ0
      ∧ ∃ t, exec .seqMova (onFifo FG 2 0) = .next t ∧ t.fault ≠ (onFifo FG 2 0).fault := by
  refine ⟨by decide +kernel, by decide, ?_⟩
  obtain ⟨t, h, k⟩ := exists_next (r := exec .seqMova (onFifo FG 2 0)) (f := fun t => t.fault.isSome) (x := true)
    (by decide +kernel)
  exact ⟨t, h, fun e => by rw [e] at k; exact absurd k (by decide +kernel)⟩

/-- A role, a binding and an unwritten register that each fail, with the checks before them passed. -/
theorem witness_IssueChecksInOrder :
    let s := acting IRQ0 idle
    s.me.ctx = none
      ∧ (roleOf (.fifoPop 0)).allows s.cfg s.actor = false
      ∧ ((roleOf (.fifoDrop 0)).allows s.cfg s.actor = true ∧ s.boundOk (.fifoDrop 0) = false)
      ∧ ((roleOf (.seqBp 1)).allows s.cfg s.actor = true ∧ s.boundOk (.seqBp 1) = true
        ∧ readsUnwritten (.seqBp 1) s.me = true)
      ∧ ((onFifo IRQ0 0 0).boundOk (.fifoPush 0 .regA) = true
        ∧ readsUnwritten (.fifoPush 0 .regA) (onFifo IRQ0 0 0).me = true) := by decide +kernel

/-- TMR may issue none of the FIFO operations with a role, and FG none of the timer's; FG raises another fault by an
operation open to every agent. -/
theorem witness_RolesAreEnforced :
    let s := onFifo TMR 0 0
    let f := onFifo FG 0 0
    s.me.ctx = none ∧ s.actor ≠ FG ∧ s.actor ≠ s.cfg.prod[0] ∧ s.actor ≠ s.cfg.cons[0]
      ∧ f.me.ctx = none ∧ f.actor ≠ TMR ∧ f.fault = none
      ∧ codeOf (exec .seqMova f) = some (some 0x0C)
      ∧ codeOf (exec (.fifoIsfull 1) f) = some (some 0x03)
      ∧ codeOf (exec (.fifoInit 0 4) f) = some (some 0x0C)
      ∧ (onFifo IRQ0 4 0).actor = (onFifo IRQ0 4 0).cfg.prod[(0 : InstId)]
      ∧ codeOf (exec (.fifoPush 0 (.imm 1)) (onFifo IRQ0 4 0)) = some (some 0x09)
      ∧ codeOf (exec (.fifoPop 1) f) = some (some 0x03) := by decide +kernel

theorem witness_FaultStopsAllButReset :
    let s := (acting FG idle).raise .pcRange
    s.fault ≠ none ∧ see (step { s with moves := [.reset] }) (fun t => t.fault) = some none
      ∧ (∀ m ∈ [Move.agent FG, .trigger TMR], see (step { s with moves := [m] }) (fun t => t.fault)
          = none) := by
  decide +kernel

/-- One state for each answer of `fifo.init`, at its boundary: the last region that fits, the first that does not,
two regions that touch and two that meet. -/
theorem witness_FifoInitChecksThenBinds :
    let s := (acting FG (withA 0x20000004)).setFifo 0 (fifo4 0 0)
    let r := acting FG (withA 0xFFFFFFFC)
    s.me.ctx = none ∧ s.actor = FG ∧ s.me.a = some 0x20000004 ∧ r.me.a = some 0xFFFFFFFC
      ∧ (s.fifoAt 0).bound = true ∧ (s.fifoAt 1).bound = false
      ∧ s.esizeAt 1 = 4 ∧ (0x20000004 : DWord).toNat % 4 = 0 ∧ (0x20000002 : DWord).toNat % 4 ≠ 0
      ∧ (0xFFFFFFFC : DWord).toNat + 1 * r.esizeAt 1 = 2 ^ 32
      ∧ 2 ^ 32 < (0xFFFFFFFC : DWord).toNat + 2 * r.esizeAt 1
      ∧ (s.fifoAt 0).base.toNat + (s.fifoAt 0).len.toNat * s.esizeAt 0 = 0x20000004 := by decide +kernel

theorem witness_FifoInitChecksThenBinds_lens :
    (∃ k, (1 : Word).toNat = 2 ^ k) ∧ (∃ k, (0x80000000 : Word).toNat = 2 ^ k)
      ∧ ¬ ∃ k, (0 : Word).toNat = 2 ^ k := by
  refine ⟨⟨0, rfl⟩, ⟨31, rfl⟩, ?_⟩
  rintro ⟨k, h⟩
  exact absurd h (Nat.two_pow_pos k).ne

/-- The regions at 0x20000000 (bound) and, of length 4 and element size 4 or 1, at 0x20000004 and 0x1FFFFFF4. -/
theorem witness_FifoInitChecksThenBinds_meets :
    let s := (acting FG (withA 0x1FFFFFF4)).setFifo 0 (fifo4 0 0)
    see (exec (.fifoInit 1 2) (s.setMe (withA 0x20000004))) (fun t => (t.fifoAt 1).base) = some 0x20000004
      ∧ see (exec (.fifoInit 1 2) (s.setMe (withA 0x1FFFFFF8))) (fun t => (t.fifoAt 1).base)
          = some 0x1FFFFFF8
      ∧ codeOf (exec (.fifoInit 1 4) (s.setMe (withA 0x1FFFFFF4))) = some (some 0x08)
      ∧ codeOf (exec (.fifoInit 1 1) (s.setMe (withA 0x20000000))) = some (some 0x08)
      ∧ codeOf (exec (.fifoInit 1 2) (s.setMe (withA 0xFFFFFFFC))) = some (some 0x07)
      ∧ codeOf (exec (.fifoInit 1 2) (s.setMe (withA 0x20000006))) = some (some 0x06) := by decide +kernel

/-- `t` meets `s.issues op`: no context, the role, the binding. -/
theorem issues_of {s : State} {op : Instr}
    (h : s.me.ctx = none ∧ (roleOf op).allows s.cfg s.actor = true ∧ s.boundOk op = true) : s.issues op := h

/-- The regions of the small states: instance 0 alone is bound. -/
theorem onFifo_regionsOk :
    (onFifo FG 3 1).regionsOk ∧ (onFifo IRQ0 2 0).regionsOk ∧ (onFifo IRQ0 4 0).regionsOk := by
  refine ⟨?_, ?_, ?_⟩ <;> unfold State.regionsOk State.storageOk State.apart <;> decide +kernel

/-- Instances 0 and 1 both bound, their regions touching, FG acting. -/
def twoFifos : State :=
  ((onFifo FG 3 1).setFifo 1 ⟨true, 0x20000004, 2, 1, 0, false, 0⟩).setMem
    [(0x20000000, 0x11), (0x20000001, 0x22), (0x20000002, 0x33), (0x20000003, 0x44),
      (0x20000004, 1), (0x20000005, 2), (0x20000006, 3), (0x20000007, 4)]

theorem twoFifos_regionsOk : twoFifos.regionsOk := by
  unfold State.regionsOk State.storageOk State.apart; decide +kernel

/-- One slot free, none free, and the second micro-operation; both operand forms. -/
theorem witness_PushStoresThenPublishes :
    let s := (onFifo IRQ0 3 0).setMe (withA 0x1FF)
    let f := (onFifo IRQ0 4 0).setMe (withA 0x1FF)
    (s.issues (.fifoPush 0 .regA) ∧ operandValue .regA s = some 0x1FF
      ∧ operandValue (.imm 0x41) s = some 0x41 ∧ (s.count 0).toNat + 1 = (s.fifoAt 0).len.toNat)
    ∧ (f.issues (.fifoPush 0 .regA) ∧ (f.count 0).toNat = (f.fifoAt 0).len.toNat)
    ∧ (suspended s 2 Locals.empty).inside 2 Locals.empty := by
  refine ⟨?_, ?_, inside_suspended _ _ _⟩ <;> unfold State.issues <;> decide +kernel

theorem witness_PushStoresThenPublishes_regions : ((onFifo IRQ0 3 0).setMe (withA 0x1FF)).regionsOk := by
  unfold State.regionsOk State.storageOk State.apart; decide +kernel

/-- Full exactly, and full across the wrap of WR. -/
theorem witness_PushIntoFullRaisesOverrun :
    (∀ s ∈ [onFifo IRQ0 4 0, onFifo IRQ0 2 0xFFFFFFFE], s.me.ctx = none
      ∧ (roleOf (.fifoPush 0 (.imm 7))).allows s.cfg s.actor = true ∧ s.boundOk (.fifoPush 0 (.imm 7))
          = true
      ∧ operandValue (.imm 7) s = some 7
      ∧ ((s.fifoAt 0).wr - (s.fifoAt 0).rd).toNat = (s.fifoAt 0).len.toNat) := by decide +kernel

/-- Each micro-operation of `fifo.pop`, on a FIFO with elements, an empty one and one with an unwritten slot. -/
theorem witness_TakeMicroOperations :
    let s := onFifo FG 3 1
    let at1 := ({ Locals.empty with r := 1 } : Locals)
    s.issues (.fifoPop 0) ∧ (onFifo IRQ0 3 1).issues (.fifoDrop 0)
      ∧ ((suspended (onFifo FG 1 1) 2 at1).inside 2 at1 ∧ ((onFifo FG 1 1).fifoAt 0).wr = at1.r)
      ∧ ((suspended s 2 at1).inside 2 at1 ∧ (s.fifoAt 0).wr ≠ at1.r)
      ∧ ((suspended s 3 at1).inside 3 at1 ∧ (suspended s 3 at1).regionsOk
        ∧ (suspended s 3 at1).elemRead 0 at1.r = some 0x22)
      ∧ (suspended s 4 at1).inside 4 at1 := by
  refine ⟨?_, ?_, ⟨inside_suspended _ _ _, ?_⟩, ⟨inside_suspended _ _ _, ?_⟩,
    ⟨inside_suspended _ _ _, ?_, ?_⟩, inside_suspended _ _ _⟩
  case refine_5 => unfold State.regionsOk State.storageOk State.apart; decide +kernel
  all_goals (try unfold State.issues); decide +kernel

/-- The last byte of the element of instance 1 was never written. -/
def holed : State :=
  suspended ((acting FG idle).setFifo 1 ⟨true, 0x200, 2, 1, 0, false, 0⟩ |>.setMem
    [(0x200, 1), (0x201, 2), (0x202, 3)]) 3 Locals.empty

theorem witness_UnwrittenSlotRaisesUninitRead :
    holed.inside 3 Locals.empty ∧ holed.regionsOk ∧ (holed.fifoAt 1).bound = true ∧ 3 < holed.esizeAt 1
      ∧ memGet holed.mem (holed.slotAddr 1 0 + 3) = none ∧ memGet holed.mem (holed.slotAddr 1 0 + 2)
          = some 3
      ∧ holed.elemRead 1 0 = none := by
  refine ⟨inside_suspended _ _ _, ?_, ?_⟩
  · unfold State.regionsOk State.storageOk State.apart; decide +kernel
  · decide +kernel

/-- Empty, and one element left at the last slot. -/
theorem witness_TakeDeliversOldestOrAbsent :
    (onFifo FG 5 5).issues (.fifoPop 0) ∧ (onFifo FG 5 5).count 0 = 0
      ∧ (onFifo FG 3 1).issues (.fifoPop 0) ∧ (onFifo FG 3 1).count 0 ≠ 0
      ∧ (onFifo FG 3 1).elemRead 0 ((onFifo FG 3 1).fifoAt 0).rd = some 0x22
      ∧ (onFifo IRQ0 0 0).issues (.fifoDrop 0) ∧ (onFifo IRQ0 4 0).issues (.fifoDrop 0)
      ∧ (onFifo IRQ0 4 0).elemRead 0 0 = some 0x11 ∧ (onFifo FG 3 1).regionsOk ∧
          (onFifo IRQ0 4 0).regionsOk := by
  refine ⟨?_, ?_, ?_, ?_, ?_, ?_, ?_, ?_, onFifo_regionsOk.1, onFifo_regionsOk.2.2⟩ <;>
    (try unfold State.issues) <;> decide +kernel

/-- Just below full, full, and past full; empty. -/
theorem witness_QueriesAnswerFromTwoLoads :
    (onFifo FG 6 2).issues (.fifoIsfull 0) ∧ (onFifo TMR 6 2).issues (.fifoIsempty 0)
      ∧ (suspended (onFifo FG 6 2) 2 Locals.empty).inside 2 Locals.empty
      ∧ ((6 : Word) - 2).toNat = 4 ∧ ((5 : Word) - 2).toNat < 4 := by
  refine ⟨?_, ?_, inside_suspended _ _ _, ?_⟩ <;> (try unfold State.issues) <;> decide +kernel

/-- An instance with a waker registered. -/
def waiting (a : AgentId) (tok : Word) : State :=
  (onFifo a 0 0).setFifo 0 { fifo4 0 0 with wkv := true, wkt := tok }

theorem witness_RegwakerRegisters :
    (onFifo FG 0 0).issues (.fifoRegwaker 0 9)
      ∧ (waiting FG 9).issues (.fifoRegwaker 0 9)
      ∧ ((waiting FG 9).fifoAt 0).wkv = true ∧ ((waiting FG 9).fifoAt 0).wkt = 9 := by
  unfold State.issues; decide +kernel

theorem witness_WakeTakesAndClears :
    (waiting IRQ0 7).issues (.fifoWake 0) ∧ ((waiting IRQ0 7).fifoAt 0).wkv = true
      ∧ (onFifo IRQ0 0 0).issues (.fifoWake 0) ∧ ((onFifo IRQ0 0 0).fifoAt 0).wkv = false := by
  unfold State.issues; decide +kernel

/-- One state for each of the four outcomes. -/
theorem witness_RegistrationIsNeverLost :
    ((waiting IRQ0 7).fifoAt 0).bound = true ∧ ((waiting IRQ0 7).fifoAt 0).wkv = true
      ∧ see (exec (.fifoPush 0 (.imm 1)) (waiting IRQ0 7)) (fun t => ((t.fifoAt 0).wkv, t.ev)) = some
          (true, [])
      ∧ see (exec (.fifoRegwaker 0 9) (waiting FG 7)) (fun t => (t.fifoAt 0).wkt) = some 9
      ∧ see (exec .alarmCheck ((waiting TMR 7).setAlarm true 0 4)) (fun t => ((t.fifoAt 0).wkv, t.ev))
        = some (true, [.fire 4])
      ∧ see (exec (.fifoWake 0) (waiting IRQ0 7)) (fun t => t.ev) = some [.wake 0 7] := by decide +kernel

/-- IRQ0 asks with three of four slots taken; FG then pops one element before the push. -/
theorem witness_NotFullGuaranteesRoom :
    let s := suspended (onFifo IRQ0 4 1) 2 { Locals.empty with r := 1 }
    let u := onFifo IRQ0 4 2
    s.inside 2 { Locals.empty with r := 1 }
      ∧ (∃ t, exec (.fifoIsfull 0) s = .next t ∧ (t.me.p, (t.fifoAt 0).wr, (t.fifoAt 0).len) =
          (some false, 4, 4))
      ∧ (u.fifoAt 0).wr = 4 ∧ (u.fifoAt 0).len = 4 ∧ (u.fifoAt 0).rd = 1 + 1
      ∧ u.issues (.fifoPush 0 (.imm 7)) ∧ operandValue (.imm 7) u = some 7 := by
  refine ⟨inside_suspended _ _ _, exists_next (by decide +kernel), ?_⟩
  unfold State.issues; decide +kernel

theorem witness_ElementsAreLittleEndian :
    Config.default.instLegal 0 = true ∧ Config.default.instLegal 1 = true
      ∧ Config.default.esize[(1 : InstId)] = 4 := by decide +kernel

/-- The index at its wrap. -/
theorem witness_SlotsAreAlignedAndWrap :
    twoFifos.cfg.legal = true ∧ twoFifos.regionsOk ∧ (twoFifos.fifoAt 1).bound = true
      ∧ (0xFFFFFFFF + 1 : Word).toNat % (twoFifos.fifoAt 1).len.toNat = 0 :=
  ⟨by decide +kernel, twoFifos_regionsOk, by decide +kernel⟩

theorem witness_PushAppendsElement :
    let s := onFifo IRQ0 2 0
    s.cfg.legal = true ∧ s.issues (.fifoPush 0 (.imm 0x41)) ∧ operandValue (.imm 0x41) s = some 0x41
      ∧ (s.count 0).toNat < (s.fifoAt 0).len.toNat ∧ s.regionsOk := by
  refine ⟨?_, ?_, ?_, ?_, onFifo_regionsOk.2.1⟩ <;> (try unfold State.issues) <;> decide +kernel

theorem witness_TakeRemovesHeadElement :
    (onFifo FG 3 1).issues (.fifoPop 0) ∧ (onFifo FG 3 1).contents 0 = [some 0x22, some 0x33]
      ∧ (onFifo IRQ0 4 0).issues (.fifoDrop 0)
      ∧ (onFifo IRQ0 4 0).contents 0 = [some 0x11, some 0x22, some 0x33, some 0x44]
      ∧ (onFifo FG 3 1).regionsOk ∧ (onFifo IRQ0 4 0).regionsOk := by
  refine ⟨?_, ?_, ?_, ?_, onFifo_regionsOk.1, onFifo_regionsOk.2.2⟩ <;> (try unfold State.issues) <;>
    decide +kernel

/-- A pop of instance 0 beside instance 1, whose region touches it. -/
theorem witness_OtherFifosAreUntouched :
    twoFifos.regionsOk ∧ (∃ t, exec (.fifoPop 0) twoFifos = .next t ∧ t.fault = none) ∧
        (twoFifos.fifoAt 1).bound = true
      ∧ (Instr.fifoPop 0).inst? ≠ some 1 ∧ twoFifos.me.ctx = none
      ∧ twoFifos.contents 1 = [some 0x04030201] := by
  refine ⟨twoFifos_regionsOk, exists_next (by decide +kernel), ?_⟩
  decide +kernel

theorem witness_PushEvictReplacesOldest :
    let s := onFifo IRQ0 4 0
    s.cfg.legal = true ∧ s.me.ctx = none ∧ s.actor = s.cfg.prod[(0 : InstId)] ∧ (s.fifoAt 0).bound = true
      ∧ (s.count 0).toNat = (s.fifoAt 0).len.toNat
      ∧ s.contents 0 = some 0x11 :: [some 0x22, some 0x33, some 0x44] ∧ s.regionsOk := by
  refine ⟨?_, ?_, ?_, ?_, ?_, ?_, onFifo_regionsOk.2.2⟩ <;> decide +kernel

/-! Clock, alarm and sequencer -/

def whole32 : Config := { no64 with tickSplit := false }

/-- Each branch of `tick.inc` with TICK_SPLIT true: carry, no carry just below it, no HI; μ2 and μ3. -/
theorem witness_TickIncMicroOperations :
    let loc := { Locals.empty with c := true }
    (∀ s ∈ [onClock Config.default TMR 2 0xFFFFFFFF, onClock Config.default TMR 2 0xFFFFFFFE,
        onClock noAlarm TMR 2 0xFFFFFFFE, onClock no64 TMR 0 0xFFFFFFFF, onClock whole64 TMR 2 0xFFFFFFFF],
      s.me.ctx = none ∧ (roleOf .tickInc).allows s.cfg s.actor = true ∧ s.boundOk .tickInc = true)
    ∧ (suspended (onClock Config.default TMR 2 0) 2 loc).inside 2 loc
    ∧ (suspended (onClock noAlarm TMR 2 0) 2 loc).inside 2 loc
    ∧ (suspended (onClock Config.default TMR 3 0) 3 loc).inside 3 loc := by
  refine ⟨?_, inside_suspended _ _ _, inside_suspended _ _ _, inside_suspended _ _ _⟩
  decide +kernel

/-- The configurations of those states. -/
theorem witness_TickIncMicroOperations_configs :
    (Config.default.tickSplit = true ∧ Config.default.tick64 = true ∧ Config.default.alarmEn = true)
      ∧ (noAlarm.tickSplit = true ∧ noAlarm.tick64 = true ∧ noAlarm.alarmEn = false)
      ∧ (no64.tickSplit = true ∧ no64.tick64 = false ∧ no64.alarmEn = false)
      ∧ whole64.tickSplit = false := by decide +kernel

/-- All 64 bits wrap; 32 bits wrap; an alarm due exactly at the new value, and one due a tick later. -/
theorem witness_TickIncAdvancesCounterByOne :
    let s := (onClock Config.default TMR 0 999).setAlarm true 1000 9
    (onClock Config.default TMR 0xFFFFFFFF 0xFFFFFFFF).issues .tickInc ∧
        (onClock whole32 TMR 0 0xFFFFFFFF).issues .tickInc
      ∧ whole32.legal = true ∧ whole32.tickSplit = false ∧ whole32.tick64 = false
      ∧ s.issues .tickInc ∧ s.cfg.legal = true ∧ s.cfg.alarmEn = true ∧ s.armed = true
      ∧ s.ts.toNat = (s.nowval + 1).toNat
      ∧ (s.nowval + 1).toNat < (s.setAlarm true 1001 9).ts.toNat := by
  unfold State.issues; decide +kernel

/-- One load; the three loads; HI equal and HI moved on at the third. -/
theorem witness_TickNowReadsWithRetry :
    let s := onClock Config.default FG 1 0
    let loc := { Locals.empty with h1 := 1 }
    (onClock no64 FG 0 5).issues .tickNow ∧ s.issues .tickNow
      ∧ (suspended s 1 loc).inside 1 loc ∧ (suspended s 2 loc).inside 2 loc
      ∧ ((suspended s 3 Locals.empty).inside 3 Locals.empty ∧ Locals.empty.h1 ≠ s.hi)
      ∧ ((suspended s 3 loc).inside 3 loc ∧ loc.h1 = s.hi) := by
  refine ⟨?_, ?_, inside_suspended _ _ _, inside_suspended _ _ _, ⟨inside_suspended _ _ _, ?_⟩,
    ⟨inside_suspended _ _ _, ?_⟩⟩ <;> (try unfold State.issues) <;> decide +kernel

/-- A snapshot equal to the counter, one past it, and in 32 bits one whose upper half is cut off. -/
theorem witness_TickElapsedSaturates :
    let s := (onClock Config.default FG 1 5).setMe (withA 0x100000006)
    let r := (onClock no64 FG 0 5).setMe (withA 0x100000005)
    s.issues (.tickElapsed .regA) ∧ operandValue .regA s = some 0x100000006
      ∧ s.nowval.toNat < (0x100000006 : DWord).toNat ∧ (0x100000005 : DWord).toNat = s.nowval.toNat
      ∧ r.issues (.tickElapsed .regA) ∧ (0x100000005 : DWord).toNat % 2 ^ 32 = r.lo.toNat
      ∧ r.issues (.tickElapsed (.imm 6)) ∧ r.lo.toNat < (6 : DWord).toNat % 2 ^ 32 := by
  unfold State.issues; decide +kernel

theorem witness_TickElapsedMicroOperations :
    let s := (onClock Config.default FG 1 5).setMe (withA 7)
    let loc := { Locals.empty with snap := 0x100000005, h1 := 1, l := 5 }
    ((onClock no64 FG 0 5).issues (.tickElapsed (.imm 5))
        ∧ operandValue (.imm 5) (onClock no64 FG 0 5) = some 5)
      ∧ (s.issues (.tickElapsed .regA) ∧ operandValue .regA s = some 7)
      ∧ (suspended s 1 loc).inside 1 loc ∧ (suspended s 2 loc).inside 2 loc
      ∧ ((suspended s 3 Locals.empty).inside 3 Locals.empty ∧ Locals.empty.h1 ≠ s.hi)
      ∧ ((suspended s 3 loc).inside 3 loc ∧ loc.h1 = s.hi
        ∧ loc.snap.toNat = (loc.h1 ++ loc.l).toNat) := by
  refine ⟨?_, ?_, inside_suspended _ _ _, inside_suspended _ _ _, ⟨inside_suspended _ _ _, ?_⟩,
    ⟨inside_suspended _ _ _, ?_⟩⟩ <;> (try unfold State.issues) <;> decide +kernel

theorem witness_TickNowReturnsCounter :
    (onClock Config.default FG 1 5).issues .tickNow ∧ (onClock no64 IRQ0 0 5).issues .tickNow := by
  unfold State.issues; decide +kernel

/-- FG reads while TMR's tick stands between its two words. -/
theorem witness_SplitUpdateWindowRegresses :
    let s := onClock free64 TMR 2 0xFFFFFFFF
    s.cfg.tickSplit = true ∧ s.cfg.tick64 = true ∧ s.lo = 0xFFFFFFFF ∧ s.issues .tickInc
      ∧ (∃ t, exec .tickInc s = .next t ∧ (t.lo, t.hi) = (0, 2)) ∧ FG ≠ s.actor ∧ s.agent[FG].ctx
          = none := by
  refine ⟨?_, ?_, ?_, ?_, exists_next (by decide +kernel), ?_⟩ <;>
      (try unfold State.issues) <;> decide +kernel

/-- Due exactly now, due a tick later, and disarmed. -/
theorem witness_AlarmCheckFiresDueAlarm :
    let s := (onClock Config.default TMR 0 1000).setAlarm true 1000 9
    let r := (onClock Config.default TMR 0 999).setAlarm true 1000 9
    (s.armed = true ∧ s.ts.toNat ≤ s.nowval.toNat) ∧ r.nowval.toNat < r.ts.toNat
      ∧ (onClock Config.default TMR 0 0).armed = false := by decide +kernel

/-- Busy; a timestamp equal to the counter; one tick past it. -/
theorem witness_AlarmSetAcceptsOrRefuses :
    let s := (onClock Config.default FG 0 1000).setMe (withA 1000)
    let r := (onClock Config.default FG 0 999).setMe (withA 1000)
    s.issues (.alarmSet 9) ∧ s.me.a = some 1000 ∧ (s.setAlarm true 5 1).armed = true
      ∧ (s.setAlarm true 5 1).issues (.alarmSet 9)
      ∧ (s.armed = false ∧ s.nowval.toNat = 1000)
      ∧ r.issues (.alarmSet 9) ∧ r.me.a = some 1000 ∧ r.armed = false ∧ r.nowval.toNat + 1 = 1000 := by
  unfold State.issues; decide +kernel

theorem witness_AlarmCheckReportsFiring :
    let s := (onClock Config.default TMR 0 1000).setAlarm true 1000 9
    s.issues .alarmCheck ∧ s.armed = true ∧ s.ts.toNat = s.nowval.toNat
      ∧ ((onClock Config.default TMR 0 999).setAlarm true 1000 9).issues .alarmCheck
      ∧ (onClock Config.default TMR 0 0).armed = false := by
  unfold State.issues; decide +kernel

/-- Accepted at 999 for 1000; checked at 999, then at 1000, then at 0. -/
theorem witness_AcceptedAlarmFiresExactlyOnce :
    let s := onClock Config.default TMR 0 999
    let t := fun lo : Word => ((s.alarmRegister 1000 9).setLo lo).setHi 0
    s.armed = false ∧ s.nowval.toNat < 1000 ∧ (t 999).nowval.toNat < 1000 ∧ 1000 ≤ (t 1000).nowval.toNat
      ∧ (t 1000).alarmCheck.ev = [.fire 9] := by decide +kernel

theorem witness_SequencerLoadsAndAdds :
    (acting FG idle).me.ctx = none ∧ (acting FG (withA 0x7FFFFFFFFFFFFFFF)).me.a = some 0x7FFFFFFFFFFFFFFF
      ∧ (acting FG { idle with res := some 5 }).me.res = some 5
      ∧ (acting FG idle).me.a = none ∧ (acting FG idle).me.res = none := by decide +kernel

/-- P of each value and unwritten, with a branch back past APC 0. -/
theorem witness_BranchesSetApc :
    (∀ b : Bool, (acting FG { idle with p := some b }).me.p = some b
      ∧ (acting FG { idle with p := some b }).me.ctx = none)
      ∧ (acting FG idle).me.p = none ∧ (0x80000000 : Word).toInt = -2 ^ 31 := by decide +kernel

theorem witness_HaltKeepsApcAndRegisters : (acting FG (withA 3)).me.ctx = none := by decide +kernel

/-- IRQ0 inside `fifo.push c0, #0x41`, before its second micro-operation. -/
def midPush : State :=
  { suspended (programmed IRQ0 0x4100000011 2 0) 2 { Locals.empty with v := 0x41, w := 2 } with
    moves := [.agent IRQ0] }

/-- FG inside `fifo.pop c0`, before its fourth micro-operation. -/
def midPop : State :=
  { suspended (programmed FG 0x12 3 1) 4 { Locals.empty with r := 1, w := 3, v := 0x22 } with
    moves := [.agent FG] }

/-- One operation of each kind has a next state, on a state where it writes what it may write. -/
theorem witness_OtherAgentsAreUntouched :
    (∃ t, exec (.fifoPush 0 (.imm 7)) (onFifo IRQ0 2 0) = .next t ∧ t.fault = none)
      ∧ (∃ t, exec .alarmCheck (onClock Config.default TMR 0 5) = .next t ∧ t.fault = none)
      ∧ FG ≠ (onFifo IRQ0 2 0).actor := by
  refine ⟨exists_next (by decide +kernel), exists_next (by decide +kernel), by decide +kernel⟩

/-- An operation that writes none of A, RES, P and RUN, and one that writes each. -/
theorem witness_AgentRegistersFrame :
    (∃ t, exec (.fifoRegwaker 0 9) (onFifo FG 0 0) = .next t ∧ t.fault = none)
      ∧ (∃ t, exec (.seqLda 9) (onFifo FG 0 0) = .next t ∧ t.me.a = some 9)
      ∧ (∃ t, exec (.fifoWake 0) (onFifo IRQ0 0 0) = .next t ∧ resP t = (some 0, some false))
      ∧ (∃ t, exec .seqHalt (onFifo FG 0 0) = .next t ∧ t.me.run = .halted) := by
  refine ⟨exists_next ?_, exists_next ?_, exists_next ?_, exists_next ?_⟩ <;> decide +kernel

theorem witness_AgentRegistersFrame_writes :
    ¬ writesA (.fifoRegwaker 0 9) ∧ ¬ writesRes (.fifoRegwaker 0 9) ∧ ¬ writesP (.fifoRegwaker 0 9)
      ∧ writesA (.seqLda 9) ∧ ¬ writesRes (.seqLda 9) := by
  simp [writesA, writesRes, writesP]

theorem witness_ClockAlarmAndEventsFrame :
    (∃ t, exec .tickInc (onClock Config.default TMR 0 5) = .next t ∧ t.lo = 6)
      ∧ (∃ t, exec .alarmCheck ((onClock Config.default TMR 0 5).setAlarm true 5 9) = .next t ∧ t.ev =
          [.fire 9])
      ∧ (∃ t, exec (.fifoWake 0) (waiting IRQ0 7) = .next t ∧ t.ev = [.wake 0 7])
      ∧ (∃ t, exec .seqMova (onFifo FG 0 0) = .next t ∧ t.fault.isSome = true) := by
  refine ⟨exists_next ?_, exists_next ?_, exists_next ?_, exists_next ?_⟩ <;> decide +kernel

theorem witness_FifoRegistersFrame :
    (∃ t, exec (.fifoPush 0 (.imm 0x41)) (suspended (onFifo IRQ0 2 0) 2 { Locals.empty with w := 2 })
        = .next t
        ∧ (t.fifoAt 0).wr = 3)
      ∧ (∃ t, exec (.fifoPop 0) (suspended (onFifo FG 3 1) 4 { Locals.empty with r := 1 }) = .next t
        ∧ (t.fifoAt 0).rd = 2)
      ∧ (∃ t, exec (.fifoRegwaker 0 9) (onFifo FG 0 0) = .next t ∧ (t.fifoAt 0).wkt = 9)
      ∧ (∃ t, exec (.fifoWake 0) (waiting IRQ0 7) = .next t ∧ (t.fifoAt 0).wkv = false)
      ∧ (∃ t, exec (.fifoIsempty 0) (onFifo TMR 0 0) = .next t ∧ t.me.ctx.isSome = true) := by
  refine ⟨exists_next ?_, exists_next ?_, exists_next ?_, exists_next ?_, exists_next ?_⟩ <;> decide +kernel

/-- The store of μ1, the bytes beside it, and μ2, which stores nothing. -/
theorem witness_OnlyPushWritesItsSlot :
    let s := onFifo IRQ0 1 0
    (∃ t, exec (.fifoPush 0 (.imm 7)) s = .next t
        ∧ (memGet t.mem 0x20000000, memGet t.mem 0x20000001, memGet t.mem 0x20000002)
          = (some 0x11, some 7, some 0x33))
      ∧ s.slotAddr 0 (s.fifoAt 0).wr = 0x20000001 ∧ s.esizeAt 0 = 1
      ∧ (∃ t, exec (.fifoPush 0 (.imm 7)) (suspended s 2 Locals.empty) = .next t ∧ t.mem = s.mem)
      ∧ (suspended s 2 Locals.empty).me.ctx = some ⟨0, 2, Locals.empty⟩ := by
  refine ⟨exists_next ?_, ?_, ?_, exists_next ?_, ?_⟩ <;> decide +kernel

/-- FG alone RUNNING; FG with IRQ0 RUNNING, which PREEMPT forbids and FREE allows; an agent that does not exist. -/
theorem witness_SchedulingPolicy :
    (acting FG idle).mayStep FG = true ∧ (acting IRQ0 idle).mayStep FG = false
      ∧ (acting IRQ0 idle).mayStep IRQ0 = true
      ∧ { acting IRQ0 idle with cfg := free64 }.mayStep FG = true
      ∧ (acting 3 idle).mayStep 3 = false ∧ ((acting FG idle).raise .illegal).mayStep FG = false := by
  decide +kernel

/-- HALTED; RUNNING; a fault recorded; HALTED with a context, which no run reaches. -/
theorem witness_TriggerStartsActivation :
    let s := scripted FG [] [.trigger IRQ0]
    s.cfg.legal = true ∧ s.moves = [.trigger IRQ0] ∧ s.cfg.hasAgent IRQ0 = true
      ∧ (s.agent[IRQ0].run = .halted ∧ s.agent[IRQ0].ctx = none ∧ s.fault = none)
      ∧ (s.setAgent IRQ0 idle).agent[IRQ0].run = .running
      ∧ (s.raise .pcRange).fault ≠ none
      ∧ (let u := s.setAgent IRQ0 { s.agent[IRQ0] with ctx := some ⟨0, 1, Locals.empty⟩ }
        u.agent[IRQ0].run = .halted ∧ u.agent[IRQ0].ctx ≠ none) := by decide +kernel

/-- RESET amid a push, with an event, an alarm and a fault. -/
theorem witness_ResetRestoresEverything :
    let s := { (((midPush.emit (.fire 1)).setAlarm true 5 9).raise .overrun) with moves := [.reset] }
    s.cfg.legal = true ∧ s.moves = [.reset] ∧ s.mem ≠ [] ∧ s.ev ≠ [] ∧ s.fault ≠ none
      ∧ TMR ≠ FG ∧ s.cfg.hasAgent TMR = true := by decide +kernel

theorem witness_FreeChoiceIsEnabled :
    State.reset.cfg.legal = true ∧ State.reset.moves = []
      ∧ (State.reset.raise .pcRange).moves = [] ∧
          (State.reset.raise .pcRange).fault ≠ none := by decide +kernel

/-- Every agent HALTED at the end of its program, and a host that triggers no more agents. -/
def ended : State := { State.reset with agent := Vector.replicate 16 (Agent.reset .halted), hostDone := true }

/-- A run ends well there, before a RESET too; not while the host may still trigger an agent. -/
theorem witness_FreeChoiceIsEnabled_ends :
    ended.cfg.legal = true ∧ ended.endsWell ∧ { ended with moves := [.reset] }.endsWell
      ∧ (∃ t, step { ended with moves := [.reset] } = .next t ∧ t.agent[FG].run = .running)
      ∧ ¬ { ended with hostDone := false }.endsWell ∧ ¬ { ended with moves := [.trigger TMR] }.endsWell := by
  refine ⟨by decide +kernel, ?_, ?_, exists_next (by decide +kernel), by simp [State.endsWell],
    by simp [State.endsWell]⟩
  · exact ⟨rfl, by decide +kernel, by simp [ended, State.reset, State.powerOn], rfl⟩
  · exact ⟨rfl, by decide +kernel, by simp, rfl⟩

/-- What the free choice has there: RESET alone; with a host that may trigger, the three TRIGGERs too. -/
theorem test_offered_moves :
    ended.offeredMoves = [.reset]
      ∧ { ended with hostDone := false }.offeredMoves
        = [.reset, .trigger FG, .trigger TMR, .trigger IRQ0] := by decide +kernel

theorem witness_AgentStepsAreNeverRefused :
    (midPush.cfg.legal = true ∧ midPush.moves = [.agent IRQ0] ∧ midPush.mayStep IRQ0 = true)
      ∧ { State.reset with cfg := { Config.default with nfifo := 0 } }.cfg.legal
          = false := by decide +kernel

theorem witness_ParametersAreFixed : ∃ t, step midPush = .next t ∧ (t.fifoAt 0).wr = 3 :=
  exists_next (by decide +kernel)

/-- A step that appends, and a RESET that empties. -/
theorem witness_EventHistoryOnlyGrows :
    let s := { (waiting IRQ0 7) with prog := State.reset.prog.set IRQ0 [0x17], moves :=
        [.agent IRQ0, .reset] }
    s.moves = [.agent IRQ0, .reset] ∧ (∃ t, step s = .next t ∧ t.ev = [.wake 0 7])
      ∧ (∃ t, step { s.emit (.fire 1) with moves := [.reset] } = .next t ∧ t.ev = []) := by
  refine ⟨by decide +kernel, exists_next (by decide +kernel), exists_next (by decide +kernel)⟩

/-- A word that FG may issue, one that IRQ0 alone may and one that TMR alone may. -/
theorem witness_PlacedWordRunsNext :
    State.reset.cfg.legal = true ∧ decode State.reset.cfg (BitVec.ofNat 64 0x47) = .ok .seqHalt
      ∧ decode State.reset.cfg (BitVec.ofNat 64 0x1111) = .ok (.fifoPush 1 .regA)
      ∧ decode State.reset.cfg (BitVec.ofNat 64 0x20) = .ok .tickInc
      ∧ see (step (State.reset.withFetchWord 64 0x20)) (fun t => (t.actor, t.lo)) = some (TMR, 1)
      ∧ see (step (State.reset.withFetchWord 64 0x2100000040)) (fun t => t.me.a) = some (some 0x21) := by
  decide +kernel

theorem witness_InvariantHoldsAtReset : widest.legal = true ∧ whole32.legal = true := by decide +kernel

/-- The parts of the invariant that are finite checks. -/
theorem inv_of {s : State} (hr : s.regionsOk) (hc : s.ctxOk) (ha : s.absentOk)
    (h : s.cfg.legal = true ∧ Memory.wf s.mem = true
      ∧ (∀ i, (s.fifoAt i).bound = false → s.fifoAt i = Fifo.reset)
      ∧ (s.armed = false → s.ts = max64 ∧ s.cb = 0)) : s.Inv :=
  ⟨h.1, h.2.1, hr, h.2.2.1, h.2.2.2, ha, hc⟩

/-- The one context in flight is that of agent `a`. -/
theorem ctxOk_of {s : State} {a : AgentId} {c : Ctx} (h : ∀ b, s.agent[b].ctx = if b
    = a then some c else none)
    (hc : s.ctxGood a c) : s.ctxOk := by
  intro b d hd
  rw [h b] at hd
  split at hd
  · next hb => exact hb ▸ Option.some.inj hd ▸ hc
  · cases hd

theorem midPush_inv : midPush.Inv := by
  refine inv_of ?_ (ctxOk_of (a := IRQ0) (c := ⟨0x4100000011, 2,
      { Locals.empty with v := 0x41, w := 2 }⟩) ?_
    ⟨?_, ?_, .fifoPush 0 (.imm 0x41), ?_⟩) ?_ ?_
  · unfold State.regionsOk State.storageOk State.apart; decide +kernel
  all_goals (try unfold State.absentOk); decide +kernel

theorem midPop_inv : midPop.Inv := by
  refine inv_of ?_ (ctxOk_of (a := FG) (c := ⟨0x12, 4, { Locals.empty with r := 1, w := 3, v := 0x22 }⟩) ?_
    ⟨?_, ?_, .fifoPop 0, ?_⟩) ?_ ?_
  · unfold State.regionsOk State.storageOk State.apart; decide +kernel
  all_goals (try unfold State.absentOk); decide +kernel

theorem witness_StepKeepsInvariant :
    midPush.Inv ∧ (∃ t, step midPush = .next t ∧ (t.fifoAt 0).wr = 3)
      ∧ midPop.Inv ∧ (∃ t, step midPop = .next t ∧ (t.fifoAt 0).rd = 2) :=
  ⟨midPush_inv, exists_next (by decide +kernel), midPop_inv, exists_next (by decide +kernel)⟩

theorem witness_StepKeepsMemoryCanonical :
    let s := { programmed IRQ0 0x4100000011 3 0 with moves := [.agent IRQ0] }
    s.memOk ∧ ∃ t, step s = .next t ∧ memGet t.mem 0x20000003 = some 0x41 := by
  refine ⟨?_, exists_next (by decide +kernel)⟩
  unfold State.memOk; decide +kernel

theorem witness_NoStepStopsUnderInvariant :
    midPush.Inv ∧ midPop.Inv ∧ ∃ t, step midPush = .next t ∧ t.fault = none :=
  ⟨midPush_inv, midPop_inv, exists_next (by decide +kernel)⟩

/-- A step that moves WR, by the producer, and one that moves RD, by the consumer. -/
theorem witness_OnlyTheRolesMoveTheIndices :
    (midPush.Inv ∧ midPush.moves = [.agent IRQ0] ∧ (midPush.fifoAt 0).bound = true
        ∧ ∃ t, step midPush = .next t ∧ (t.fifoAt 0).wr ≠ (midPush.fifoAt 0).wr)
      ∧ midPop.Inv ∧ midPop.moves = [.agent FG] ∧ (midPop.fifoAt 0).bound = true
        ∧ ∃ t, step midPop = .next t ∧ (t.fifoAt 0).rd ≠ (midPop.fifoAt 0).rd := by
  refine ⟨⟨midPush_inv, ?_, ?_, ?_⟩, midPop_inv, ?_, ?_, ?_⟩
  case refine_3 =>
    obtain ⟨t, h, k⟩ := exists_next (r := step midPush) (f := fun t => (t.fifoAt 0).wr) (x := 3)
        (by decide +kernel)
    exact ⟨t, h, by rw [k]; decide +kernel⟩
  case refine_6 =>
    obtain ⟨t, h, k⟩ := exists_next (r := step midPop) (f := fun t => (t.fifoAt 0).rd) (x := 2)
        (by decide +kernel)
    exact ⟨t, h, by rw [k]; decide +kernel⟩
  all_goals decide +kernel

theorem witness_OnlyTimerWritesTheClock :
    midPop.Inv ∧ midPop.moves = [.agent FG] ∧ (∃ t, step midPop = .next t ∧ t.fault = none) ∧ FG ≠ TMR :=
  ⟨midPop_inv, by decide +kernel, exists_next (by decide +kernel), by decide⟩

/-! ### The assembler (R88, R89) -/

/-- The listing forms of R88: a comment, a label, a relative branch, a negative immediate, a pseudo-instruction. -/
theorem test_assemble :
    assemble Config.default
        ["seq.lda #0x20000000", "L: fifo.pop c0 ; take", "seq.bnp .+3", "seq.adda #-1", " seq.j L",
            "seq.nop"]
      = some [0x2000000000000040, 0x12, 0x300000046, 0xFFFFFFFF00000042, 0xFFFFFFFD00000044,
          0x100000044] := by
  decide +kernel

/-- R88: a label is `name:` at the start of a line, so what follows an operation is none. -/
theorem test_label_at_start :
    assemble Config.default ["seq.nop L:"] = none ∧ assemble Config.default [" L: seq.nop"] = none
      ∧ assemble Config.default [": seq.nop"] = none
      ∧ assemble Config.default ["L:", "M: seq.j L"] = some [0x44] := by decide +kernel

end Sys2Proof.Tests
end

namespace Sys2Proof.Machine

/-! ### Steps that are never refused, and the configurations that have steps (R17, R49, R70) -/

/-- What an agent's step does, fetch included, is never a refusal. -/
theorem agentStep_ne_refused (s : State) (r : Refusal) : agentStep s ≠ .refused r := by
  rcases agentStep_cases s with ⟨f, h⟩ | ⟨w, i, -, -, -, h⟩ | ⟨c, i, -, -, h⟩ | ⟨c, e, -, -, h⟩ <;> rw [h]
  · nofun
  · exact (exec_stops i s).1 r
  · exact (exec_stops i s).1 r
  · nofun

/-- Taking a move off the script does not change who may step, so the step is the agent's own. -/
theorem step_agent_ne_refused {s : State} {a : AgentId} {ms : List Move} (hl : s.cfg.legal = true)
    (hm : s.moves = .agent a :: ms) (ha : s.mayStep a = true) (r : Refusal) : step s ≠ .refused r := by
  rw [step_scripted hl hm, performMove_agent (show ({ s with moves := ms } : State).mayStep a = true from ha)]
  exact agentStep_ne_refused _ r

/-- An interrupt agent is TMR or an IRQk below NIRQ, which has id `k + 2` (R6, R149). -/
theorem Config.isInterrupt_iff (c : Config) (a : AgentId) :
    c.isInterrupt a = true ↔ a = TMR ∨ ∃ k, k < c.nirq ∧ a.val = k + 2 := by
  simp only [Config.isInterrupt, Config.hasAgent, Bool.and_eq_true, decide_eq_true_eq, ne_eq, Fin.ext_iff]
  show a.val < c.nirq + 2 ∧ ¬ a.val = 0 ↔ a.val = 1 ∨ ∃ k, k < c.nirq ∧ a.val = k + 2
  constructor
  · rintro ⟨hlt, h0⟩
    by_cases h1 : a.val = 1
    · exact .inl h1
    · exact .inr ⟨a.val - 2, by omega, by omega⟩
  · rintro (h1 | ⟨k, hk, he⟩) <;> omega

/-- R8 and R15 for one FIFO. FG is no interrupt agent, so `PROD ≠ CONS` follows from the rest. -/
theorem Config.instLegal_iff (c : Config) (i : InstId) :
    c.instLegal i = true ↔
      (c.esize[i] = 1 ∨ c.esize[i] = 2 ∨ c.esize[i] = 4)
        ∧ (c.prod[i] = TMR ∨ ∃ k, k < c.nirq ∧ c.prod[i].val = k + 2) ∧ c.cons[i] = FG := by
  rw [← Config.isInterrupt_iff]
  simp only [Config.instLegal, Bool.and_eq_true, Bool.or_eq_true, beq_iff_eq, decide_eq_true_eq, or_assoc]
  constructor
  · rintro ⟨⟨⟨he, hp⟩, hc⟩, -⟩
    exact ⟨he, hp, hc⟩
  · rintro ⟨he, hp, hc⟩
    have hne : c.prod[i] ≠ FG := by
      simp only [Config.isInterrupt, Bool.and_eq_true, decide_eq_true_eq] at hp
      exact hp.2
    exact ⟨⟨⟨he, hp⟩, hc⟩, hc ▸ hne⟩

/-- R17 in terms of its conditions on each FIFO that exists. -/
theorem Config.legal_iff (c : Config) :
    c.legal = true ↔
      (1 ≤ c.nfifo ∧ c.nfifo ≤ 16) ∧ c.nirq ≤ 14
        ∧ (∀ i : InstId, i.val < c.nfifo → c.instLegal i = true)
        ∧ (c.alarmEn = true → c.tick64 = true) := by
  have himp : ∀ p q : Bool, (!p || q) = true ↔ (p = true → q = true) := by decide
  simp only [Config.legal, Config.hasInst, Bool.and_eq_true, decide_eq_true_eq, List.all_eq_true,
    List.mem_finRange, true_implies, himp, and_assoc]

/-- FREE restricts no agent further (R70). -/
theorem State.mayStep_free {s : State} {a : AgentId} (h : s.mayStep a = true) :
    { s with cfg := { s.cfg with sched := .free } }.mayStep a = true := by
  simp only [State.mayStep, Bool.and_eq_true] at h ⊢
  obtain ⟨hrunnable, -⟩ := h
  exact ⟨hrunnable, rfl⟩

/-- Settles O51: an operation's step is never a refusal (`exec_stops`), R17 is read off its definition FIFO by
FIFO, and only the policy's condition differs between PREEMPT and FREE. -/
theorem agentStepsAreNeverRefused : Obligations.AgentStepsAreNeverRefused := by
  intro s
  refine ⟨fun a ms r hl hm ha => step_agent_ne_refused hl hm ha r, step_illegal, fun c => ?_,
    fun a => State.mayStep_free⟩
  simp only [Config.legal_iff, Config.instLegal_iff]

end Sys2Proof.Machine

namespace Sys2Proof.Machine

/-! ### What an operation's step does to the shared state (R30 to R38) -/

/-- Seen from outside the agents' records and FAULT, every step of an operation is one of its shared effects:
a raise counts as `unchanged`. -/
theorem exec_shared {op : Instr} {s t : State} (h : exec op s = .next t) :
    ∃ s', SharedEffect s op s' ∧ t.fifo = s'.fifo ∧ t.lo = s'.lo ∧ t.hi = s'.hi ∧ t.armed = s'.armed
      ∧ t.ts = s'.ts ∧ t.cb = s'.cb ∧ t.ev = s'.ev ∧ t.mem = s'.mem := by
  rcases exec_effect h with ⟨f, rfl⟩ | ⟨-, s', x, hs, -, rfl⟩
  · exact ⟨s, .unchanged op, rfl, rfl, rfl, rfl, rfl, rfl, rfl, rfl⟩
  · exact ⟨s', hs, rfl, rfl, rfl, rfl, rfl, rfl, rfl, rfl⟩

/-- AlarmCheck within `tick.inc`, where ALARM_EN holds, or nothing (R103). -/
theorem State.checkIfPresent_cases (u : State) : u.checkIfPresent = u.alarmCheck ∨ u.checkIfPresent = u := by
  unfold State.checkIfPresent
  split
  · exact .inl rfl
  · exact .inr rfl

/-- The increment leaves the alarm slot and EV (R103). -/
theorem State.tickWhole_keeps (u : State) : u.tickWhole.armed = u.armed ∧ u.tickWhole.ts = u.ts
    ∧ u.tickWhole.cb = u.cb ∧ u.tickWhole.ev = u.ev := by
  unfold State.tickWhole
  split <;> simp

/-- A registration leaves the clock and EV (R110). -/
theorem State.alarmRegister_keeps (u : State) (ts : DWord) (tok : Word) :
    (u.alarmRegister ts tok).lo = u.lo ∧ (u.alarmRegister ts tok).hi = u.hi
      ∧ (u.alarmRegister ts tok).ev = u.ev := by
  rcases u.alarmRegister_cases ts tok with ⟨-, h⟩ | ⟨-, -, h⟩ | ⟨-, -, h⟩ <;> simp [h]

/-- The clock is written by `tick.inc` alone, and HI only where its carry is stored (R30, R31, R103). -/
theorem SharedEffect.clock_cases {s s' : State} {op : Instr} (h : SharedEffect s op s') :
    (s'.lo = s.lo ∧ s'.hi = s.hi)
      ∨ op = .tickInc ∧ (s'.hi = s.hi ∨ s.cfg.tick64 = true ∨ ∃ loc, s.inside 2 loc) := by
  cases h with
  | low => exact .inr ⟨rfl, .inl rfl⟩
  | high loc h => exact .inr ⟨rfl, .inr (.inr ⟨loc, h⟩)⟩
  | whole =>
    refine .inr ⟨rfl, ?_⟩
    rw [s.tickWhole.checkIfPresent_keeps.2.1, s.tickWhole_spec.2.1]
    split
    · next hc => exact .inr (.inl hc.1)
    · exact .inl rfl
  | check => exact .inl ⟨s.alarmCheck_keeps.1, s.alarmCheck_keeps.2.1⟩
  | arm tok ts =>
    obtain ⟨hlo, hhi, -⟩ := s.alarmRegister_keeps ts tok
    exact .inl ⟨hlo, hhi⟩
  | _ => exact .inl ⟨rfl, rfl⟩

/-- The slot that AlarmCheck leaves: as it was, or cleared (R109). -/
theorem State.alarmCheck_slot (u : State) :
    (u.alarmCheck.armed = u.armed ∧ u.alarmCheck.ts = u.ts ∧ u.alarmCheck.cb = u.cb)
      ∨ (u.alarmCheck.armed = false ∧ u.alarmCheck.ts = max64 ∧ u.alarmCheck.cb = 0) := by
  rcases u.alarmCheck_cases with ⟨-, h⟩ | ⟨-, h⟩ <;> rw [h]
  · exact .inr ⟨rfl, rfl, rfl⟩
  · exact .inl ⟨rfl, rfl, rfl⟩

/-- The alarm slot is kept, cleared by an AlarmCheck, or, while disarmed, armed or given TS = MAX_64 by
`alarm.set` (R33 to R35, R109, R110). -/
theorem SharedEffect.alarmSlot_cases {s s' : State} {op : Instr} (h : SharedEffect s op s') :
    (s'.armed = s.armed ∧ s'.ts = s.ts ∧ s'.cb = s.cb)
      ∨ ((op = .tickInc ∨ op = .alarmCheck) ∧ s'.armed = false ∧ s'.ts = max64 ∧ s'.cb = 0)
      ∨ (∃ tok, op = .alarmSet tok) ∧ s.armed = false
        ∧ (s'.armed = true ∨ s'.armed = false ∧ s'.ts = max64 ∧ s'.cb = s.cb) := by
  cases h with
  | whole =>
    obtain ⟨harmed, hts, hcb, -⟩ := s.tickWhole_keeps
    rcases s.tickWhole.checkIfPresent_cases with he | he <;> rw [he, ← harmed, ← hts, ← hcb]
    · exact s.tickWhole.alarmCheck_slot.imp_right fun hclear => .inl ⟨.inl rfl, hclear⟩
    · exact .inl ⟨rfl, rfl, rfl⟩
  | check op ho => exact s.alarmCheck_slot.imp_right fun hclear => .inl ⟨ho, hclear⟩
  | arm tok ts =>
    rcases s.alarmRegister_cases ts tok with ⟨-, h⟩ | ⟨ha, -, h⟩ | ⟨ha, -, h⟩ <;> rw [h]
    · exact .inl ⟨rfl, rfl, rfl⟩
    · exact .inr (.inr ⟨⟨tok, rfl⟩, ha, .inr ⟨rfl, rfl, rfl⟩⟩)
    · exact .inr (.inr ⟨⟨tok, rfl⟩, ha, .inl rfl⟩)
  | _ => exact .inl ⟨rfl, rfl, rfl⟩

/-- AlarmCheck appends one Fire or nothing (R109). -/
theorem State.alarmCheck_ev (u : State) : u.alarmCheck.ev = u.ev ∨ ∃ e, u.alarmCheck.ev = u.ev ++ [e] := by
  rcases u.alarmCheck_cases with ⟨-, h⟩ | ⟨-, h⟩ <;> rw [h]
  · exact .inr ⟨_, rfl⟩
  · exact .inl rfl

/-- EV gets one entry at most, from `fifo.wake` or an AlarmCheck (R37). -/
theorem SharedEffect.ev_cases {s s' : State} {op : Instr} (h : SharedEffect s op s') :
    s'.ev = s.ev ∨ (∃ e, s'.ev = s.ev ++ [e])
      ∧ ((∃ i, op = .fifoWake i) ∨ op = .tickInc ∨ op = .alarmCheck) := by
  cases h with
  | notify i => exact .inr ⟨⟨_, rfl⟩, .inl ⟨i, rfl⟩⟩
  | whole =>
    obtain ⟨-, -, -, hev⟩ := s.tickWhole_keeps
    rcases s.tickWhole.checkIfPresent_cases with he | he <;> rw [he, ← hev]
    · exact s.tickWhole.alarmCheck_ev.imp_right fun hone => ⟨hone, .inr (.inl rfl)⟩
    · exact .inl rfl
  | check op ho => exact s.alarmCheck_ev.imp_right fun hev => ⟨hev, .inr ho⟩
  | arm tok ts =>
    obtain ⟨-, -, hev⟩ := s.alarmRegister_keeps ts tok
    exact .inl hev
  | _ => exact .inl rfl

/-- FAULT is written by a raise alone, which is the whole step (R36, R138). -/
theorem exec_fault {op : Instr} {s t : State} (h : exec op s = .next t) :
    t.fault = s.fault ∨ ∃ f, t = s.raise f := by
  rcases exec_effect h with hraise | ⟨-, s', x, hs, -, rfl⟩
  · exact .inr hraise
  · obtain ⟨-, -, -, -, -, -, hfault, -⟩ := hs.keeps
    exact .inl hfault

/-- Settles O44: the writers are read off the shared effects one register at a time. -/
theorem clockAlarmAndEventsFrame : Obligations.ClockAlarmAndEventsFrame := by
  intro op s t h
  obtain ⟨s', hs, -, hlo, hhi, harmed, hts, hcb, hev, -⟩ := exec_shared h
  rw [hlo, hhi, harmed, hts, hcb, hev]
  refine ⟨fun hop => ?_, fun hinc hcheck hset => ?_, hs.ev_cases, exec_fault h⟩
  · exact hs.clock_cases.resolve_right fun hc => hop hc.1
  · rcases hs.alarmSlot_cases with hkept | ⟨hop, -⟩ | ⟨hop, -⟩
    · exact hkept
    · exact absurd hop (not_or.mpr ⟨hinc, hcheck⟩)
    · exact absurd hop hset

/-! ### FIFO registers and data memory (R23 to R28, R38) -/

/-- What one step of an operation does to a FIFO: nothing; `fifo.init` binds it; or an operation that needs it
bound keeps its binding (R23 to R25). -/
theorem SharedEffect.fifoAt_cases {s s' : State} {op : Instr} (h : SharedEffect s op s') (j : InstId) :
    s'.fifoAt j = s.fifoAt j
      ∨ (∃ len base, op = .fifoInit j len ∧ s.initCheck j base len = none
          ∧ s' = s.setFifo j (Fifo.binding base len))
      ∨ needsBound op = some j ∧ (s'.fifoAt j).bound = (s.fifoAt j).bound
        ∧ (s'.fifoAt j).base = (s.fifoAt j).base ∧ (s'.fifoAt j).len = (s.fifoAt j).len := by
  by_cases hj : op.inst? = some j
  · cases h with
    | unchanged => exact .inl rfl
    | store => exact .inl rfl
    | bind i len base hc =>
      cases hj
      exact .inr (.inl ⟨len, base, rfl, hc, rfl⟩)
    | take op i v ho =>
      rcases ho with rfl | rfl <;> cases hj <;> exact .inr (.inr (by simp [needsBound]))
    | publish i src v => cases hj; exact .inr (.inr (by simp [needsBound]))
    | register i tok => cases hj; exact .inr (.inr (by simp [needsBound]))
    | notify i hw => cases hj; exact .inr (.inr (by simp [needsBound]))
    | check op ho => rcases ho with rfl | rfl <;> cases hj
    | _ => cases hj
  · exact .inl (h.fifoAt_other j hj)

theorem SharedEffect.push_wr {s s' : State} {i : InstId} {src : Operand}
    (h : SharedEffect s (.fifoPush i src) s') : s'.fifoAt i = { s.fifoAt i with wr := (s'.fifoAt i).wr } := by
  cases h with
  | publish => simp
  | take _ _ _ ho => simp at ho
  | check _ ho => simp at ho
  | _ => rfl

theorem SharedEffect.take_rd {s s' : State} {op : Instr} {i : InstId} (ho : op = .fifoPop i ∨ op = .fifoDrop i)
    (h : SharedEffect s op s') : s'.fifoAt i = { s.fifoAt i with rd := (s'.fifoAt i).rd } := by
  cases h with
  | unchanged => rfl
  | take _ j v hj =>
    obtain rfl : j = i := Option.some.inj ((inst_of_take hj).symm.trans (inst_of_take ho))
    simp
  | check _ hc => rcases hc with rfl | rfl <;> simp at ho
  | _ => simp at ho

theorem SharedEffect.regwaker_slot {s s' : State} {i : InstId} {tok : Word}
    (h : SharedEffect s (.fifoRegwaker i tok) s') :
    s'.fifoAt i = { s.fifoAt i with wkv := (s'.fifoAt i).wkv, wkt := (s'.fifoAt i).wkt } := by
  cases h with
  | unchanged => rfl
  | register => simp
  | take _ _ _ ho => simp at ho
  | check _ ho => simp at ho

theorem SharedEffect.wake_wkv {s s' : State} {i : InstId} (h : SharedEffect s (.fifoWake i) s') :
    s'.fifoAt i = { s.fifoAt i with wkv := (s'.fifoAt i).wkv } := by
  cases h with
  | unchanged => rfl
  | notify => simp
  | take _ _ _ ho => simp at ho
  | check _ ho => simp at ho

theorem SharedEffect.query_unchanged {s s' : State} {op : Instr} {i : InstId}
    (ho : op = .fifoIsfull i ∨ op = .fifoIsempty i) (h : SharedEffect s op s') : s' = s := by
  cases h with
  | unchanged => rfl
  | take _ j v hj => rcases hj with rfl | rfl <;> simp at ho
  | check _ hc => rcases hc with rfl | rfl <;> simp at ho
  | _ => simp at ho

/-- Settles O45: each operation's shared effect on the FIFO it names. -/
theorem fifoRegistersFrame : Obligations.FifoRegistersFrame := by
  intro op s t h
  obtain ⟨s', hs, hfifo, -⟩ := exec_shared h
  have hat : ∀ n, t.fifoAt n = s'.fifoAt n := fun n => by rw [State.fifoAt, hfifo, State.fifoAt]
  simp only [hfifo, hat]
  refine ⟨fun n hn => hs.fifoAt_other n hn, ?_, fun i ho => hs.take_rd ho, ?_, ?_, fun i ho => ?_⟩
  · rintro i src rfl
    exact hs.push_wr
  · rintro i tok rfl
    exact hs.regwaker_slot
  · rintro i rfl
    exact hs.wake_wkv
  · rw [hs.query_unchanged ho]

/-- Settles O46: data memory changes by the store of a push alone (`SharedEffect.mem_cases`), which is no effect of
a context past μ1. -/
theorem onlyPushWritesItsSlot : Obligations.OnlyPushWritesItsSlot := by
  intro op s t h
  obtain ⟨s', hs, -, -, -, -, -, -, -, ht⟩ := exec_shared h
  rw [ht]
  rcases hs.mem_cases with hmem | ⟨i, src, v, rfl, -, hk, rfl⟩
  · rw [hmem]
    exact ⟨fun _ _ => rfl, fun _ _ _ _ _ _ _ => rfl, fun _ _ _ _ => rfl⟩
  · refine ⟨fun hno => absurd ⟨i, src, rfl⟩ hno, ?_, ?_⟩
    · rintro _ _ ⟨⟩ a rfl y hy
      exact memGet_memWrite_outside s.mem v.toNat hy
    · rintro _ _ ⟨⟩ ⟨hctx, hpast⟩
      rcases hk with ⟨hnone, -⟩ | ⟨loc, hin⟩
      · exact absurd hnone hctx
      · exact absurd hin (hpast loc)

/-! ### Steps, moves and RESET (R49, R53 to R55, R58) -/

/-- Settles O5: a scripted step of an agent that may step is its own step, and the fetch decodes the word at its
APC or the context's (`agentStep_issues`, `agentStep_continues`). -/
theorem stepRunsDecodedOperation : Obligations.StepRunsDecodedOperation := by
  intro s a ms hl hm ha
  have hstep : step s = agentStep ({ s with moves := ms }.setActor a) :=
    (step_scripted hl hm).trans (performMove_agent ha)
  rw [hstep]
  exact ⟨fun w i hc hw hd => agentStep_issues hc hw hd, fun c i hc hd => agentStep_continues hc hd⟩

theorem State.mayStep_iff (s : State) (a : AgentId) : s.mayStep a = true ↔
    s.cfg.hasAgent a = true ∧ s.agent[a].run = .running ∧ s.fault = none ∧ s.policyAllows a = true := by
  simp [State.mayStep, and_assoc]

theorem State.triggerEnabled_iff (s : State) (a : AgentId) : s.triggerEnabled a = true ↔
    s.cfg.hasAgent a = true ∧ s.agent[a].run = .halted ∧ s.agent[a].ctx = none ∧ s.fault = none := by
  simp [State.triggerEnabled, and_assoc]

theorem State.triggerLost_iff (s : State) (a : AgentId) : s.triggerLost a = true ↔
    s.cfg.hasAgent a = true ∧ s.agent[a].run = .running ∧ s.fault = none := by
  simp [State.triggerLost, and_assoc]

/-- A recorded fault leaves only RESET (R53). -/
theorem State.quiescent_of_fault {s : State} (h : s.fault ≠ none) : s.quiescent := fun a =>
  ⟨Bool.eq_false_iff.mpr fun hm => h ((s.mayStep_iff a).mp hm).2.2.1,
    Bool.eq_false_iff.mpr fun ht => h ((s.triggerEnabled_iff a).mp ht).2.2.2⟩

/-- With a fault recorded, the one move that answers a next state is RESET (R53, R139). -/
theorem performMove_of_fault {s t : State} {m : Move} (hf : s.fault ≠ none) (h : performMove m s = .next t) :
    m = .reset ∧ t = s.hostReset := by
  cases m with
  | agent a =>
    rw [performMove, (s.quiescent_of_fault hf a).1] at h
    cases h
  | trigger a =>
    have hlost : s.triggerLost a = false :=
      Bool.eq_false_iff.mpr fun hl => hf ((s.triggerLost_iff a).mp hl).2.2
    rw [performMove, hostTrigger, (s.quiescent_of_fault hf a).2, hlost] at h
    cases h
  | reset =>
    cases h
    exact ⟨rfl, rfl⟩

/-- Settles O10: no agent's step and no TRIGGER answers while a fault is recorded, and RESET clears it. -/
theorem faultStopsAllButReset : Obligations.FaultStopsAllButReset := by
  intro s hf
  refine ⟨s.quiescent_of_fault hf, fun m ms t hm h => ?_, fun ms hl hm => ?_, fun hend => hf hend.1⟩
  · rw [step_scripted (step_legal h) hm] at h
    obtain ⟨rfl, rfl⟩ := performMove_of_fault (s := { s with moves := ms }) hf h
    exact ⟨rfl, rfl⟩
  · exact ⟨_, step_scripted hl hm, rfl⟩

/-- Settles O48: the three outcomes of a request follow RUN, CTX and FAULT. -/
theorem triggerStartsActivation : Obligations.TriggerStartsActivation := by
  intro s a ms hl hm ha
  have hstep : step s = hostTrigger a { s with moves := ms } := step_scripted hl hm
  have henabled : ({ s with moves := ms } : State).triggerEnabled a = s.triggerEnabled a := rfl
  have hlost : ({ s with moves := ms } : State).triggerLost a = s.triggerLost a := rfl
  have hen := s.triggerEnabled_iff a
  have hlo := s.triggerLost_iff a
  simp only [ha, true_and] at hen hlo
  rw [hstep, hostTrigger, henabled, hlost]
  refine ⟨hen, fun hrun hctx hfault => ?_, fun hrun hfault => ?_, fun hbad => ?_⟩
  · rw [if_pos (hen.mpr ⟨hrun, hctx, hfault⟩)]
    simp only [State.trigger, hctx]
  · have hno : ¬ s.triggerEnabled a = true := fun h =>
      absurd ((hen.mp h).1.symm.trans hrun) (by decide)
    rw [if_neg hno, if_pos (hlo.mpr ⟨hrun, hfault⟩)]
  · have hno : ¬ s.triggerEnabled a = true := fun h => by
      obtain ⟨-, hctx, hfault⟩ := hen.mp h
      exact hbad.elim (fun hf => hf hfault) fun hc => hc.2 hctx
    have hno' : ¬ s.triggerLost a = true := fun h => by
      obtain ⟨hrun, hfault⟩ := hlo.mp h
      exact hbad.elim (fun hf => hf hfault) fun hc => absurd (hc.1.symm.trans hrun) (by decide)
    rw [if_neg hno, if_neg hno']

@[simp] theorem State.hostReset_agent_fg (s : State) : s.hostReset.agent[FG] = Agent.reset .running := by
  simp [State.hostReset, State.powerOn]

theorem State.hostReset_agent_other (s : State) {a : AgentId} (h : a ≠ FG) :
    s.hostReset.agent[a] = Agent.reset .halted := by
  have hv : FG.val ≠ a.val := fun e => h (Fin.ext e.symm)
  simp [State.hostReset, State.powerOn, hv]

@[simp] theorem State.hostReset_fifoAt (s : State) (i : InstId) : s.hostReset.fifoAt i = Fifo.reset := by
  simp [State.hostReset, State.powerOn, State.fifoAt]

/-- Settles O49: the state a RESET leaves, field by field, is that of power-on with memory kept. -/
theorem resetRestoresEverything : Obligations.ResetRestoresEverything := by
  intro s ms hl hm
  refine ⟨({ s with moves := ms } : State).hostReset, step_scripted hl hm, fun i => State.hostReset_fifoAt _ i,
    rfl, rfl, rfl, rfl, rfl, rfl, rfl, rfl, State.hostReset_agent_fg _,
    fun a ha => State.hostReset_agent_other _ ha, rfl, rfl, rfl, fun _ _ _ _ => rfl, fun a ha hex => ?_⟩
  rw [State.triggerEnabled_iff, State.hostReset_agent_other _ ha]
  exact ⟨hex, rfl, rfl, rfl⟩

/-- An enabled move is never refused (R49). -/
theorem performMove_ne_refused {s : State} {m : Move} (h : s.enabled m = true) (r : Refusal) :
    performMove m s ≠ .refused r := by
  cases m with
  | agent a =>
    rw [performMove_agent h]
    exact agentStep_ne_refused _ r
  | trigger a =>
    have ht : s.triggerEnabled a = true := h
    rw [performMove, hostTrigger, if_pos ht]
    nofun
  | reset => nofun

/-- Where the host triggers no more agents, no TRIGGER comes next (R58). -/
theorem State.nextMove_ne_trigger {s : State} (hs : ∀ a, Move.trigger a ∉ s.moves) (hd : s.hostDone = true)
    (a : AgentId) : s.nextMove.1 ≠ .trigger a := by
  unfold State.nextMove
  cases hm : s.moves with
  | nil => exact ((s.offered_iff _).mp (s.chosenMove_offered _)).2 hd a
  | cons m ms =>
    rintro (rfl : m = _)
    exact hs a (by simp [hm])

/-- Taking the next move writes the script and the choice number alone. -/
theorem State.nextMove_state (s : State) :
    s.nextMove.2 = { s with moves := s.moves.tail, choiceNo := s.nextMove.2.choiceNo } := by
  unfold State.nextMove
  cases hm : s.moves with
  | nil => simp
  | cons m ms => rfl

/-- After a good end the only step is RESET (R58). -/
theorem step_of_endsWell {s t : State} (he : s.endsWell) (h : step s = .next t) :
    t = { s with moves := s.moves.tail, choiceNo := t.choiceNo }.hostReset := by
  obtain ⟨-, hhalted, hscript, hdone⟩ := he
  have hnext := s.nextMove_state
  rw [step, if_pos (step_legal h)] at h
  rcases performMove_cases h with ⟨a, -, hmay, -⟩ | ⟨a, hm, -⟩ | ⟨a, hm, -⟩ | ⟨-, rfl⟩
  · rw [hnext] at hmay
    obtain ⟨hex, hrun, -⟩ := (State.mayStep_iff _ a).mp hmay
    have hhalt : s.agent[a].run = .halted := (hhalted a hex).1
    exact absurd (hhalt.symm.trans hrun) (by decide)
  · exact absurd hm (State.nextMove_ne_trigger hscript hdone a)
  · exact absurd hm (State.nextMove_ne_trigger hscript hdone a)
  · exact congrArg State.hostReset hnext

/-- Settles O50: the free choice is one of the offered moves, and those are enabled. -/
theorem freeChoiceIsEnabled : Obligations.FreeChoiceIsEnabled := by
  intro s hl
  refine ⟨fun hm => ?_, fun he t h => step_of_endsWell he h⟩
  have hstep := step_unscripted hl hm
  obtain ⟨henabled, hnone⟩ := (s.offered_iff _).mp (s.chosenMove_offered (Config.freeChoice s.choiceNo))
  exact ⟨⟨_, henabled, hnone, hstep⟩, fun r =>
    hstep ▸ performMove_ne_refused (s := { s with choiceNo := s.choiceNo + 1 }) henabled r⟩

/-- Settles O52: neither an operation's step (`agentStep_keeps`) nor a host action writes a parameter. -/
theorem parametersAreFixed : Obligations.ParametersAreFixed := by
  intro s t h
  obtain ⟨m, ms, n, hm⟩ := step_cases (step_legal h)
  rw [hm] at h
  rcases performMove_cases h with ⟨a, -, -, ha⟩ | ⟨a, -, -, rfl⟩ | ⟨a, -, rfl⟩ | ⟨-, rfl⟩
  · obtain ⟨-, hcfg, hprog, -, -, hdone⟩ := agentStep_keeps ha
    exact ⟨hcfg, hprog, hdone⟩
  · exact ⟨rfl, rfl, rfl⟩
  · exact ⟨rfl, rfl, rfl⟩
  · exact ⟨rfl, rfl, rfl⟩

/-- An agent's step gives EV one entry at most (R37). -/
theorem agentStep_ev {s t : State} (h : agentStep s = .next t) : t.ev = s.ev ∨ ∃ e, t.ev = s.ev ++ [e] := by
  have hexec : ∀ op, exec op s = .next t → t.ev = s.ev ∨ ∃ e, t.ev = s.ev ++ [e] := fun op ho =>
    (clockAlarmAndEventsFrame op s t ho).2.2.1.imp_right And.left
  rcases agentStep_cases s with ⟨f, hf⟩ | ⟨w, i, -, -, -, hf⟩ | ⟨c, i, -, -, hf⟩ | ⟨c, e, -, -, hf⟩ <;>
    rw [hf] at h
  · cases h
    exact .inl rfl
  · exact hexec i h
  · exact hexec i h
  · cases h

/-- Settles O53: an agent's step appends one entry at most, TRIGGER none, and RESET starts EV again. -/
theorem eventHistoryOnlyGrows : Obligations.EventHistoryOnlyGrows := by
  intro s t m ms hm h
  rw [step_scripted (step_legal h) hm] at h
  rcases performMove_cases h with ⟨a, rfl, -, ha⟩ | ⟨a, rfl, -, rfl⟩ | ⟨a, rfl, rfl⟩ | ⟨rfl, rfl⟩
  · exact ⟨fun _ => agentStep_ev (s := { s with moves := ms }.setActor a) ha, nofun⟩
  · exact ⟨fun _ => .inl rfl, nofun⟩
  · exact ⟨fun _ => .inl rfl, nofun⟩
  · exact ⟨fun hne => absurd rfl hne, fun _ => rfl⟩

end Sys2Proof.Machine

namespace Sys2Proof.Machine

/-! ### What the decoder answers is well-formed (R86) -/

/-- A row of the opcode map builds operations of its own group: FIFO operations name INST of the word, and the
alarm operations are those that need ALARM_EN (R84, R86). -/
theorem opcodeMap_build {r : OpcodeRow} (h : r ∈ opcodeMap) (n : InstId) (o : Operand) (v : Word) :
    (r.build n o v).inst? = (if r.isFifo then some n else none) ∧ (r.build n o v).isAlarm = r.needsAlarm := by
  simp only [opcodeMap, fifoRows, clockRows, seqRows, List.cons_append, List.nil_append, List.mem_cons,
    List.not_mem_nil, or_false] at h
  rcases h with rfl | rfl | rfl | rfl | rfl | rfl | rfl | rfl | rfl | rfl | rfl | rfl | rfl | rfl | rfl | rfl
    | rfl | rfl | rfl | rfl | rfl <;> exact ⟨rfl, rfl⟩

/-- A decoded operation names a FIFO that exists, and an alarm operation has its alarm (R86). -/
theorem wellFormed_of_decode {c : Config} {w : DWord} {i : Instr} (h : decode c w = .ok i) :
    (∀ n, i.inst? = some n → c.hasInst n = true) ∧ (i.isAlarm = true → c.alarmEn = true) := by
  obtain ⟨r, hr, hrej, rfl⟩ := row_of_decode h
  obtain ⟨hinst, halarm⟩ := opcodeMap_build (mem_opcodeMap hr).1 (instField w) (operandField w) (immField w)
  obtain ⟨-, hfifo, -, -, -, hen⟩ := reject_none_iff.mp hrej
  rw [hinst, halarm]
  refine ⟨fun n hn => ?_, hen⟩
  split at hn
  · next hf =>
    cases hn
    exact hfifo hf
  · cases hn

/-! ### An agent's step under the invariant -/

/-- The acting agent runs operation `op`, whose word stands at its APC: one it may issue, on a bound FIFO, and
where it is in flight, at a micro-operation it has. -/
structure State.Performs (s : State) (op : Instr) : Prop where
  running : s.me.run = .running
  word    : s.fetchWord? = some s.opWord
  decodes : decode s.cfg s.opWord = .ok op
  role    : (roleOf op).allows s.cfg s.actor = true
  bound   : s.boundOk op = true
  mid     : ∀ c, s.me.ctx = some c → midIndex s.cfg op c.k = true

theorem State.Performs.of_issues {s : State} {w : DWord} {op : Instr} (hrun : s.me.run = .running)
    (hw : s.fetchWord? = some w) (hd : decode s.cfg w = .ok op) (h : s.issues op) : s.Performs op := by
  obtain ⟨hctx, hrole, hbound⟩ := h
  have hword : s.opWord = w := by rw [State.opWord_issue hctx, State.progWord, hw, Option.getD_some]
  exact ⟨hrun, hword ▸ hw, hword ▸ hd, hrole, hbound, fun c hc => by simp [hctx] at hc⟩

/-- Under the invariant an operation in flight meets all conditions (`State.ctxGood`). -/
theorem State.ctxOk.performs {s : State} {c : Ctx} {op : Instr} (h : s.ctxOk) (hc : s.me.ctx = some c)
    (hd : decode s.cfg c.word = .ok op) : s.Performs op := by
  obtain ⟨hrun, hw, i, hi, hrole, hbound, hmid⟩ := h s.actor c hc
  obtain rfl : i = op := by
    rw [hd] at hi
    cases hi
    rfl
  have hword : s.opWord = c.word := State.opWord_inside hc
  refine ⟨hrun, hword ▸ hw, hword ▸ hd, hrole, hbound, fun c' hc' => ?_⟩
  cases hc.symm.trans hc'
  exact hmid

/-- A step of the acting agent under the invariant: the raise of a check of R50, or a step of an operation it
performs once that passes the checks. -/
theorem State.ctxOk.agentStep_cases {s : State} (h : s.ctxOk) (hrun : s.me.run = .running) :
    (∃ f, agentStep s = .next (s.raise f))
      ∨ ∃ op, agentStep s = exec op s ∧ (s.issues op ∨ s.me.ctx ≠ none → s.Performs op) := by
  rcases Sys2Proof.Machine.agentStep_cases s with hf | ⟨w, op, hc, hw, hd, he⟩ | ⟨c, op, hc, hd, he⟩
    | ⟨c, e, hc, hd, -⟩
  · exact .inl hf
  · exact .inr ⟨op, he, fun hop => .of_issues hrun hw hd (hop.resolve_right (not_not_intro hc))⟩
  · exact .inr ⟨op, he, fun _ => h.performs hc hd⟩
  · obtain ⟨-, -, i, hi, -⟩ := h s.actor c hc
    rw [hd] at hi
    cases hi

/-- The effect of a step of the acting agent under the invariant (R50, R51). -/
theorem State.ctxOk.agentStep_effect {s t : State} (h : s.ctxOk) (hrun : s.me.run = .running)
    (hstep : agentStep s = .next t) :
    (∃ f, t = s.raise f)
      ∨ ∃ op s' x, s.Performs op ∧ SharedEffect s op s' ∧ OwnEffect s op x ∧ t = s'.setMe x := by
  rcases h.agentStep_cases hrun with ⟨f, hf⟩ | ⟨op, he, hop⟩
  · rw [hf] at hstep
    cases hstep
    exact .inl ⟨f, rfl⟩
  · rw [he] at hstep
    rcases exec_effect hstep with hf | ⟨hin, s', x, hs, hx, ht⟩
    · exact .inl hf
    · exact .inr ⟨op, s', x, hop hin, hs, hx, ht⟩

/-- The invariant does not speak of the script, the choice number and the actor. -/
theorem State.Inv.reschedule {s : State} (h : s.Inv) (ms : List Move) (n : Nat) (a : AgentId) :
    ({ s with moves := ms, choiceNo := n }.setActor a).Inv :=
  ⟨h.legal, h.mem, h.regions, h.unbound, h.alarm, h.absent, h.ctx⟩

/-- An operation that is performed has its FIFO bound (R50). -/
theorem State.Performs.fifo_bound {s : State} {op : Instr} {n : InstId} (h : s.Performs op)
    (hn : needsBound op = some n) : (s.fifoAt n).bound = true := by
  have hb := h.bound
  rw [State.boundOk, hn] at hb
  exact hb

/-! ### Who moves the clock, and that no step stops -/

/-- Settles O60: the clock is `tick.inc`'s (`SharedEffect.clock_cases`), whose role is TMR. -/
theorem onlyTimerWritesTheClock : Obligations.OnlyTimerWritesTheClock := by
  intro s t a ms hI hm h ha
  rw [step_scripted hI.legal hm] at h
  rcases performMove_cases h with ⟨b, hb, hmay, hstep⟩ | ⟨b, hb, -⟩ | ⟨b, hb, -⟩ | ⟨hb, -⟩ <;> cases hb
  obtain ⟨-, hrun, -⟩ := (State.mayStep_iff _ a).mp hmay
  have hctx := (hI.reschedule ms s.choiceNo a).ctx
  rcases hctx.agentStep_effect hrun hstep with ⟨f, rfl⟩ | ⟨op, s', x, hop, hs, -, rfl⟩
  · exact ⟨rfl, rfl⟩
  · rcases hs.clock_cases with hkept | ⟨rfl, -⟩
    · exact hkept
    · exact absurd (of_decide_eq_true hop.role) ha

/-- A step of the acting agent under the invariant never stops: it has the micro-operation it is at, and its
FIFO's slots lie inside data memory (`exec_stops`, R51, R62). -/
theorem State.Inv.agentStep_ne_fault {s : State} (h : s.Inv) (hrun : s.me.run = .running) (f : Fault) :
    agentStep s ≠ .fault f := by
  intro hstep
  rcases h.ctx.agentStep_cases hrun with ⟨g, hg⟩ | ⟨op, he, hop⟩
  · rw [hg] at hstep
    cases hstep
  · rw [he] at hstep
    rcases (exec_stops op s).2 f hstep with ⟨-, c, hc, -, hno⟩ | ⟨-, hin, i, idx, hi, hslot⟩
    · rw [(hop (.inr (by simp [hc]))).mid c hc] at hno
      cases hno
    · rw [h.regions.slotInSpace ((hop hin).fifo_bound hi) idx] at hslot
      cases hslot

/-- A host action never stops with a fault of the model. -/
theorem hostTrigger_ne_fault (a : AgentId) (s : State) (f : Fault) : hostTrigger a s ≠ .fault f := by
  unfold hostTrigger
  split
  · nofun
  · split <;> nofun

/-- Settles O58: the move is an agent's step, which does not stop, or a host action. -/
theorem noStepStopsUnderInvariant : Obligations.NoStepStopsUnderInvariant := by
  intro s hI f
  obtain ⟨m, ms, n, hm⟩ := step_cases hI.legal
  rw [hm]
  cases m with
  | agent a =>
    rw [performMove]
    split
    · next hmay =>
      obtain ⟨-, hrun, -⟩ := (State.mayStep_iff _ a).mp hmay
      exact (hI.reschedule ms n a).agentStep_ne_fault hrun f
    · nofun
  | trigger a => exact hostTrigger_ne_fault a _ f
  | reset => nofun

/-! ### Storage (R62, R66, R90) -/

/-- All that `fifo.init` has checked where it binds (R90). -/
theorem State.initCheck_none {s : State} {i : InstId} {base : DWord} {len : Word}
    (h : s.initCheck i base len = none) :
    len.toNat ≠ 0 ∧ isPow2 len.toNat = true ∧ len.toNat ≤ 2 ^ 31 ∧ base.toNat % s.esizeAt i = 0
      ∧ base.toNat + len.toNat * s.esizeAt i ≤ 2 ^ 32
      ∧ ∀ j, s.meetsRegion i base.toNat (len.toNat * s.esizeAt i) j = false := by
  unfold State.initCheck at h
  split at h
  · cases h
  split at h
  · cases h
  split at h
  · cases h
  split at h
  · cases h
  split at h
  · cases h
  next hlen halign hrange hmeets =>
  simp only [not_or, Bool.not_eq_false, not_lt] at hlen
  obtain ⟨h0, hpow, hmax⟩ := hlen
  refine ⟨h0, hpow, hmax, not_not.mp halign, not_lt.mp hrange, fun j => Bool.eq_false_iff.mpr fun hj => ?_⟩
  exact hmeets (List.any_eq_true.mpr ⟨j, List.mem_finRange j, hj⟩)

/-- The elements of a FIFO that exists have a size (R8). -/
theorem State.esizeAt_pos {s : State} {i : InstId} (hl : s.cfg.legal = true) (hi : s.cfg.hasInst i = true) :
    0 < s.esizeAt i := by
  have h := Config.instLegal_esize (Config.legal_instLegal hl hi)
  change 0 < s.cfg.esize[i]
  omega

/-- `State.apart` is symmetric in its instances. -/
theorem State.apart.symm {s : State} {i j : InstId} (h : s.apart i j) : s.apart j i := Or.symm h

/-- Where `fifo.init` binds, all storage stays as it must be: its checks are `storageOk` of the new FIFO and
its distance from every other (R66, R90). -/
theorem State.regionsOk.bind {s : State} {i : InstId} {base : DWord} {len : Word} (h : s.regionsOk)
    (hl : s.cfg.legal = true) (hi : s.cfg.hasInst i = true) (hc : s.initCheck i base len = none) :
    (s.setFifo i (Fifo.binding base len)).regionsOk := by
  obtain ⟨h0, hpow, hmax, halign, hrange, hmeets⟩ := State.initCheck_none hc
  have hself : (s.setFifo i (Fifo.binding base len)).fifoAt i = Fifo.binding base len := s.fifoAt_setFifo i _
  have hother : ∀ {j}, j ≠ i → (s.setFifo i (Fifo.binding base len)).fifoAt j = s.fifoAt j :=
    fun hj => s.fifoAt_setFifo_other hj _
  have hsize : ∀ {j}, s.cfg.hasInst j = true → (l : Word) → l.toNat ≠ 0 → 0 < l.toNat * s.esizeAt j :=
    fun hj l hl0 => Nat.mul_pos (Nat.pos_of_ne_zero hl0) (State.esizeAt_pos hl hj)
  have hbase : (Fifo.binding base len).base.toNat = base.toNat := by
    have hpos := hsize hi len h0
    simp only [Fifo.binding, BitVec.toNat_ofNat]
    omega
  have hapart : ∀ {j}, j ≠ i → (s.fifoAt j).bound = true →
      (s.setFifo i (Fifo.binding base len)).apart i j := by
    intro j hj hb
    obtain ⟨hij, hstorage⟩ := h.1 j hb
    have hdisjoint := hmeets j
    have hposi := hsize hi len h0
    have hposj := hsize hij (s.fifoAt j).len hstorage.len_pos.ne'
    simp only [State.meetsRegion, hj, hij, hb, ne_eq, not_false_eq_true, decide_true, Bool.true_and,
      decide_eq_false_iff_not] at hdisjoint
    simp only [State.apart, hself, hother hj, hbase]
    change base.toNat + len.toNat * s.esizeAt i ≤ _ ∨ _ + (s.fifoAt j).len.toNat * s.esizeAt j ≤ _
    omega
  refine ⟨fun j hb => ?_, fun j k hjk hbj hbk => ?_⟩
  · by_cases hj : j = i
    · subst hj
      refine ⟨hi, ?_⟩
      simp only [State.storageOk, hself, hbase]
      exact ⟨hpow, hmax, halign, hrange⟩
    · have hstorage := h.1 j (hother hj ▸ hb)
      simp only [State.storageOk, hother hj]
      exact hstorage
  · by_cases hj : j = i
    · subst hj
      exact hapart hjk.symm (hother hjk.symm ▸ hbk)
    · by_cases hk : k = i
      · subst hk
        exact (hapart hjk (hother hjk ▸ hbj)).symm
      · have hjk' := h.2 j k hjk (hother hj ▸ hbj) (hother hk ▸ hbk)
        simp only [State.apart, hother hj, hother hk]
        exact hjk'

/-! ### The parts of the invariant, under one shared effect -/

section SharedParts
variable {s s' : State} {op : Instr} (h : SharedEffect s op s')
include h

theorem SharedEffect.memOk (hs : s.memOk) : s'.memOk := by
  rcases h.mem_cases with hm | ⟨i, src, v, -, hslot, -, rfl⟩
  · rw [State.memOk, hm]
    exact hs
  · exact State.elemWrite_memOk v hslot hs

/-- No operation unbinds a FIFO: only RESET does (R23). -/
theorem SharedEffect.keeps_bound {j : InstId} (hb : (s.fifoAt j).bound = true) :
    (s'.fifoAt j).bound = true := by
  rcases h.fifoAt_cases j with hf | ⟨len, base, -, -, rfl⟩ | ⟨-, hf, -⟩
  · rw [hf, hb]
  · rw [s.fifoAt_setFifo]
    rfl
  · rw [hf, hb]

theorem SharedEffect.keeps_boundOk {i : Instr} (hb : s.boundOk i = true) : s'.boundOk i = true := by
  unfold State.boundOk at hb ⊢
  split
  · next n hn =>
    rw [hn] at hb
    exact h.keeps_bound hb
  · rfl

theorem SharedEffect.regionsOk (hp : s.Performs op) (hl : s.cfg.legal = true) (hs : s.regionsOk) :
    s'.regionsOk := by
  by_cases hbind : ∃ i len base, op = .fifoInit i len ∧ s.initCheck i base len = none
      ∧ s' = s.setFifo i (Fifo.binding base len)
  · obtain ⟨i, len, base, rfl, hc, rfl⟩ := hbind
    exact hs.bind hl ((wellFormed_of_decode hp.decodes).1 i rfl) hc
  · refine State.regionsOk_congr h.keeps.1 (fun j => ?_) hs
    rcases h.fifoAt_cases j with hf | hnew | ⟨-, hf⟩
    · rw [hf]
      exact ⟨rfl, rfl, rfl⟩
    · exact absurd ⟨j, hnew⟩ hbind
    · exact hf

theorem SharedEffect.unboundClean (hp : s.Performs op) (hs : s.unboundClean) : s'.unboundClean := by
  intro j hb
  have hunbound : (s.fifoAt j).bound = false :=
    Bool.eq_false_iff.mpr fun hbound => by simp [h.keeps_bound hbound] at hb
  rcases h.fifoAt_cases j with hf | ⟨len, base, -, -, rfl⟩ | ⟨hn, -⟩
  · rw [hf]
    exact hs j hunbound
  · rw [s.fifoAt_setFifo] at hb
    cases hb
  · rw [hp.fifo_bound hn] at hunbound
    cases hunbound

theorem SharedEffect.alarmOk (hs : s.alarmOk) : s'.alarmOk := by
  intro harmed
  rcases h.alarmSlot_cases with ⟨ha, ht, hc⟩ | ⟨-, -, hclear⟩ | ⟨-, hold, hset | ⟨-, ht, hc⟩⟩
  · rw [ht, hc]
    exact hs (ha ▸ harmed)
  · exact hclear
  · rw [hset] at harmed
    cases harmed
  · exact ⟨ht, hc.trans (hs hold).2⟩

/-- HI is stored only in a configuration that has it: the second micro-operation of `tick.inc` needs TICK64. -/
theorem SharedEffect.hi_absent (hp : s.Performs op) (h64 : s.cfg.tick64 = false) : s'.hi = s.hi := by
  rcases h.clock_cases with ⟨-, hkept⟩ | ⟨rfl, hkept | hon | ⟨loc, w, hin⟩⟩
  · exact hkept
  · exact hkept
  · rw [h64] at hon
    cases hon
  · have hmid := hp.mid _ hin
    simp [midIndex, h64] at hmid

/-- The alarm is armed only in a configuration that has it: `alarm.set` decodes only there. -/
theorem SharedEffect.armed_absent (hp : s.Performs op) (hen : s.cfg.alarmEn = false)
    (hs : s.armed = false) : s'.armed = false := by
  rcases h.alarmSlot_cases with ⟨ha, -, -⟩ | ⟨-, ha, -⟩ | ⟨⟨tok, rfl⟩, -, -⟩
  · exact ha.trans hs
  · exact ha
  · have hon := (wellFormed_of_decode hp.decodes).2 rfl
    rw [hen] at hon
    cases hon

end SharedParts

/-! ### Contexts in flight -/

/-- The word an agent fetches depends on its APC and its program alone (R50). -/
theorem State.fetchWord?_congr {s t : State} (hapc : t.me.apc = s.me.apc) (hactor : t.actor = s.actor)
    (hprog : t.prog = s.prog) : t.fetchWord? = s.fetchWord? := by
  unfold State.fetchWord?
  simp only [hapc, hactor, hprog]

/-- A good context stays good while its agent's record, the parameters and the bindings stay (R44, R50). -/
theorem State.ctxGood.congr {s t : State} {a : AgentId} {c : Ctx} (hagent : t.agent[a] = s.agent[a])
    (hcfg : t.cfg = s.cfg) (hprog : t.prog = s.prog) (hbound : ∀ i, s.boundOk i = true → t.boundOk i = true)
    (h : s.ctxGood a c) : t.ctxGood a c := by
  obtain ⟨hrun, hword, i, hd, hrole, hb, hmid⟩ := h
  have hfetch : (t.setActor a).fetchWord? = (s.setActor a).fetchWord? :=
    State.fetchWord?_congr (congrArg Agent.apc hagent) rfl hprog
  refine ⟨hagent ▸ hrun, hfetch.trans hword, i, ?_, ?_, hbound i hb, ?_⟩ <;> rw [hcfg] <;> assumption

/-- Contexts stay good when one agent's record is written, if its own new context is good. -/
theorem State.ctxOk.write {s t : State} {a : AgentId} {x : Agent} (h : s.ctxOk)
    (hagent : t.agent = s.agent.set a x) (hcfg : t.cfg = s.cfg) (hprog : t.prog = s.prog)
    (hbound : ∀ i, s.boundOk i = true → t.boundOk i = true) (hx : ∀ c, x.ctx = some c → t.ctxGood a c) :
    t.ctxOk := by
  intro b c hc
  by_cases hb : b = a
  · subst hb
    exact hx c (by simpa [hagent] using hc)
  · have hsame : t.agent[b] = s.agent[b] := by
      rw [hagent]
      grind
    exact (h b c (hsame ▸ hc)).congr hsame hcfg hprog hbound

/-- The context an operation leaves in flight is good: same word, same APC, at an index it has (R51). -/
theorem OwnEffect.ctxGood {s s' : State} {op : Instr} {x : Agent} {c : Ctx} (hp : s.Performs op)
    (hs : SharedEffect s op s') (hx : OwnEffect s op x) (hc : x.ctx = some c) :
    (s'.setMe x).ctxGood s.actor c := by
  obtain ⟨hcfg, hprog, -, hactor, -⟩ := hs.keeps
  obtain ⟨-, -, -, hrun, hctx⟩ := hx
  rcases hctx with hnone | ⟨k, loc, hsome, hmid, hapc⟩
  · rw [hnone] at hc
    cases hc
  obtain rfl : ⟨s.opWord, k, loc⟩ = c := Option.some.inj (hsome.symm.trans hc)
  have hme : (s'.setMe x).agent[s.actor] = x := by
    simp [hactor]
  have hnothalt : op ≠ .seqHalt := by
    rintro rfl
    cases hmid
  have hfetch : ((s'.setMe x).setActor s.actor).fetchWord? = s.fetchWord? :=
    State.fetchWord?_congr ((congrArg Agent.apc hme).trans hapc) rfl hprog
  have hrunning : (s'.setMe x).agent[s.actor].run = .running :=
    (congrArg Agent.run hme).trans ((hrun hnothalt).trans hp.running)
  refine ⟨hrunning, hfetch.trans hp.word, op, ?_, ?_, hs.keeps_boundOk hp.bound, ?_⟩ <;>
    rw [State.setMe_cfg, hcfg]
  · exact hp.decodes
  · exact hp.role
  · exact hmid

/-! ### Every step keeps the invariant -/

/-- Agents that do not exist stay at reset when the record of one that does is written (R22). -/
theorem State.absentAgents_write {s t : State} {a : AgentId} {x : Agent} (ha : s.cfg.hasAgent a = true)
    (hagent : t.agent = s.agent.set a x) (hcfg : t.cfg = s.cfg)
    (h : ∀ b, s.cfg.hasAgent b = false → s.agent[b] = Agent.reset .halted) :
    ∀ b, t.cfg.hasAgent b = false → t.agent[b] = Agent.reset .halted := by
  intro b hb
  rw [hcfg] at hb
  have hne : b ≠ a := by
    rintro rfl
    rw [ha] at hb
    cases hb
  rw [← h b hb, hagent]
  grind

/-- Writing the record of an agent that exists, with no context left in it, keeps the invariant: what a raise and a
TRIGGER do, beside FAULT. -/
theorem State.Inv.setAgent {s : State} {a : AgentId} {x : Agent} (f : Option FaultRecord) (h : s.Inv)
    (ha : s.cfg.hasAgent a = true) (hx : x.ctx = none) : ({ s with fault := f }.setAgent a x).Inv where
  legal := h.legal
  mem := h.mem
  regions := h.regions
  unbound := h.unbound
  alarm := h.alarm
  absent := by
    obtain ⟨hhi, harmed, hagents⟩ := h.absent
    exact ⟨hhi, harmed, State.absentAgents_write (t := { s with fault := f }.setAgent a x) ha rfl rfl hagents⟩
  ctx := h.ctx.write (t := { s with fault := f }.setAgent a x) rfl rfl rfl (fun _ hb => hb) fun c hc => by
    rw [hx] at hc
    cases hc

/-- One step of an operation, shared and own effect together, keeps the invariant. -/
theorem State.Inv.effect {s s' : State} {op : Instr} {x : Agent} (h : s.Inv)
    (ha : s.cfg.hasAgent s.actor = true) (hp : s.Performs op) (hs : SharedEffect s op s')
    (hx : OwnEffect s op x) : (s'.setMe x).Inv := by
  obtain ⟨hcfg, hprog, -, hactor, -, hagents, -⟩ := hs.keeps
  have hagent : (s'.setMe x).agent = s.agent.set s.actor x := by
    rw [State.setMe_agent]
    simp only [hagents, hactor]
  obtain ⟨hhi, harmed, habsent⟩ := h.absent
  exact {
    legal := by rw [State.setMe_cfg, hcfg, h.legal]
    mem := hs.memOk h.mem
    regions := hs.regionsOk hp h.legal h.regions
    unbound := hs.unboundClean hp h.unbound
    alarm := hs.alarmOk h.alarm
    absent := by
      refine ⟨fun h64 => ?_, fun hen => ?_, State.absentAgents_write ha hagent hcfg habsent⟩
      · rw [State.setMe_cfg, hcfg] at h64
        exact (hs.hi_absent hp h64).trans (hhi h64)
      · rw [State.setMe_cfg, hcfg] at hen
        exact hs.armed_absent hp hen (harmed hen)
    ctx := h.ctx.write hagent hcfg hprog (fun _ hb => hs.keeps_boundOk hb) fun _ hc => hx.ctxGood hp hs hc }

/-- The step of an agent that may step keeps the invariant. -/
theorem State.Inv.agentStep {s t : State} (h : s.Inv) (ha : s.cfg.hasAgent s.actor = true)
    (hrun : s.me.run = .running) (hstep : agentStep s = .next t) : t.Inv := by
  rcases h.ctx.agentStep_effect hrun hstep with ⟨f, rfl⟩ | ⟨op, s', x, hp, hs, hx, rfl⟩
  · exact h.setAgent (some (s.faultRecord f)) ha rfl
  · exact h.effect ha hp hs hx

/-- RESET establishes the invariant from any canonical memory (R152). -/
theorem State.hostReset_inv {s : State} (hl : s.cfg.legal = true) (hm : s.memOk) : s.hostReset.Inv where
  legal := hl
  mem := hm
  regions := by
    refine ⟨fun i hb => ?_, fun i j _ hb => ?_⟩ <;> rw [State.hostReset_fifoAt] at hb <;> cases hb
  unbound i _ := s.hostReset_fifoAt i
  alarm _ := ⟨rfl, rfl⟩
  absent := by
    refine ⟨fun _ => rfl, fun _ => rfl, fun a ha => s.hostReset_agent_other ?_⟩
    rintro rfl
    rw [Config.hasAgent_fg] at ha
    cases ha
  ctx a c hc := by
    by_cases ha : a = FG
    · subst ha
      rw [State.hostReset_agent_fg] at hc
      cases hc
    · rw [s.hostReset_agent_other ha] at hc
      cases hc

/-- Settles O56: an agent's step, a TRIGGER (made or lost) and RESET each keep the invariant. -/
theorem stepKeepsInvariant : Obligations.StepKeepsInvariant := by
  intro s t hI h
  obtain ⟨m, ms, n, hm⟩ := step_cases hI.legal
  rw [hm] at h
  rcases performMove_cases h with ⟨a, -, hmay, hstep⟩ | ⟨a, -, ht, rfl⟩ | ⟨a, -, rfl⟩ | ⟨-, rfl⟩
  · obtain ⟨hex, hrun, -⟩ := (State.mayStep_iff _ a).mp hmay
    exact (hI.reschedule ms n a).agentStep hex hrun hstep
  · obtain ⟨hex, -, hctx, -⟩ := (State.triggerEnabled_iff _ a).mp ht
    exact (hI.reschedule ms n s.actor).setAgent s.fault hex hctx
  · exact hI.reschedule ms n s.actor
  · exact State.hostReset_inv hI.legal hI.mem

end Sys2Proof.Machine

namespace Sys2Proof.Machine

/-! ### Slots and elements (R60 to R63, R134, R164) -/

/-- μ3 of `fifo.pop` and `fifo.drop` where the slot does not read (R94, R134). -/
theorem takeMicro_uninitRead {i : InstId} {loc : Locals} {s : State} (hspace : s.slotInSpace i loc.r = true)
    (hread : s.elemRead i loc.r = none) : takeMicro i 3 loc s = .next (s.raise .uninitRead) := by
  simp [takeMicro, hspace, hread]

/-- An element with a byte never written does not read (R60). -/
theorem State.elemRead_none {s : State} {i : InstId} {idx : Word} {j : Nat} (hj : j < s.esizeAt i)
    (h : memGet s.mem (s.slotAddr i idx + j) = none) : s.elemRead i idx = none := by
  rw [State.elemRead, memRead_none hj h]
  rfl

/-- Settles O15: μ3 reads the slot, which lies in memory, and the read fails at byte `j`. -/
theorem unwrittenSlotRaisesUninitRead : Obligations.UnwrittenSlotRaisesUninitRead := by
  refine ⟨fun i op loc s j ho hin hr hb hj hbyte => ?_, rfl⟩
  rw [exec_take ho, perform_inside hin]
  exact takeMicro_uninitRead (hr.slotInSpace hb loc.r) (State.elemRead_none hj hbyte)

/-- Byte `j` of a word by arithmetic is its bits `[8j+7:8j]` (R61). -/
theorem ofNat_div_eq_extractLsb' (v : Word) (j : Nat) :
    BitVec.ofNat 8 (v.toNat / 2 ^ (8 * j)) = v.extractLsb' (8 * j) 8 := by
  apply BitVec.eq_of_toNat_eq
  rw [BitVec.toNat_ofNat, BitVec.extractLsb'_toNat, Nat.shiftRight_eq_div_pow]

/-- Settles O22: what `MemWrite` does to each byte, and what `MemRead` reads back (`memGet_memWrite`,
`memRead_memWrite_same`). -/
theorem elementsAreLittleEndian : Obligations.ElementsAreLittleEndian := by
  intro s i idx v _
  refine ⟨fun j hj => ?_, fun y hy => memGet_memWrite_outside s.mem v.toNat hy, ?_, fun h64 => ?_⟩
  · rw [State.elemWrite_eq, State.setMem_mem, memGet_memWrite, if_pos (by omega), Nat.add_sub_cancel_left,
      ofNat_div_eq_extractLsb']
  · have hread := memRead_memWrite_same (s.esizeAt i) s.mem (s.slotAddr i idx) v.toNat
    exact congrArg (Option.map (BitVec.ofNat 32)) hread
  · rw [State.nowval, if_pos h64, pair_toNat]

/-- The base is a multiple of ESIZE(i), and so is each slot's distance from it (R62, R63). -/
theorem State.storageOk.slot_aligned {s : State} {i : InstId} (h : s.storageOk i) (idx : Word) :
    s.slotAddr i idx % s.esizeAt i = 0 := by
  obtain ⟨-, -, hbase, -⟩ := h
  rw [State.slotAddr, Nat.add_mul_mod_self_right, hbase]

/-- Settles O23: `slot_bounds`, and LEN(i) divides 2^32, so that the slot index does not jump where the index
wraps (`slot_add`). -/
theorem slotsAreAlignedAndWrap : Obligations.SlotsAreAlignedAndWrap := by
  intro s i idx _ hr hb
  obtain ⟨-, hstorage⟩ := hr.1 i hb
  obtain ⟨hlow, hhigh⟩ := hstorage.slot_bounds idx
  exact ⟨hstorage.slot_aligned idx, hlow, hhigh, (hstorage.slot_add idx 1).trans (Nat.mod_add_mod _ _ 1).symm⟩

/-! ### FIFOs do not interfere (R66, R132) -/

/-- Slots of two bound FIFOs share no byte (R66). -/
theorem State.regionsOk.slots_apart {s : State} (h : s.regionsOk) {i n : InstId} (hin : i ≠ n)
    (hi : (s.fifoAt i).bound = true) (hn : (s.fifoAt n).bound = true) (idx idx' : Word) :
    s.slotAddr i idx + s.esizeAt i ≤ s.slotAddr n idx'
      ∨ s.slotAddr n idx' + s.esizeAt n ≤ s.slotAddr i idx := by
  obtain ⟨hilow, hihigh⟩ := (h.1 i hi).2.slot_bounds idx
  obtain ⟨hnlow, hnhigh⟩ := (h.1 n hn).2.slot_bounds idx'
  have hregions := h.2 i n hin hi hn
  unfold State.apart at hregions
  omega

/-- A FIFO holds the same after a store into another bound one. -/
theorem State.contents_elemWrite_other {s : State} (h : s.regionsOk) {i n : InstId} (hin : i ≠ n)
    (hi : (s.fifoAt i).bound = true) (hn : (s.fifoAt n).bound = true) (idx v : Word) :
    (s.elemWrite n idx v).contents i = s.contents i :=
  State.contents_congr rfl rfl fun idx' => memRead_memWrite_apart s.mem (h.slots_apart hin hi hn idx' idx)

/-- A shared effect leaves what a FIFO holds that its operation does not name; where it is the store of a push,
the FIFO pushed to must be bound. -/
theorem SharedEffect.contents_other {s s' : State} {op : Instr} (h : SharedEffect s op s') (hr : s.regionsOk)
    {i : InstId} (hi : (s.fifoAt i).bound = true) (hop : op.inst? ≠ some i)
    (hbound : ∀ n, op.inst? = some n → s.me.ctx = none ∨ (s.fifoAt n).bound = true) :
    s'.contents i = s.contents i := by
  rcases h.mem_cases with hmem | ⟨n, src, v, rfl, -, hk, rfl⟩
  · exact State.contents_congr h.keeps.1 (h.fifoAt_other i hop) fun _ => by rw [hmem]
  · have hin : i ≠ n := fun he => hop (congrArg some he.symm)
    have hn : (s.fifoAt n).bound = true := by
      rcases hk with ⟨-, -, hissued⟩ | ⟨loc, w, hctx⟩
      · exact hissued
      · exact (hbound n rfl).resolve_left (by simp [hctx])
    exact State.contents_elemWrite_other hr hin hi hn (s.fifoAt n).wr v

/-- Settles O26: registers by `fifoAt_other`, elements by `contents_other`; a raise changes neither. -/
theorem otherFifosAreUntouched : Obligations.OtherFifosAreUntouched := by
  intro op i s t hr h hi hop hbound
  rcases exec_effect h with ⟨f, rfl⟩ | ⟨-, s', x, hs, -, rfl⟩
  · exact ⟨rfl, rfl⟩
  · exact ⟨hs.fifoAt_other i hop, hs.contents_other hr hi hop hbound⟩

/-! ### Who may step (R69, R70) -/

theorem Run.ne_running_iff (r : Run) : r ≠ .running ↔ r = .halted := by
  cases r <;> decide

theorem State.interruptsHalted_iff (s : State) : s.interruptsHalted = true ↔
    ∀ b : AgentId, b ≠ FG → s.cfg.hasAgent b = true → s.agent[b].run = .halted := by
  simp only [State.interruptsHalted, State.interruptRuns, Config.isInterrupt, List.all_eq_true,
    List.mem_finRange, true_implies, Bool.not_eq_true', ← Bool.not_eq_true, Bool.and_eq_true, decide_eq_true_eq,
    and_assoc, not_and, ← Run.ne_running_iff]
  exact forall_congr' fun b => imp.swap

/-- PREEMPT holds back FG alone, while an interrupt agent runs; FREE holds back no agent (R69, R70). -/
theorem State.policyAllows_iff (s : State) (a : AgentId) : s.policyAllows a = true ↔
    s.cfg.sched = .free ∨ a ≠ FG ∨ s.interruptsHalted = true := by
  unfold State.policyAllows
  split
  · next hsched => simp [hsched]
  · next hsched => simp [hsched]

/-- Settles O47: `policyAllows_iff` and `interruptsHalted_iff` put the policy in the words of R69 and R70. -/
theorem schedulingPolicy : Obligations.SchedulingPolicy := by
  intro s a
  rw [State.mayStep_iff, State.policyAllows_iff, State.interruptsHalted_iff]

end Sys2Proof.Machine

namespace Sys2Proof

/-! ### The opcode map in the words of R82, R84 and R86 -/

/-- The columns of a row of the opcode map, read off its OPC (R82, R84). -/
theorem opcodeMap_columns : ∀ r ∈ opcodeMap,
    r.opc.toNat ∈ Machine.assignedOpcs
      ∧ (r.isFifo = true ↔ 0x10 ≤ r.opc.toNat ∧ r.opc.toNat ≤ 0x17)
      ∧ (r.takesSrc = true ↔ r.opc.toNat = 0x11 ∨ r.opc.toNat = 0x22)
      ∧ (r.takesImm = true ↔ r.opc.toNat ∈ Machine.immOpcs)
      ∧ (r.needsAlarm = true ↔ r.opc.toNat = 0x28 ∨ r.opc.toNat = 0x29) := by
  decide

/-- OPC, SRC and IMM of the operation a row builds: where the row takes SRC, its operand gives SRC and IMM (R80, R82). -/
theorem opcodeMap_build_fields {r : OpcodeRow} (h : r ∈ opcodeMap) (n : InstId) (o : Operand) (v : Word) :
    (r.build n o v).opc = r.opc.toNat
      ∧ (r.build n o v).src = (r.takesSrc && o.src)
      ∧ (r.build n o v).immBits = if r.takesSrc then o.immBits else if r.takesImm then v else 0 := by
  revert r
  simp [opcodeMap, fifoRows, clockRows, seqRows, Instr.opc, Instr.src, Instr.immBits]

@[simp] theorem operandField_src (w : DWord) : (operandField w).src = srcField w := by
  unfold operandField
  cases srcField w <;> rfl

/-- IMM of a word's operand is IMM of the word, if a word with SRC = 1 has none (R86 condition 6). -/
theorem operandField_immBits {w : DWord} (h : srcField w = true → immField w = 0) :
    (operandField w).immBits = immField w := by
  unfold operandField
  split
  · next hsrc => exact (h hsrc).symm
  · rfl

/-- An assigned OPC has a row. -/
theorem exists_row_of_assigned {w : DWord} (h : (opcField w).toNat ∈ Machine.assignedOpcs) :
    ∃ r, opcodeMap.find? (fun r => r.opc == opcField w) = some r := by
  have hmap : Machine.assignedOpcs = opcodeMap.map fun r => r.opc.toNat := by decide
  rw [hmap] at h
  obtain ⟨r, hr, hopc⟩ := List.mem_map.mp h
  exact Option.isSome_iff_exists.mp (List.find?_isSome.mpr ⟨r, hr, beq_iff_eq.mpr (BitVec.eq_of_toNat_eq hopc)⟩)

/-! ### Legal words (R86) -/

/-- For a word whose OPC has a row, the conditions of R86 are those of the row. -/
theorem wordLegal_iff_of_row {c : Config} {w : DWord} {r : OpcodeRow}
    (h : opcodeMap.find? (fun r => r.opc == opcField w) = some r) :
    Machine.wordLegal c w ↔ r.reject c w = none := by
  obtain ⟨hmem, hopc⟩ := mem_opcodeMap h
  obtain ⟨hassigned, hfifo, hsrc, himm, halarm⟩ := opcodeMap_columns r hmem
  rw [reject_none_iff]
  simp only [Machine.wordLegal, ← hopc, ← hfifo, ← hsrc, ← himm, ← halarm, hassigned, true_and,
    Bool.not_eq_true, Config.hasInst, decide_eq_true_eq]

/-- The decoder answers an operation exactly for the legal words. -/
theorem decode_ok_iff {c : Config} {w : DWord} : (∃ i, decode c w = .ok i) ↔ Machine.wordLegal c w := by
  constructor
  · rintro ⟨i, hi⟩
    obtain ⟨r, hr, hrej, -⟩ := row_of_decode hi
    exact (wordLegal_iff_of_row hr).mpr hrej
  · intro hlegal
    obtain ⟨r, hr⟩ := exists_row_of_assigned hlegal.1
    exact ⟨_, decode_of_row hr ((wordLegal_iff_of_row hr).mp hlegal)⟩

/-- A decoded operation has the fields of its word (R80, R82). -/
theorem fields_of_decode {c : Config} {w : DWord} {i : Instr} (h : decode c w = .ok i) :
    i.opc = (opcField w).toNat ∧ (∀ n, i.inst? = some n → n = instField w)
      ∧ i.src = srcField w ∧ i.immBits = immField w := by
  obtain ⟨r, hr, hrej, rfl⟩ := row_of_decode h
  obtain ⟨hmem, hopc⟩ := mem_opcodeMap hr
  obtain ⟨-, -, -, hsrc, himm, -⟩ := reject_none_iff.mp hrej
  obtain ⟨hbopc, hbsrc, hbimm⟩ := opcodeMap_build_fields hmem (instField w) (operandField w) (immField w)
  obtain ⟨hinst, -⟩ := Machine.opcodeMap_build hmem (instField w) (operandField w) (immField w)
  refine ⟨hbopc.trans (congrArg _ hopc), fun n hn => ?_, ?_, ?_⟩
  · rw [hinst, Option.ite_none_right_eq_some] at hn
    exact (Option.some.inj hn.2).symm
  · rw [hbsrc, operandField_src, Bool.and_eq_right_iff_imp]
    exact hsrc
  · have hzero : srcField w = true → immField w = 0 := fun hs =>
      by_contra fun hne => by simp [(himm hne).2] at hs
    rw [hbimm, operandField_immBits hzero]
    split
    · rfl
    · split
      · rfl
      · next hno => exact (not_not.mp fun hne => hno (himm hne).1).symm

end Sys2Proof

namespace Sys2Proof.Machine

/-- Settles O3: the row of the word's OPC states R86's conditions (`decode_ok_iff`) and places the fields
(`fields_of_decode`); a word without an operation has an error, which the issue raises. -/
theorem decodeRejectsExactlyIllegalWords : Obligations.DecodeRejectsExactlyIllegalWords := by
  intro c w
  refine ⟨decode_ok_iff, fun i hi => fields_of_decode hi, ?_⟩
  rintro s rfl hctx hword hillegal
  cases hd : decode s.cfg w with
  | error e => exact agentStep_illegal hctx hword hd
  | ok i => exact absurd (decode_ok_iff.mp ⟨i, hd⟩) hillegal

/-! ### The acting agent's own registers (R39, R41 to R43, R83) -/

/-- Settles O43: a raise clears CTX alone, and an operation's own effect names the writers of each register
(`OwnEffect`). -/
theorem agentRegistersFrame : Obligations.AgentRegistersFrame := by
  intro op s t h
  rcases exec_effect h with ⟨f, rfl⟩ | ⟨-, s', x, -, hx, rfl⟩
  · rw [State.me_raise]
    exact ⟨fun _ => rfl, fun _ => rfl, fun _ => rfl, fun _ => rfl⟩
  · rw [State.me_setMe]
    exact ⟨hx.a, hx.res, hx.p, hx.run⟩

end Sys2Proof.Machine

namespace Sys2Proof.Machine

/-! ### Going on and completing from issue (R50 to R52) -/

/-- μ1 of an operation just issued goes on with the word at APC in its context (R50, R51). -/
theorem State.goto_enter {s : State} {op : Instr} (h : s.issues op) (loc loc' : Locals) (k : Nat) :
    (s.enter loc).goto k loc' = s.setMe (s.me.mid s.opWord k loc') := by
  simp [Agent.mid, State.opWord_issue h.1]

/-- A Boolean outcome and completion, in one record (R52, R83). -/
theorem State.complete_setOutcome (s : State) (b : Bool) :
    (s.setOutcome b).complete = s.setMe { s.me with res := some (bool64 b), p := some b }.done := by
  simp [Agent.done]

/-! ### fifo.init (R90, R128 to R132) -/

/-- An issued `fifo.init` whose checks fail raises the fault of the first that does (R137). -/
theorem exec_fifoInit_raises {s : State} {i : InstId} {len : Word} {base : DWord} {f : FCode}
    (h : s.issues (.fifoInit i len)) (ha : s.me.a = some base) (hf : s.initCheck i base len = some f) :
    exec (.fifoInit i len) s = .next (s.raise f) := by
  have hcapture : captureBase s = some { Locals.empty with base := base } := by simp [captureBase, ha]
  have hcheck : (s.enter { Locals.empty with base := base }).initCheck i base len = some f := hf
  rw [exec, execFifoInit, perform_issues h hcapture, atomically_one]
  simp only [hcheck, State.raise_enter]

/-- An issued `fifo.init` that passes its checks binds the FIFO. -/
theorem exec_fifoInit_binds {s : State} {i : InstId} {len : Word} {base : DWord}
    (h : s.issues (.fifoInit i len)) (ha : s.me.a = some base) (hf : s.initCheck i base len = none) :
    exec (.fifoInit i len) s = .next ((s.setFifo i (Fifo.binding base len)).setMe s.me.done) := by
  have hcapture : captureBase s = some { Locals.empty with base := base } := by simp [captureBase, ha]
  have hcheck : (s.enter { Locals.empty with base := base }).initCheck i base len = none := hf
  rw [exec, execFifoInit, perform_issues h hcapture, atomically_one]
  simp only [hcheck]
  simp [Agent.done]

/-- The length check of R90 refuses exactly what is no power of two: 32 bits hold none above 2^31. -/
theorem initLen_iff (len : Word) :
    (len.toNat = 0 ∨ isPow2 len.toNat = false ∨ 2 ^ 31 < len.toNat) ↔ ¬ ∃ k, len.toNat = 2 ^ k := by
  constructor
  · intro hbad hpow
    obtain ⟨h0, h2, hmax⟩ := len_of_pow2 len hpow
    rcases hbad with hz | hno | hbig
    · exact h0 hz
    · exact absurd (h2.symm.trans hno) (by decide)
    · omega
  · intro hno
    refine .inr (.inl (Bool.eq_false_iff.mpr fun h2 => hno ?_))
    exact (isPow2_iff (by have := len.isLt; omega)).mp h2

/-- The overlap check of R90 in the words of R132: some byte of the new region lies in that of another bound
FIFO. -/
theorem State.any_meetsRegion_iff (s : State) (i : InstId) (b n : Nat) :
    (List.finRange 16).any (s.meetsRegion i b n) = true ↔
      ∃ j, j ≠ i ∧ s.cfg.hasInst j = true ∧ (s.fifoAt j).bound = true
        ∧ ∃ y, b ≤ y ∧ y < b + n ∧ (s.fifoAt j).base.toNat ≤ y
          ∧ y < (s.fifoAt j).base.toNat + (s.fifoAt j).len.toNat * s.esizeAt j := by
  simp only [List.any_eq_true, List.mem_finRange, true_and, State.meetsRegion_iff]

/-- FG passes the role and binding checks of `fifo.init`. -/
theorem State.issues_fifoInit {s : State} (hctx : s.me.ctx = none) (hfg : s.actor = FG) (i : InstId) (len : Word) :
    s.issues (.fifoInit i len) :=
  ⟨hctx, decide_eq_true hfg, rfl⟩

/-- Settles O11: the checks of `State.initCheck` one after the other, each in the words of R90 (`initLen_iff`,
`any_meetsRegion_iff`); where one passes, the rest remain. -/
theorem fifoInitChecksThenBinds : Obligations.FifoInitChecksThenBinds := by
  intro i len base s hctx hfg ha size meets
  have hissues := State.issues_fifoInit hctx hfg i len
  have raises : ∀ f, s.initCheck i base len = some f → exec (.fifoInit i len) s = .next (s.raise f) :=
    fun f => exec_fifoInit_raises hissues ha
  have binds := exec_fifoInit_binds (len := len) (base := base) hissues ha
  have hmeets : _ ↔ ∃ j, meets j := s.any_meetsRegion_iff i base.toNat size
  rw [State.initCheck] at raises binds
  refine ⟨fun hb => raises _ (if_pos hb), fun hb => ?_, rfl, rfl, rfl, rfl, rfl⟩
  rw [if_neg (by simp [hb])] at raises binds
  refine ⟨fun hno => raises _ (if_pos ((initLen_iff len).mpr hno)), fun hpow => ?_⟩
  rw [if_neg (mt (initLen_iff len).mp (not_not_intro hpow))] at raises binds
  refine ⟨fun hoff => raises _ (if_pos hoff), fun halign => ?_⟩
  rw [if_neg (not_not_intro halign)] at raises binds
  refine ⟨fun hover => raises _ (if_pos hover), fun hfits => ?_⟩
  have hinside : ¬ Config.dataSpace < base.toNat + len.toNat * s.esizeAt i := Nat.not_lt.mpr hfits
  rw [if_neg hinside] at raises binds
  refine ⟨fun hmeet => raises _ (if_pos (hmeets.mpr hmeet)), fun hapart => ?_⟩
  rw [binds (if_neg (mt hmeets.mp hapart)), Fifo.binding, BitVec.ofNat_toNat]

/-! ### fifo.push (R91) -/

/-- What an issued push captures (R82). -/
theorem captureElem_of_operandValue {s : State} {i : InstId} {src : Operand} {x : DWord}
    (hx : operandValue src s = some x) :
    captureElem i src s = some { Locals.empty with v := cutElem (s.esizeAt i) x } := by
  simp [captureElem, hx]

theorem State.isFull_iff (s : State) (i : InstId) :
    isFull (s.fifoAt i).wr (s.fifoAt i).rd (s.fifoAt i).len = true ↔ (s.fifoAt i).len.toNat ≤ (s.count i).toNat :=
  decide_eq_true_iff

/-- The issue of a push with room, where the slot lies in memory: the element is stored (R91). -/
theorem exec_fifoPush_stores {s : State} {i : InstId} {src : Operand} {x : DWord} (h : s.issues (.fifoPush i src))
    (hx : operandValue src s = some x) (hroom : (s.count i).toNat < (s.fifoAt i).len.toNat)
    (hspace : s.slotInSpace i (s.fifoAt i).wr = true) :
    exec (.fifoPush i src) s
      = .next ((s.elemWrite i (s.fifoAt i).wr (cutElem (s.esizeAt i) x)).setMe
          (s.me.mid s.opWord 2 { Locals.empty with v := cutElem (s.esizeAt i) x, w := (s.fifoAt i).wr })) := by
  have hfull := Bool.eq_false_iff.mpr (mt (s.isFull_iff i).mp (Nat.not_le.mpr hroom))
  rw [exec, execFifoPush, perform_issues h (captureElem_of_operandValue hx)]
  simp [pushMicro, hfull, hspace, Agent.mid, State.opWord_issue h.1]

/-- The issue of a push into a full FIFO (R133). -/
theorem exec_fifoPush_overruns {s : State} {i : InstId} {src : Operand} {x : DWord} (h : s.issues (.fifoPush i src))
    (hx : operandValue src s = some x) (hfull : (s.fifoAt i).len.toNat ≤ (s.count i).toNat) :
    exec (.fifoPush i src) s = .next (s.raise .overrun) := by
  rw [exec, execFifoPush, perform_issues h (captureElem_of_operandValue hx), ← State.raise_enter]
  exact if_pos ((s.isFull_iff i).mpr hfull)

/-- μ2 of a push publishes the index after the one it loaded (R91, R71). -/
theorem exec_fifoPush_publishes {s : State} {i : InstId} {loc : Locals} (src : Operand) (h : s.inside 2 loc) :
    exec (.fifoPush i src) s = .next ((s.setFifo i { s.fifoAt i with wr := loc.w + 1 }).setMe s.me.done) := by
  rw [exec, execFifoPush, perform_inside h]
  rfl

theorem State.issues.bound {s : State} {op : Instr} {i : InstId} (h : s.issues op) (hn : needsBound op = some i) :
    (s.fifoAt i).bound = true := by
  obtain ⟨-, -, hb⟩ := h
  rwa [State.boundOk, hn] at hb

/-- Settles O12: the slot of WR(i) lies in memory because the FIFO is bound. -/
theorem pushStoresThenPublishes : Obligations.PushStoresThenPublishes := by
  intro i src s
  refine ⟨fun x h hr hx hroom => ?_, fun x h hx hfull => exec_fifoPush_overruns h hx hfull,
    fun loc h => exec_fifoPush_publishes src h⟩
  exact exec_fifoPush_stores h hx hroom (hr.slotInSpace (h.bound rfl) _)

/-! ### fifo.pop and fifo.drop (R92, R94) -/

section TakeMicroOperations
variable {i : InstId} {op : Instr} {s : State} {loc : Locals} (ho : op = .fifoPop i ∨ op = .fifoDrop i)
include ho

/-- μ1 of `fifo.pop` and `fifo.drop` loads RD(i). -/
theorem exec_take_loads (h : s.issues op) :
    exec op s = .next (s.setMe (s.me.mid s.opWord 2 { Locals.empty with r := (s.fifoAt i).rd })) := by
  rw [exec_take ho, perform_issues h rfl]
  exact congrArg _ (State.goto_enter h _ _ 2)

/-- μ2 leaves where the FIFO is empty. -/
theorem exec_take_leaves (h : s.inside 2 loc) (hempty : (s.fifoAt i).wr = loc.r) :
    exec op s = .next (s.setMe { s.me with res := some 0, p := some false }.done) := by
  have hanswer : isEmpty (s.fifoAt i).wr loc.r = true := by simp [isEmpty, hempty]
  rw [exec_take ho, perform_inside h]
  simp [takeMicro, hanswer, Agent.done]

/-- μ2 goes on with WR(i) loaded where there is an element. -/
theorem exec_take_goesOn (h : s.inside 2 loc) (hsome : (s.fifoAt i).wr ≠ loc.r) :
    exec op s = .next (s.setMe (s.me.mid s.opWord 3 { loc with w := (s.fifoAt i).wr })) := by
  have hanswer : isEmpty (s.fifoAt i).wr loc.r = false := by
    rw [isEmpty, beq_eq_false_iff_ne, sub_ne_zero]
    exact hsome
  rw [exec_take ho, perform_inside h]
  simp only [takeMicro, hanswer, Bool.false_eq_true, if_false, State.goto_inside h]

/-- μ3 reads the element of the loaded index. -/
theorem exec_take_reads {v : Word} (h : s.inside 3 loc) (hspace : s.slotInSpace i loc.r = true)
    (hv : s.elemRead i loc.r = some v) :
    exec op s = .next (s.setMe (s.me.mid s.opWord 4 { loc with v := v })) := by
  rw [exec_take ho, perform_inside h]
  simp only [takeMicro, hspace, hv, Bool.true_eq_false, if_false, State.goto_inside h]

/-- μ3 raises F_UNINIT_READ where the slot does not read (R134). -/
theorem exec_take_uninitRead (h : s.inside 3 loc) (hspace : s.slotInSpace i loc.r = true)
    (hv : s.elemRead i loc.r = none) : exec op s = .next (s.raise .uninitRead) := by
  rw [exec_take ho, perform_inside h]
  exact takeMicro_uninitRead hspace hv

/-- μ4 stores the index after the loaded one and delivers the element. -/
theorem exec_take_delivers (h : s.inside 4 loc) :
    exec op s = .next ((s.setFifo i { s.fifoAt i with rd := loc.r + 1 }).setMe
      { s.me with res := some (zext64 loc.v), p := some true }.done) := by
  rw [exec_take ho, perform_inside h]
  simp [takeMicro, Agent.done]

end TakeMicroOperations

/-- Settles O14: the micro-operations one by one; the slot of a bound FIFO lies in memory. -/
theorem takeMicroOperations : Obligations.TakeMicroOperations := fun _ _ _ ho =>
  ⟨exec_take_loads ho, fun _ => exec_take_leaves ho, fun _ => exec_take_goesOn ho,
    fun _ _ h hr hb => exec_take_reads ho h (hr.slotInSpace hb _),
    fun _ h hr hb => exec_take_uninitRead ho h (hr.slotInSpace hb _), fun _ => exec_take_delivers ho⟩

/-! ### The queries (R96, R97) -/

/-- μ1 of a query loads RD(i). -/
theorem perform_query_loads {s : State} {op : Instr} (i : InstId) (answer : Word → Word → Bool) (h : s.issues op) :
    perform op captureNone (queryMicro i answer) s
      = .next (s.setMe (s.me.mid s.opWord 2 { Locals.empty with r := (s.fifoAt i).rd })) := by
  rw [perform_issues h rfl]
  exact congrArg _ (State.goto_enter h _ _ 2)

/-- μ2 of a query answers from WR(i) and the index loaded before. -/
theorem perform_query_answers {s : State} {loc : Locals} (op : Instr) (i : InstId) (answer : Word → Word → Bool)
    (h : s.inside 2 loc) :
    perform op captureNone (queryMicro i answer) s
      = .next (s.setMe { s.me with
          res := some (bool64 (answer (s.fifoAt i).wr loc.r)), p := some (answer (s.fifoAt i).wr loc.r) }.done) := by
  rw [perform_inside h]
  exact congrArg _ (s.complete_setOutcome _)

/-- Settles O17: the two micro-operations that both queries share, with the answer of each. -/
theorem queriesAnswerFromTwoLoads : Obligations.QueriesAnswerFromTwoLoads := by
  intro i s loc
  refine ⟨perform_query_loads i _, perform_query_loads i _,
    fun h => ⟨isFull (s.fifoAt i).wr loc.r (s.fifoAt i).len, ?_, perform_query_answers _ i _ h⟩,
    fun h => ⟨isEmpty (s.fifoAt i).wr loc.r, ?_, perform_query_answers _ i _ h⟩⟩
  · exact decide_eq_true_iff
  · rw [isEmpty, beq_iff_eq, sub_eq_zero]

/-! ### fifo.regwaker and fifo.wake (R93, R95) -/

@[simp] theorem State.setFifo_fifoAt (s : State) (i : InstId) : s.setFifo i (s.fifoAt i) = s := by
  simp [State.setFifo, State.fifoAt]

/-- Settles O18: the registration of a token that stands already writes the same registers. -/
theorem regwakerRegisters : Obligations.RegwakerRegisters := by
  intro i tok s h
  have hexec : exec (.fifoRegwaker i tok) s
      = .next ((s.setFifo i { s.fifoAt i with wkv := true, wkt := tok }).setMe s.me.done) := by
    rw [exec, execFifoRegwaker, perform_issues h rfl]
    simp [Agent.done]
  refine ⟨hexec, fun hwkv hwkt => ?_⟩
  have hsame : { s.fifoAt i with wkv := true, wkt := tok } = s.fifoAt i := by rw [← hwkv, ← hwkt]
  rw [hexec, hsame, State.setFifo_fifoAt]

/-- Settles O19: the two branches of `fifo.wake`. -/
theorem wakeTakesAndClears : Obligations.WakeTakesAndClears := by
  intro i s h
  rw [exec, execFifoWake, perform_issues h rfl]
  refine ⟨fun hwkv => ?_, fun hwkv => ?_⟩
  · simp [hwkv, Agent.done, bool64]
  · simp [hwkv, Agent.done, bool64]

end Sys2Proof.Machine

namespace Sys2Proof.Machine

/-! ### Whole operations, with no step of another agent between (R91, R92, R94, R96) -/

/-- RD(i) up by one, as μ4 of `fifo.pop` and `fifo.drop` leaves it (R92, R94). -/
def State.taken (s : State) (i : InstId) : State := s.setFifo i { s.fifoAt i with rd := (s.fifoAt i).rd + 1 }

/-- `v` in the slot of WR(i) and WR(i) up by one, as μ1 and μ2 of `fifo.push` leave them (R91). -/
def State.pushed (s : State) (i : InstId) (v : Word) : State :=
  (s.elemWrite i (s.fifoAt i).wr v).setFifo i { s.fifoAt i with wr := (s.fifoAt i).wr + 1 }

/-- A micro-operation that goes on twice leaves the later context (R51). -/
theorem State.goesOn_mid (s : State) (x : Agent) (w : DWord) (k k' : Nat) (loc loc' : Locals) :
    (s.setMe (x.mid w k loc)).setMe ((s.setMe (x.mid w k loc)).me.mid (s.setMe (x.mid w k loc)).opWord k' loc')
      = s.setMe (x.mid w k' loc') := by
  simp [Agent.mid, State.opWord]

/-- A whole `fifo.pop` or `fifo.drop` on an empty FIFO. -/
theorem execAlone_take_absent {s : State} {i : InstId} {op : Instr} (ho : op = .fifoPop i ∨ op = .fifoDrop i)
    (h : s.issues op) (hcount : s.count i = 0) :
    execAlone op 2 s = .next (s.setMe { s.me with res := some 0, p := some false }.done) := by
  have hempty : (s.fifoAt i).wr = (s.fifoAt i).rd := sub_eq_zero.mp hcount
  rw [execAlone_next (exec_take_loads ho h),
    execAlone_next (exec_take_leaves (loc := { Locals.empty with r := (s.fifoAt i).rd }) ho (s.inside_mid _ _ _ _)
      hempty)]
  simp [execAlone, Agent.done, Agent.mid]

/-- A whole `fifo.pop` or `fifo.drop` of an element that reads. -/
theorem execAlone_take_present {s : State} {i : InstId} {op : Instr} {v : Word}
    (ho : op = .fifoPop i ∨ op = .fifoDrop i) (h : s.issues op) (hcount : s.count i ≠ 0)
    (hspace : s.slotInSpace i (s.fifoAt i).rd = true) (hv : s.elemRead i (s.fifoAt i).rd = some v) :
    execAlone op 4 s
      = .next ((s.taken i).setMe { s.me with res := some (zext64 v), p := some true }.done) := by
  have hsome : (s.fifoAt i).wr ≠ (s.fifoAt i).rd := fun he => hcount (sub_eq_zero.mpr he)
  have checks : exec op (s.setMe (s.me.mid s.opWord 2 { Locals.empty with r := (s.fifoAt i).rd }))
      = .next (s.setMe (s.me.mid s.opWord 3
          { Locals.empty with r := (s.fifoAt i).rd, w := (s.fifoAt i).wr })) := by
    refine Eq.trans (exec_take_goesOn ho (s.inside_mid _ _ _ _) hsome) ?_
    rw [State.goesOn_mid, State.fifoAt_setMe]
  have reads : exec op (s.setMe (s.me.mid s.opWord 3
        { Locals.empty with r := (s.fifoAt i).rd, w := (s.fifoAt i).wr }))
      = .next (s.setMe (s.me.mid s.opWord 4
          { Locals.empty with r := (s.fifoAt i).rd, w := (s.fifoAt i).wr, v := v })) := by
    refine Eq.trans (exec_take_reads ho (s.inside_mid _ _ _ _) hspace hv) ?_
    rw [State.goesOn_mid]
  rw [execAlone_next (exec_take_loads ho h), execAlone_next checks, execAlone_next reads,
    execAlone_next (exec_take_delivers ho (s.inside_mid _ _ _ _))]
  simp [execAlone, Agent.done, Agent.mid, State.taken]

theorem needsBound_take {i : InstId} {op : Instr} (ho : op = .fifoPop i ∨ op = .fifoDrop i) :
    needsBound op = some i := by
  rcases ho with rfl | rfl <;> rfl

/-- Settles O16: the micro-operations one after the other. -/
theorem takeDeliversOldestOrAbsent : Obligations.TakeDeliversOldestOrAbsent := fun _ _ _ ho h =>
  ⟨execAlone_take_absent ho h, fun _ hcount hr hv =>
    execAlone_take_present ho h hcount (hr.slotInSpace (h.bound (needsBound_take ho)) _) hv⟩

/-- A whole push with room: the element in its slot, WR(i) up by one. -/
theorem execAlone_push {s : State} {i : InstId} {src : Operand} {x : DWord} (h : s.issues (.fifoPush i src))
    (hx : operandValue src s = some x) (hroom : (s.count i).toNat < (s.fifoAt i).len.toNat)
    (hspace : s.slotInSpace i (s.fifoAt i).wr = true) :
    execAlone (.fifoPush i src) 2 s
      = .next ((s.pushed i (cutElem (s.esizeAt i) x)).setMe s.me.done) := by
  rw [execAlone_next (exec_fifoPush_stores h hx hroom hspace),
    execAlone_next (exec_fifoPush_publishes src (State.inside_mid _ _ _ _ _))]
  simp [execAlone, Agent.done, Agent.mid, State.pushed]

/-- A whole `fifo.isfull`. -/
theorem execAlone_isfull {s : State} {i : InstId} (h : s.issues (.fifoIsfull i)) :
    execAlone (.fifoIsfull i) 2 s
      = .next (s.setMe { s.me with
          res := some (bool64 (isFull (s.fifoAt i).wr (s.fifoAt i).rd (s.fifoAt i).len)),
          p := some (isFull (s.fifoAt i).wr (s.fifoAt i).rd (s.fifoAt i).len) }.done) := by
  rw [execAlone_next (i := .fifoIsfull i) (perform_query_loads i _ h),
    execAlone_next (i := .fifoIsfull i) (perform_query_answers (.fifoIsfull i) i _ (s.inside_mid _ _ _ _))]
  simp [execAlone, Agent.done, Agent.mid]

/-! ### What the FIFO holds after a whole operation (R75) -/

/-- The first of the unread elements stands at RD(i), and the count is their number. -/
theorem State.contents_cons {s : State} {i : InstId} {e : Option Word} {rest : List (Option Word)}
    (h : s.contents i = e :: rest) :
    (s.count i).toNat = rest.length + 1 ∧ s.elemRead i (s.fifoAt i).rd = e := by
  have hlength := congrArg List.length h
  have hhead := congrArg List.head? h
  simp only [State.contents, List.length_map, List.length_range, List.length_cons] at hlength
  simp only [State.contents, hlength, List.range_succ_eq_map, List.map_cons, List.head?_cons, Option.some.injEq,
    BitVec.add_zero] at hhead
  exact ⟨hlength, hhead⟩

@[simp] theorem State.taken_fifoAt (s : State) (i : InstId) :
    (s.taken i).fifoAt i = { s.fifoAt i with rd := (s.fifoAt i).rd + 1 } :=
  s.fifoAt_setFifo i _

@[simp] theorem State.taken_setMe (s : State) (x : Agent) (i : InstId) :
    (s.setMe x).taken i = (s.taken i).setMe x := rfl

/-- A take moves no storage. -/
theorem State.regionsOk.taken {s : State} (h : s.regionsOk) (i : InstId) : (s.taken i).regionsOk := by
  refine State.regionsOk_congr (s := s) (t := s.taken i) rfl (fun j => ?_) h
  by_cases hj : j = i
  · subst hj
    rw [State.taken_fifoAt]
    exact ⟨rfl, rfl, rfl⟩
  · rw [State.taken, State.fifoAt_setFifo_other _ hj]
    exact ⟨rfl, rfl, rfl⟩

/-- A take removes the oldest element from what the FIFO holds. -/
theorem State.contents_taken {s : State} {i : InstId} {e : Option Word} {rest : List (Option Word)}
    (h : s.contents i = e :: rest) : (s.taken i).contents i = rest ∧ ((s.taken i).count i).toNat = rest.length := by
  obtain ⟨hcount, -⟩ := State.contents_cons h
  have hleft : ((s.taken i).count i).toNat = rest.length := by
    rw [State.count] at hcount
    rw [State.count, State.taken_fifoAt]
    show ((s.fifoAt i).wr - ((s.fifoAt i).rd + 1)).toNat = rest.length
    bv_omega
  have hnext : ∀ j, (s.fifoAt i).rd + 1 + BitVec.ofNat 32 j = (s.fifoAt i).rd + BitVec.ofNat 32 (j + 1) := by
    intro j
    rw [Nat.add_comm j 1, BitVec.ofNat_add, ← BitVec.add_assoc]
    rfl
  have hread : ∀ idx, (s.taken i).elemRead i idx = s.elemRead i idx := fun idx =>
    State.elemRead_congr rfl (by rw [State.taken_fifoAt]) (by rw [State.taken_fifoAt]) rfl
  have htail := congrArg List.tail h
  simp only [State.contents, hcount, List.range_succ_eq_map, List.map_cons, List.tail_cons, List.map_map] at htail
  refine ⟨?_, hleft⟩
  rw [State.contents, hleft, State.taken_fifoAt]
  exact Eq.trans (List.map_congr_left fun j _ => (hread _).trans (congrArg (s.elemRead i) (hnext j))) htail

/-- What a bound FIFO holds after a whole push with room. -/
theorem State.contents_pushed {s : State} {i : InstId} (hl : s.cfg.legal = true) (hr : s.regionsOk)
    (hb : (s.fifoAt i).bound = true) (hroom : (s.count i).toNat < (s.fifoAt i).len.toNat) (x : DWord) :
    (s.pushed i (cutElem (s.esizeAt i) x)).contents i = s.contents i ++ [some (cutElem (s.esizeAt i) x)] := by
  obtain ⟨hinst, hstorage⟩ := hr.1 i hb
  exact State.contents_push hstorage (cutElem_lt (Config.legal_instLegal hl hinst) x) rfl
    (State.fifoAt_setFifo _ i _) rfl hroom

/-- Settles O24: the whole push (`execAlone_push`) and what is held after it (`State.contents_pushed`). -/
theorem pushAppendsElement : Obligations.PushAppendsElement := by
  intro i src x s hl hr h hx hroom
  have hb := h.bound rfl
  exact ⟨_, execAlone_push h hx hroom (hr.slotInSpace hb _), State.contents_pushed hl hr hb hroom x,
    State.me_setMe _ _⟩

/-- A whole `fifo.pop` or `fifo.drop` where the FIFO holds an element that reads. -/
theorem execAlone_take_of_contents {s : State} {i : InstId} {op : Instr} {v : Word} {rest : List (Option Word)}
    (hr : s.regionsOk) (ho : op = .fifoPop i ∨ op = .fifoDrop i) (h : s.issues op)
    (hcontents : s.contents i = some v :: rest) :
    execAlone op 4 s
      = .next ((s.taken i).setMe { s.me with res := some (zext64 v), p := some true }.done) := by
  obtain ⟨hcount, hhead⟩ := State.contents_cons hcontents
  have hsome : s.count i ≠ 0 := by
    intro hzero
    simp [hzero] at hcount
  exact execAlone_take_present ho h hsome (hr.slotInSpace (h.bound (needsBound_take ho)) _) hhead

/-- Settles O25: the whole take and what is held after it (`State.contents_taken`). -/
theorem takeRemovesHeadElement : Obligations.TakeRemovesHeadElement := by
  intro i op v rest s hr ho h hcontents
  exact ⟨_, execAlone_take_of_contents hr ho h hcontents, (State.contents_taken hcontents).1, State.me_setMe _ _⟩

/-! ### The drop-oldest idiom (R89, R102) -/

/-- A branch on P = 0 falls through where P = 1 (R121). -/
theorem exec_seqBnp_fallsThrough {s : State} {simm : Word} (h : s.issues (.seqBnp simm)) (hp : s.me.p = some true) :
    exec (.seqBnp simm) s = .next (s.setMe s.me.done) := by
  rw [exec, execSeqBnp, perform_issues h rfl]
  simp [State.readReg, State.branchIf, hp, Agent.done]

theorem State.issues_setMe {s : State} {x : Agent} {op : Instr} (hctx : x.ctx = none)
    (hrole : (roleOf op).allows s.cfg s.actor = true) (hb : s.boundOk op = true) : (s.setMe x).issues op :=
  ⟨(congrArg Agent.ctx (s.me_setMe x)).trans hctx, hrole, hb⟩

/-- The query and the branch of the idiom on a full FIFO: they raise no fault and lead to the drop. -/
theorem runAlone_isfull_bnp {s : State} {i : InstId} (hctx : s.me.ctx = none) (hb : (s.fifoAt i).bound = true)
    (hfull : (s.fifoAt i).len.toNat ≤ (s.count i).toNat) (simm : Word) :
    ∃ x : Agent, x.ctx = none ∧ x.apc = s.me.apc + 1 + 1
      ∧ ∀ ops, runAlone ((.fifoIsfull i, 2) :: (.seqBnp simm, 1) :: ops) s = runAlone ops (s.setMe x) := by
  have hquery := execAlone_isfull (s := s) (i := i) ⟨hctx, rfl, hb⟩
  rw [(s.isFull_iff i).mpr hfull] at hquery
  have hbranch : ∀ x : Agent, x.ctx = none → x.p = some true →
      execAlone (.seqBnp simm) 1 (s.setMe x) = .next (s.setMe x.done) := by
    intro x hx hp
    rw [execAlone_next (exec_seqBnp_fallsThrough (State.issues_setMe hx rfl rfl) ((congrArg Agent.p
      (s.me_setMe x)).trans hp)), State.me_setMe, State.setMe_setMe, execAlone]
  refine ⟨{ s.me with res := some (bool64 true), p := some true }.done.done, rfl, rfl, fun ops => ?_⟩
  rw [runAlone_next hquery, runAlone_next (hbranch _ rfl rfl)]

/-- Settles O27: the query answers full and the branch falls through (`runAlone_isfull_bnp`); the drop makes room
for the push. -/
theorem pushEvictReplacesOldest : Obligations.PushEvictReplacesOldest := by
  intro i v w rest s hl hr hctx hprod hb hfull hcontents
  have hrole : (Role.producer i).allows s.cfg s.actor = true := decide_eq_true hprod
  obtain ⟨hcount, -⟩ := State.contents_cons hcontents
  obtain ⟨hrest, hleft⟩ := State.contents_taken hcontents
  have hroom : ((s.taken i).count i).toNat < ((s.taken i).fifoAt i).len.toNat := by
    rw [hleft, State.taken_fifoAt]
    exact Nat.lt_of_succ_le (hcount.symm.trans hfull).le
  have hbound : ((s.taken i).fifoAt i).bound = true := by
    rw [State.taken_fifoAt]
    exact hb
  have hregions := hr.taken i
  obtain ⟨x, hx, hxapc, hlead⟩ := runAlone_isfull_bnp hctx hb hfull.ge 2
  have hdrop := execAlone_take_of_contents (s := s.setMe x) hr (.inr rfl) (State.issues_setMe hx hrole hb) hcontents
  rw [State.taken_setMe, State.setMe_setMe, State.me_setMe] at hdrop
  have hpush := execAlone_push (s := (s.taken i).setMe { x with res := some (zext64 w), p := some true }.done)
    (State.issues_setMe (op := .fifoPush i (.imm v)) rfl hrole hbound) rfl hroom (hregions.slotInSpace hbound _)
  have hrun := (hlead [(.fifoDrop i, 4), (.fifoPush i (.imm v), 2)]).trans
    ((runAlone_next hdrop).trans (runAlone_next hpush))
  refine ⟨rfl, _, hrun, rfl, ?_, ?_⟩
  · rw [← hrest]
    exact State.contents_pushed (s := (s.taken i).setMe _) hl hregions hbound hroom _
  · rw [State.me_setMe, State.me_setMe]
    show x.apc + 1 + 1 = s.me.apc + 4
    omega

/-! ### What an operation does to a bound FIFO (R93, R98, R101) -/

/-- `fifo.init` does not pass its checks on a bound FIFO (R128). -/
theorem State.initCheck_bound {s : State} {i : InstId} (hb : (s.fifoAt i).bound = true) (base : DWord) (len : Word) :
    s.initCheck i base len = some .initTwice :=
  if_pos hb

/-- Everything one step of an operation can do to a bound FIFO: nothing, store WR, store RD, register a waker, or
answer a registered one with its Wake. -/
theorem SharedEffect.bound_cases {s s' : State} {op : Instr} (h : SharedEffect s op s') {j : InstId}
    (hb : (s.fifoAt j).bound = true) :
    s'.fifoAt j = s.fifoAt j
      ∨ (∃ src v, op = .fifoPush j src ∧ s'.fifoAt j = { s.fifoAt j with wr := v })
      ∨ ((op = .fifoPop j ∨ op = .fifoDrop j) ∧ ∃ v, s'.fifoAt j = { s.fifoAt j with rd := v })
      ∨ (∃ tok, op = .fifoRegwaker j tok ∧ s'.fifoAt j = { s.fifoAt j with wkv := true, wkt := tok })
      ∨ (op = .fifoWake j ∧ s'.fifoAt j = { s.fifoAt j with wkv := false }
          ∧ s'.ev = s.ev ++ [.wake j (s.fifoAt j).wkt]) := by
  by_cases hj : op.inst? = some j
  · cases h with
    | unchanged => exact .inl rfl
    | store => exact .inl rfl
    | bind i len base hc =>
      cases hj
      rw [State.initCheck_bound hb] at hc
      cases hc
    | publish i src v =>
      cases hj
      exact .inr (.inl ⟨src, v, rfl, State.fifoAt_setFifo _ _ _⟩)
    | take op i v ho =>
      obtain rfl : i = j := Option.some.inj ((inst_of_take ho).symm.trans hj)
      exact .inr (.inr (.inl ⟨ho, v, State.fifoAt_setFifo _ _ _⟩))
    | register i tok =>
      cases hj
      exact .inr (.inr (.inr (.inl ⟨tok, rfl, State.fifoAt_setFifo _ _ _⟩)))
    | notify i hw =>
      cases hj
      exact .inr (.inr (.inr (.inr ⟨rfl, State.fifoAt_setFifo _ _ _, rfl⟩)))
    | check op ho => rcases ho with rfl | rfl <;> cases hj
    | _ => cases hj
  · exact .inl (h.fifoAt_other j hj)

/-- What becomes of the waker slot of a bound FIFO: kept, written by a registration, or answered with its Wake. -/
theorem SharedEffect.waker_cases {s s' : State} {op : Instr} (h : SharedEffect s op s') {i : InstId}
    (hb : (s.fifoAt i).bound = true) :
    ((s'.fifoAt i).wkv = (s.fifoAt i).wkv ∧ (s'.fifoAt i).wkt = (s.fifoAt i).wkt)
      ∨ (∃ tok, op = .fifoRegwaker i tok ∧ (s'.fifoAt i).wkv = true ∧ (s'.fifoAt i).wkt = tok)
      ∨ s'.ev = s.ev ++ [.wake i (s.fifoAt i).wkt] := by
  rcases h.bound_cases hb with hf | ⟨_, v, _, hf⟩ | ⟨_, v, hf⟩ | ⟨tok, ho, hf⟩ | ⟨_, hf, hev⟩ <;> rw [hf]
  · exact .inl ⟨rfl, rfl⟩
  · exact .inl ⟨rfl, rfl⟩
  · exact .inl ⟨rfl, rfl⟩
  · exact .inr (.inl ⟨tok, ho, rfl, rfl⟩)
  · exact .inr (.inr hev)

/-- Settles O20: the waker slot by `SharedEffect.waker_cases`; where it is kept, EV gets one entry at most. -/
theorem registrationIsNeverLost : Obligations.RegistrationIsNeverLost := by
  intro op i s t h hb hwkv
  rcases exec_effect h with ⟨f, rfl⟩ | ⟨-, s', x, hs, -, rfl⟩
  · exact .inl ⟨hwkv, rfl, rfl⟩
  rw [State.fifoAt_setMe, State.setMe_ev]
  rcases hs.waker_cases hb with ⟨hv, ht⟩ | ⟨tok, ho, hv, ht⟩ | hev
  · rcases hs.ev_cases with hev | ⟨hev, -⟩
    · exact .inl ⟨hv.trans hwkv, hev, ht⟩
    · exact .inr (.inr (.inl ⟨hv.trans hwkv, ht, hev⟩))
  · exact .inr (.inl ⟨hv, tok, ho, ht⟩)
  · exact .inr (.inr (.inr hev))

/-- The writers of the indices of a bound FIFO: a push of WR, a take of RD (R26, R27, R98). -/
theorem SharedEffect.index_writers {s s' : State} {op : Instr} (h : SharedEffect s op s') {i : InstId}
    (hb : (s.fifoAt i).bound = true) :
    ((s'.fifoAt i).wr ≠ (s.fifoAt i).wr → ∃ src, op = .fifoPush i src)
      ∧ ((s'.fifoAt i).rd ≠ (s.fifoAt i).rd → op = .fifoPop i ∨ op = .fifoDrop i) := by
  rcases h.bound_cases hb with hf | ⟨src, v, ho, hf⟩ | ⟨ho, v, hf⟩ | ⟨tok, _, hf⟩ | ⟨_, hf, _⟩ <;> rw [hf]
  · exact ⟨fun hne => absurd rfl hne, fun hne => absurd rfl hne⟩
  · exact ⟨fun _ => ⟨src, ho⟩, fun hne => absurd rfl hne⟩
  · exact ⟨fun hne => absurd rfl hne, fun _ => ho⟩
  · exact ⟨fun hne => absurd rfl hne, fun hne => absurd rfl hne⟩
  · exact ⟨fun hne => absurd rfl hne, fun hne => absurd rfl hne⟩

/-- Settles O59: the operation that moves an index is a push or a take (`SharedEffect.index_writers`), which under the
invariant its role's agent performs. -/
theorem onlyTheRolesMoveTheIndices : Obligations.OnlyTheRolesMoveTheIndices := by
  intro s t a ms i hI hm h hb
  rw [step_scripted hI.legal hm] at h
  rcases performMove_cases h with ⟨b, ha, hmay, hstep⟩ | ⟨b, ha, -⟩ | ⟨b, ha, -⟩ | ⟨ha, -⟩ <;> cases ha
  obtain ⟨-, hrun, -⟩ := (State.mayStep_iff _ a).mp hmay
  have hctx := (hI.reschedule ms s.choiceNo a).ctx
  rcases hctx.agentStep_effect hrun hstep with ⟨f, rfl⟩ | ⟨op, s', x, hop, hs, -, rfl⟩
  · exact ⟨fun hne => absurd rfl hne, fun hne => absurd rfl hne⟩
  · obtain ⟨hwr, hrd⟩ := hs.index_writers hb
    refine ⟨fun hne => ?_, fun hne => ?_⟩
    · obtain ⟨src, rfl⟩ := hwr hne
      exact of_decide_eq_true hop.role
    · rcases hrd hne with rfl | rfl
      · exact .inl (of_decide_eq_true hop.role)
      · exact .inr (of_decide_eq_true hop.role)

/-! ### When a query's answer is a guarantee (R99) -/

/-- The issue of a push with room does not overrun, whatever else it does. -/
theorem exec_fifoPush_ne_overrun {s : State} {i : InstId} {src : Operand} {x : DWord} (h : s.issues (.fifoPush i src))
    (hx : operandValue src s = some x) (hroom : (s.count i).toNat < (s.fifoAt i).len.toNat) :
    exec (.fifoPush i src) s ≠ .next (s.raise .overrun) := by
  intro hover
  by_cases hspace : s.slotInSpace i (s.fifoAt i).wr = true
  · rw [exec_fifoPush_stores h hx hroom hspace, Host.Outcome.next.injEq] at hover
    have hctx := congrArg (fun u : State => u.me.ctx) hover
    simp [Agent.mid] at hctx
  · have hfull := Bool.eq_false_iff.mpr (mt (s.isFull_iff i).mp (Nat.not_le.mpr hroom))
    rw [exec, execFifoPush, perform_issues h (captureElem_of_operandValue hx)] at hover
    simp [pushMicro, hfull, hspace] at hover

/-- Settles O21: full = 0 says that the count the query saw is below LEN(i), and RD(i) has moved on from there. -/
theorem notFullGuaranteesRoom : Obligations.NotFullGuaranteesRoom := by
  intro i src x loc s t u d hin hexec hp hwr hlen hrd hd hissues hx
  cases (perform_query_answers (.fifoIsfull i) i _ hin).symm.trans hexec
  rw [State.me_setMe] at hp
  have hseen : ((s.fifoAt i).wr - loc.r).toNat < (s.fifoAt i).len.toNat :=
    Nat.not_le.mp (of_decide_eq_false (Option.some.inj hp))
  rw [State.fifoAt_setMe] at hwr hlen hd
  have hroom : (u.count i).toNat < (u.fifoAt i).len.toNat := by
    rw [State.count, hwr, hrd, hlen]
    bv_omega
  exact ⟨hroom, exec_fifoPush_ne_overrun hissues hx hroom⟩

end Sys2Proof.Machine

namespace Sys2Proof.Machine

/-! ### The micro-operations of tick.inc (R103) -/

theorem exec_tickInc_split {s : State} (hsplit : s.cfg.tickSplit = true) :
    exec .tickInc s = perform .tickInc captureNone tickSplitMicro s := by
  rw [exec, execTickInc, if_pos hsplit]

/-- `u` after the counter's last word, in an operation of `x` whose word is `w`: before μ3 where ALARM_EN holds, else
complete (R103). -/
def State.afterCounter (u : State) (x : Agent) (w : DWord) (loc : Locals) : State :=
  if u.cfg.alarmEn then u.setMe (x.mid w 3 loc) else u.setMe x.done

section AfterCounter
variable {u : State}

theorem State.afterCounter_checks (hen : u.cfg.alarmEn = true) (x : Agent) (w : DWord) (loc : Locals) :
    u.afterCounter x w loc = u.setMe (x.mid w 3 loc) := if_pos hen

theorem State.afterCounter_completes (hen : u.cfg.alarmEn = false) (x : Agent) (w : DWord) (loc : Locals) :
    u.afterCounter x w loc = u.setMe x.done := if_neg (by simp [hen])

end AfterCounter

theorem State.tickTail_inside {s : State} {k : Nat} {l : Locals} (h : s.inside k l) (loc : Locals) :
    s.tickTail loc = s.afterCounter s.me s.opWord loc := by
  rw [State.tickTail, State.goto_inside h]
  rfl

/-- What follows the counter's last word looks at the context for its word only. -/
theorem State.afterCounter_mid (u : State) (x : Agent) (w : DWord) (k : Nat) (l loc : Locals) :
    (u.setMe (x.mid w k l)).afterCounter (u.setMe (x.mid w k l)).me (u.setMe (x.mid w k l)).opWord loc
      = u.afterCounter x w loc := by
  simp [State.afterCounter, Agent.mid, Agent.done, State.opWord]

theorem State.tickTail_mid (u : State) (x : Agent) (w : DWord) (k : Nat) (l loc : Locals) :
    (u.setMe (x.mid w k l)).tickTail loc = u.afterCounter x w loc :=
  (State.tickTail_inside (u.inside_mid _ _ _ _) loc).trans (u.afterCounter_mid x w k l loc)

/-- Entering an operation puts its word, index 1 and the captured locals into the context (R50). -/
theorem State.enter_eq_mid {s : State} {op : Instr} (h : s.issues op) (loc : Locals) :
    s.enter loc = s.setMe (s.me.mid s.opWord 1 loc) := by
  rw [State.opWord_issue h.1]
  rfl

/-- μ1 of a split `tick.inc` where LO carries into HI. -/
theorem exec_tickInc_carries {s : State} (hsplit : s.cfg.tickSplit = true) (h : s.issues .tickInc)
    (hlo : s.lo = 0xFFFFFFFF) (h64 : s.cfg.tick64 = true) :
    exec .tickInc s = .next ((s.setLo 0).setMe (s.me.mid s.opWord 2 { Locals.empty with c := true })) := by
  rw [exec_tickInc_split hsplit, perform_issues h rfl, State.enter_eq_mid h]
  simp [tickSplitMicro, State.carries, hlo, h64, Agent.mid]

/-- μ1 of a split `tick.inc` where LO is the only word to store. -/
theorem exec_tickInc_low {s : State} (hsplit : s.cfg.tickSplit = true) (h : s.issues .tickInc)
    (hlast : s.lo ≠ 0xFFFFFFFF ∨ s.cfg.tick64 = false) :
    exec .tickInc s
      = .next ((s.setLo (s.lo + 1)).afterCounter s.me s.opWord { Locals.empty with c := s.carries }) := by
  have hstays : (s.cfg.tick64 && s.carries) = false := by
    rw [Bool.and_eq_false_iff, State.carries_false_iff]
    exact hlast.symm
  rw [exec_tickInc_split hsplit, perform_issues h rfl, State.enter_eq_mid h]
  simp [tickSplitMicro, hstays, State.tickTail_mid]

/-- μ2 of a split `tick.inc`. -/
theorem exec_tickInc_high {s : State} {loc : Locals} (hsplit : s.cfg.tickSplit = true) (h : s.inside 2 loc) :
    exec .tickInc s = .next ((s.setHi (s.hi + 1)).afterCounter s.me s.opWord loc) := by
  have hin : (s.setHi (s.hi + 1)).inside 2 loc := h
  rw [exec_tickInc_split hsplit, perform_inside h]
  exact congrArg _ (State.tickTail_inside hin loc)

/-- μ3 of a split `tick.inc`. -/
theorem exec_tickInc_checks {s : State} {loc : Locals} (hsplit : s.cfg.tickSplit = true) (h : s.inside 3 loc) :
    exec .tickInc s = .next (s.alarmCheck.setMe s.me.done) := by
  rw [exec_tickInc_split hsplit, perform_inside h]
  simp [tickSplitMicro, Agent.done]

/-- `tick.inc` with TICK_SPLIT false. -/
theorem exec_tickInc_atomic {s : State} (hsplit : s.cfg.tickSplit = false) (h : s.issues .tickInc) :
    exec .tickInc s = .next (s.tickWhole.checkIfPresent.setMe s.me.done) := by
  have hexec : exec .tickInc s = perform .tickInc captureNone tickAtomicMicro s := by
    simp [exec, execTickInc, hsplit]
  rw [hexec, perform_issues h rfl, State.enter_eq_mid h, tickAtomicMicro, atomically_one, State.tickWhole_setMe,
    State.checkIfPresent_setMe]
  simp [Agent.done, Agent.mid]

/-- The whole counter up by one, its two words written out. -/
theorem State.tickWhole_eq (s : State) :
    s.tickWhole = (s.setLo (s.lo + 1)).setHi
      (if s.cfg.tick64 = true ∧ s.lo = 0xFFFFFFFF then s.hi + 1 else s.hi) := by
  simp only [State.tickWhole, Bool.and_eq_true, State.carries_iff]
  split <;> rfl

/-- Settles O28: the micro-operations one by one, what follows the counter's last word by `State.afterCounter`. -/
theorem tickIncMicroOperations : Obligations.TickIncMicroOperations := by
  intro s loc
  refine ⟨exec_tickInc_carries, fun hsplit h hlast hen => ⟨s.carries, ?_⟩, fun hsplit h hlast hen => ?_,
    fun hsplit h hen => ?_, fun hsplit h hen => ?_, exec_tickInc_checks, fun hsplit h => ?_⟩
  · rw [exec_tickInc_low hsplit h hlast, State.afterCounter_checks (by exact hen)]
  · rw [exec_tickInc_low hsplit h hlast, State.afterCounter_completes (by exact hen)]
  · rw [exec_tickInc_high hsplit h, State.afterCounter_checks (by exact hen)]
  · rw [exec_tickInc_high hsplit h, State.afterCounter_completes (by exact hen)]
  · rw [exec_tickInc_atomic hsplit h, State.checkIfPresent, State.tickWhole_eq]
    rfl

/-! ### A whole tick.inc (R103, R109) -/

/-- What follows the counter's last word takes one micro-operation at most, and makes up the alarm check. -/
theorem execAlone_afterCounter {u : State} (hsplit : u.cfg.tickSplit = true) (x : Agent) (w : DWord) (loc : Locals) :
    ∃ n, n ≤ 1 ∧ execAlone .tickInc n (u.afterCounter x w loc) = .next (u.checkIfPresent.setMe x.done) := by
  cases hen : u.cfg.alarmEn with
  | true =>
    refine ⟨1, le_rfl, ?_⟩
    rw [State.afterCounter_checks hen, State.checkIfPresent, if_pos hen,
      execAlone_next (exec_tickInc_checks (s := u.setMe _) hsplit (u.inside_mid _ _ _ _))]
    simp [execAlone, State.alarmCheck_setMe, Agent.done, Agent.mid]
  | false =>
    refine ⟨0, Nat.zero_le 1, ?_⟩
    rw [State.afterCounter_completes hen, State.checkIfPresent, hen]
    rfl

/-- In every configuration a whole `tick.inc` does what the atomic one does. -/
theorem execAlone_tickInc {s : State} (h : s.issues .tickInc) :
    ∃ n, 1 ≤ n ∧ n ≤ 3 ∧ execAlone .tickInc n s = .next (s.tickWhole.checkIfPresent.setMe s.me.done) := by
  cases hsplit : s.cfg.tickSplit with
  | false => exact ⟨1, le_rfl, by omega, execAlone_next (exec_tickInc_atomic hsplit h) 0⟩
  | true =>
    rw [State.tickWhole_eq]
    by_cases hcarry : s.cfg.tick64 = true ∧ s.lo = 0xFFFFFFFF
    · obtain ⟨h64, hlo⟩ := hcarry
      obtain ⟨n, hn, hrest⟩ := execAlone_afterCounter (u := (s.setLo 0).setHi (s.hi + 1)) hsplit s.me s.opWord
        { Locals.empty with c := true }
      have high : exec .tickInc ((s.setLo 0).setMe (s.me.mid s.opWord 2 { Locals.empty with c := true }))
          = .next (((s.setLo 0).setHi (s.hi + 1)).afterCounter s.me s.opWord { Locals.empty with c := true }) := by
        rw [exec_tickInc_high (s := (s.setLo 0).setMe _) hsplit (State.inside_mid _ _ _ _ _)]
        exact congrArg _ (State.afterCounter_mid ((s.setLo 0).setHi (s.hi + 1)) s.me s.opWord 2 _ _)
      refine ⟨n + 2, by omega, by omega, ?_⟩
      rw [execAlone_next (exec_tickInc_carries hsplit h hlo h64), execAlone_next high, hrest, if_pos ⟨h64, hlo⟩, hlo]
      rfl
    · have hlast : s.lo ≠ 0xFFFFFFFF ∨ s.cfg.tick64 = false := by
        rw [← Bool.not_eq_true]
        tauto
      obtain ⟨n, hn, hrest⟩ := execAlone_afterCounter (u := s.setLo (s.lo + 1)) hsplit s.me s.opWord
        { Locals.empty with c := s.carries }
      refine ⟨n + 1, by omega, by omega, ?_⟩
      rw [execAlone_next (exec_tickInc_low hsplit h hlast), hrest, if_neg hcarry]
      rfl

theorem State.nowval_64 {s : State} (h : s.cfg.tick64 = true) : s.nowval = pair s.hi s.lo := if_pos h

theorem State.nowval_32 {s : State} (h : s.cfg.tick64 = false) : s.nowval = zext64 s.lo := by
  simp [State.nowval, h]

/-- The 64-bit counter up by one, word by word (R32). -/
theorem pair_add_one (h l : Word) :
    pair (if l = 0xFFFFFFFF then h + 1 else h) (l + 1) = pair h l + 1 := by
  have hh := h.isLt
  have hl := l.isLt
  have add_one : ∀ x : Word, (x + 1).toNat = (x.toNat + 1) % 2 ^ 32 := fun x => BitVec.toNat_add x 1
  have sum : (pair h l + 1).toNat = (h.toNat * 2 ^ 32 + l.toNat + 1) % 2 ^ 64 := by
    rw [← pair_toNat]
    exact BitVec.toNat_add _ _
  apply BitVec.eq_of_toNat_eq
  rw [sum, pair_toNat, add_one l]
  by_cases hmax : l = 0xFFFFFFFF
  · have hall : l.toNat = 0xFFFFFFFF := by bv_omega
    rw [if_pos hmax, add_one h]
    omega
  · have hless : l.toNat ≠ 0xFFFFFFFF := by bv_omega
    rw [if_neg hmax]
    omega

theorem State.nowval_tickWhole {s : State} (h64 : s.cfg.tick64 = true) : s.tickWhole.nowval = s.nowval + 1 := by
  rw [State.tickWhole_eq, State.nowval_64 h64, State.nowval_64 (by exact h64), ← pair_add_one]
  simp [h64]

/-- AlarmCheck looks at the counter only. -/
theorem State.nowval_checkIfPresent (s : State) : s.checkIfPresent.nowval = s.nowval := by
  obtain ⟨hlo, hhi, hcfg⟩ := s.checkIfPresent_keeps
  rw [State.nowval, hlo, hhi, hcfg, State.nowval]

/-- A due alarm fires and is cleared where ALARM_EN holds (R109). -/
theorem State.checkIfPresent_due {s : State} (hen : s.cfg.alarmEn = true) (hdue : s.alarmDue = true) :
    s.checkIfPresent = (s.emit (.fire s.cb)).setAlarm false max64 0 := by
  rw [State.checkIfPresent, if_pos hen, State.alarmCheck, if_pos hdue]

/-- Without ALARM_EN, or where the alarm is not due, the check does nothing (R109). -/
theorem State.checkIfPresent_notDue {s : State} (h : s.cfg.alarmEn = false ∨ s.alarmDue = false) :
    s.checkIfPresent = s := by
  rcases h with hen | hdue
  · simp [State.checkIfPresent, hen]
  · simp [State.checkIfPresent, State.alarmCheck, hdue]

/-- The alarm is due after counting where it is due at the new counter value. -/
theorem State.alarmDue_tickWhole {s : State} (h64 : s.cfg.tick64 = true) :
    s.tickWhole.alarmDue = true ↔ s.armed = true ∧ s.ts.toNat ≤ (s.nowval + 1).toNat := by
  obtain ⟨harmed, hts, -, -⟩ := s.tickWhole_keeps
  rw [State.alarmDue_iff, harmed, hts, State.nowval_tickWhole h64]

/-- The alarm check of a whole `tick.inc` does nothing unless it is present and the alarm due. -/
theorem State.tickWhole_checkIfPresent_notDue {s : State} (hlegal : s.cfg.legal = true)
    (h : s.cfg.alarmEn = false ∨ s.armed = false ∨ (s.nowval + 1).toNat < s.ts.toNat) :
    s.tickWhole.checkIfPresent = s.tickWhole := by
  obtain ⟨-, -, hcfg⟩ := s.tickWhole_spec
  obtain ⟨-, -, -, halarm⟩ := (Config.legal_iff _).mp hlegal
  apply State.checkIfPresent_notDue
  rw [hcfg]
  cases hen : s.cfg.alarmEn with
  | false => exact .inl rfl
  | true =>
    refine .inr (Bool.eq_false_iff.mpr fun hdue => ?_)
    obtain ⟨ha, ht⟩ := (State.alarmDue_tickWhole (halarm hen)).mp hdue
    rcases h with hne | hna | hlt
    · simp [hen] at hne
    · simp [ha] at hna
    · omega

/-- Settles O29: a whole `tick.inc` is `State.tickWhole`, then the alarm check at the new counter value; ALARM_EN
implies TICK64 (R17). -/
theorem tickIncAdvancesCounterByOne : Obligations.TickIncAdvancesCounterByOne := by
  intro s h hlegal
  obtain ⟨n, hmin, hmax, hrun⟩ := execAlone_tickInc h
  obtain ⟨hlo, hhi, -⟩ := s.tickWhole.checkIfPresent_keeps
  obtain ⟨hwlo, hwhi, hwcfg⟩ := s.tickWhole_spec
  obtain ⟨-, -, -, halarm⟩ := (Config.legal_iff _).mp hlegal
  obtain ⟨harmed, hts, hcb, hev⟩ := s.tickWhole_keeps
  refine ⟨n, _, hmin, hmax, hrun, State.me_setMe _ _, hlo.trans hwlo, fun h64 => ?_, fun h64 => ?_,
    fun hsplit => exec_tickInc_atomic hsplit h, fun hen ha ht => ?_, fun hnot => ?_⟩
  · exact (State.nowval_checkIfPresent _).trans (State.nowval_tickWhole h64)
  · exact (hhi.trans hwhi).trans (if_neg (by simp [h64]))
  · have hdue := (State.alarmDue_tickWhole (halarm hen)).mpr ⟨ha, ht⟩
    rw [State.checkIfPresent_due (hwcfg ▸ hen) hdue, ← hev, ← hcb]
    exact ⟨rfl, rfl⟩
  · rw [State.tickWhole_checkIfPresent_notDue hlegal hnot]
    exact ⟨hev, harmed, hts, hcb⟩

/-! ### The counter read that tick.now and tick.elapsed share (R104, R105) -/

section ClockRead
variable {op : Instr} {capture : State → Option Locals} {value : Config → DWord → DWord → DWord} {s : State}
  {loc : Locals}
  (hop : ∀ s, exec op s
    = perform op capture (clockReadMicro fun loc n s => s.setRes (value s.cfg n loc.snap)) s)
include hop

/-- The one load of the 32-bit counter. -/
theorem exec_clockRead_32 (h64 : s.cfg.tick64 = false) (h : s.issues op) (hc : capture s = some loc) :
    exec op s = .next (s.setMe { s.me with res := some (value s.cfg (zext64 s.lo) loc.snap) }.done) := by
  rw [hop, perform_issues h hc]
  simp [clockReadMicro, clockRead32, h64, Agent.done]

/-- μ1 at issue loads HI. -/
theorem exec_clockRead_issue (h64 : s.cfg.tick64 = true) (h : s.issues op) (hc : capture s = some loc) :
    exec op s = .next (s.setMe (s.me.mid s.opWord 2 { loc with h1 := s.hi })) := by
  rw [hop, perform_issues h hc, clockReadMicro, if_pos (by exact h64)]
  exact congrArg _ (State.goto_enter h _ _ 2)

/-- μ1 after a retry loads HI again. -/
theorem exec_clockRead_again (h64 : s.cfg.tick64 = true) (h : s.inside 1 loc) :
    exec op s = .next (s.setMe (s.me.mid s.opWord 2 { loc with h1 := s.hi })) := by
  rw [hop, perform_inside h, clockReadMicro, if_pos h64, clockRead64, State.goto_inside h]

/-- μ2 loads LO. -/
theorem exec_clockRead_low (h64 : s.cfg.tick64 = true) (h : s.inside 2 loc) :
    exec op s = .next (s.setMe (s.me.mid s.opWord 3 { loc with l := s.lo })) := by
  rw [hop, perform_inside h, clockReadMicro, if_pos h64, clockRead64, State.goto_inside h]

/-- μ3 goes back to μ1 where HI has changed. -/
theorem exec_clockRead_retries (h64 : s.cfg.tick64 = true) (h : s.inside 3 loc) (hne : loc.h1 ≠ s.hi) :
    exec op s = .next (s.setMe (s.me.mid s.opWord 1 { loc with h2 := s.hi })) := by
  rw [hop, perform_inside h, clockReadMicro, if_pos h64, clockRead64, if_pos hne, State.goto_inside h]

/-- μ3 delivers the value read where HI has not changed. -/
theorem exec_clockRead_delivers (h64 : s.cfg.tick64 = true) (h : s.inside 3 loc) (heq : loc.h1 = s.hi) :
    exec op s
      = .next (s.setMe { s.me with res := some (value s.cfg (loc.h1 ++ loc.l) loc.snap) }.done) := by
  rw [hop, perform_inside h, clockReadMicro, if_pos h64, clockRead64, if_neg (not_not_intro heq), pair_eq_append]
  simp [Agent.done]

/-- A whole read of the 64-bit counter, with no step of another agent between, needs no retry. -/
theorem execAlone_clockRead_64 (h64 : s.cfg.tick64 = true) (h : s.issues op) (hc : capture s = some loc) :
    execAlone op 3 s = .next (s.setMe { s.me with res := some (value s.cfg s.nowval loc.snap) }.done) := by
  have low : exec op (s.setMe (s.me.mid s.opWord 2 { loc with h1 := s.hi }))
      = .next (s.setMe (s.me.mid s.opWord 3 { loc with h1 := s.hi, l := s.lo })) := by
    refine (exec_clockRead_low (s := s.setMe _) hop h64 (s.inside_mid _ _ _ _)).trans ?_
    rw [State.goesOn_mid]
    rfl
  rw [execAlone_next (exec_clockRead_issue hop h64 h hc), execAlone_next low,
    execAlone_next (exec_clockRead_delivers (s := s.setMe _) hop h64 (s.inside_mid _ _ _ _) rfl),
    State.nowval_64 h64, pair_eq_append]
  simp [execAlone, Agent.done, Agent.mid]

/-- In both widths a whole read uses the counter's value. -/
theorem execAlone_clockRead (h : s.issues op) (hc : capture s = some loc) :
    ∃ n, execAlone op n s
      = .next (s.setMe { s.me with res := some (value s.cfg s.nowval loc.snap) }.done) := by
  cases h64 : s.cfg.tick64 with
  | true => exact ⟨3, execAlone_clockRead_64 hop h64 h hc⟩
  | false =>
    rw [State.nowval_32 h64]
    exact ⟨1, execAlone_next (exec_clockRead_32 hop h64 h hc) 0⟩

end ClockRead

/-! ### tick.now (R104, R106, R107) -/

/-- What `tick.now` makes of the counter value it has read: nothing else than that value. -/
def counterItself (_ : Config) (n _ : DWord) : DWord := n

theorem exec_tickNow (s : State) : exec .tickNow s
    = perform .tickNow captureNone (clockReadMicro fun loc n s => s.setRes (counterItself s.cfg n loc.snap)) s := rfl

/-- Settles O30: `tick.now` is the shared read with the value itself as result. -/
theorem tickNowReadsWithRetry : Obligations.TickNowReadsWithRetry := fun _ _ =>
  ⟨fun h64 h => exec_clockRead_32 exec_tickNow h64 h rfl, fun h64 h => exec_clockRead_issue exec_tickNow h64 h rfl,
    exec_clockRead_again exec_tickNow, exec_clockRead_low exec_tickNow, exec_clockRead_retries exec_tickNow,
    exec_clockRead_delivers exec_tickNow⟩

/-- Settles O33: a whole read in either width. -/
theorem tickNowReturnsCounter : Obligations.TickNowReturnsCounter := fun _ h => execAlone_clockRead exec_tickNow h rfl

/-- Settles O34: μ1 of the carrying `tick.inc` has stored LO = 0 and left HI; the reader's whole read returns that
pair. -/
theorem splitUpdateWindowRegresses : Obligations.SplitUpdateWindowRegresses := by
  intro s t r hsplit h64 hlo h hexec hr hctx
  cases (exec_tickInc_carries hsplit h hlo h64).symm.trans hexec
  have hissues : (((s.setLo 0).setMe (s.me.mid s.opWord 2 { Locals.empty with c := true })).setActor r).issues
      .tickNow := by
    refine ⟨?_, rfl, rfl⟩
    rw [State.me_setActor, State.agent_setMe_other (s.setLo 0) _ hr]
    exact hctx
  have hnow : (((s.setLo 0).setMe (s.me.mid s.opWord 2 { Locals.empty with c := true })).setActor r).nowval
      = pair s.hi 0 := State.nowval_64 h64
  refine ⟨_, _, execAlone_clockRead_64 exec_tickNow h64 hissues rfl, congrArg Agent.res (State.me_setMe _ _),
    hnow.trans (pair_eq_append _ _), ?_⟩
  show BitVec.toNat (State.nowval _) + _ = _
  rw [hnow, State.nowval_64 h64, pair_toNat, pair_toNat, hlo]
  simp only [BitVec.ofNat_eq_ofNat, BitVec.toNat_ofNat]
  omega

/-! ### tick.elapsed (R105, R163) -/

theorem exec_tickElapsed (src : Operand) (s : State) : exec (.tickElapsed src) s
    = perform (.tickElapsed src) (captureSnap src)
        (clockReadMicro fun loc n s => s.setRes (duration s.cfg n loc.snap)) s := rfl

/-- What an issued `tick.elapsed` captures (R82). -/
theorem captureSnap_of_operandValue {s : State} {src : Operand} {x : DWord} (hx : operandValue src s = some x) :
    captureSnap src s = some { Locals.empty with snap := cutTick s.cfg x } := by
  simp [captureSnap, hx]

/-- The duration where the snapshot is not ahead of the counter. -/
theorem duration_toNat_of_le {n snap : DWord} (c : Config) (h : snap.toNat ≤ n.toNat) :
    (duration c n snap).toNat = n.toNat - snap.toNat := by
  rw [duration, if_pos h, BitVec.toNat_sub_of_le h]

/-- The duration saturates where the snapshot is ahead of the counter. -/
theorem duration_of_lt {n snap : DWord} (c : Config) (h : n.toNat < snap.toNat) : duration c n snap = c.maxTw :=
  if_neg (Nat.not_le.mpr h)

theorem Config.maxTw_64 {c : Config} (h : c.tick64 = true) : c.maxTw.toNat = 2 ^ 64 - 1 := by
  rw [Config.maxTw, if_pos h]
  rfl

theorem Config.maxTw_32 {c : Config} (h : c.tick64 = false) : c.maxTw.toNat = 2 ^ 32 - 1 := by
  simp [Config.maxTw, h, max32]

/-- The duration of the 64-bit counter: a difference, or the maximum of 64 bits. -/
theorem duration_64 {c : Config} (h : c.tick64 = true) (n x : DWord) :
    (x.toNat ≤ n.toNat → (duration c n x).toNat = n.toNat - x.toNat)
      ∧ (n.toNat < x.toNat → (duration c n x).toNat = 2 ^ 64 - 1) :=
  ⟨duration_toNat_of_le c, fun hlt => (congrArg _ (duration_of_lt c hlt)).trans (Config.maxTw_64 h)⟩

/-- The duration of the 32-bit counter, its snapshot cut to 32 bits: a difference, or the maximum of 32 bits. -/
theorem duration_32 {c : Config} (h : c.tick64 = false) (lo : Word) (x : DWord) :
    (x.toNat % 2 ^ 32 ≤ lo.toNat →
        (duration c (zext64 lo) (cutTick c x)).toNat = lo.toNat - x.toNat % 2 ^ 32)
      ∧ (lo.toNat < x.toNat % 2 ^ 32 → (duration c (zext64 lo) (cutTick c x)).toNat = 2 ^ 32 - 1) := by
  rw [← cutTick_32 h, ← zext64_toNat lo]
  exact ⟨duration_toNat_of_le c, fun hlt => (congrArg _ (duration_of_lt c hlt)).trans (Config.maxTw_32 h)⟩

/-- Settles O32: `tick.elapsed` is the shared read with the duration as result. -/
theorem tickElapsedMicroOperations : Obligations.TickElapsedMicroOperations := by
  intro src x loc s
  have hop := exec_tickElapsed src
  refine ⟨fun h64 h hx => ?_, fun h64 h hx => ?_, exec_clockRead_again hop, exec_clockRead_low hop,
    exec_clockRead_retries hop, fun h64 h heq => ?_⟩
  · exact ⟨_, exec_clockRead_32 hop h64 h (captureSnap_of_operandValue hx), duration_32 h64 s.lo x⟩
  · rw [exec_clockRead_issue hop h64 h (captureSnap_of_operandValue hx), cutTick_64 h64]
  · exact ⟨_, exec_clockRead_delivers hop h64 h heq, duration_64 h64 _ _⟩

/-- Settles O31: a whole read in either width, and the duration of what it read. -/
theorem tickElapsedSaturates : Obligations.TickElapsedSaturates := by
  intro src x s h hx
  obtain ⟨n, hrun⟩ := execAlone_clockRead (exec_tickElapsed src) h (captureSnap_of_operandValue hx)
  refine ⟨n, _, hrun, fun h64 => ?_, fun h64 => ?_, fun h64 => ?_, fun h64 => ?_⟩
  · rw [cutTick_64 h64]
    exact (duration_64 h64 _ _).1
  · rw [cutTick_64 h64]
    exact (duration_64 h64 _ _).2
  · rw [State.nowval_32 h64]
    exact (duration_32 h64 _ _).1
  · rw [State.nowval_32 h64]
    exact (duration_32 h64 _ _).2

end Sys2Proof.Machine

namespace Sys2Proof.Machine

/-! ### AlarmCheck and alarm.check (R109, R111) -/

section AlarmCheck
variable {s : State}

theorem State.alarmDue_eq_false_iff : s.alarmDue = false ↔ s.armed = false ∨ s.nowval.toNat < s.ts.toNat := by
  rw [Bool.eq_false_iff, Ne, State.alarmDue_iff, not_and_or, Bool.not_eq_true, Nat.not_le]

/-- A due alarm fires and leaves an empty slot. -/
theorem State.alarmCheck_due (h : s.alarmDue = true) :
    s.alarmCheck = (s.emit (.fire s.cb)).setAlarm false max64 0 := if_pos h

/-- An alarm that is not due stays as it is. -/
theorem State.alarmCheck_notDue (h : s.alarmDue = false) : s.alarmCheck = s := if_neg (by simp [h])

/-- An issued `alarm.check` is AlarmCheck, with its answer in RES and P. -/
theorem exec_alarmCheck (h : s.issues .alarmCheck) : exec .alarmCheck s
    = .next (s.alarmCheck.setMe { s.me with res := some (bool64 s.alarmDue), p := some s.alarmDue }.done) := by
  rw [exec, execAlarmCheck, perform_issues h rfl, atomically_one, State.complete_setOutcome]
  simp [State.alarmCheck_setMe, Agent.done]

end AlarmCheck

/-- Settles O35: what AlarmCheck does where the alarm is due and where it is not. -/
theorem alarmCheckFiresDueAlarm : Obligations.AlarmCheckFiresDueAlarm := by
  intro s
  refine ⟨fun harmed hts => ?_, fun hnot => ?_⟩
  · have hdue := s.alarmDue_iff.mpr ⟨harmed, hts⟩
    exact ⟨State.alarmCheck_due hdue, hdue⟩
  · have hdue := State.alarmDue_eq_false_iff.mpr hnot
    exact ⟨State.alarmCheck_notDue hdue, hdue⟩

/-- Settles O37: `alarm.check` where the alarm is due and where it is not. -/
theorem alarmCheckReportsFiring : Obligations.AlarmCheckReportsFiring := by
  intro s h
  rw [exec_alarmCheck h]
  refine ⟨fun harmed hts => ?_, fun hnot => ?_⟩
  · have hdue := s.alarmDue_iff.mpr ⟨harmed, hts⟩
    rw [State.alarmCheck_due hdue, hdue]
    rfl
  · have hdue := State.alarmDue_eq_false_iff.mpr hnot
    rw [State.alarmCheck_notDue hdue, hdue]
    rfl

/-! ### alarm.set (R110) -/

section AlarmSet
variable {s : State} {ts : DWord} {tok : Word}

/-- An issued `alarm.set` is the registration, with its status in RES and P. -/
theorem exec_alarmSet (h : s.issues (.alarmSet tok)) (ha : s.me.a = some ts) : exec (.alarmSet tok) s
    = .next ((s.alarmRegister ts tok).setMe
        { s.me with res := some (s.alarmStatus ts), p := some (s.alarmStatus ts == 0) }.done) := by
  have hcapture : captureTs s = some { Locals.empty with ts := ts } := by simp [captureTs, ha]
  rw [exec, execAlarmSet, perform_issues h hcapture, atomically_one]
  simp [State.alarmRegister_setMe, Agent.done]

/-- BUSY: an outstanding alarm stays. -/
theorem State.alarmRegister_busy (harmed : s.armed = true) :
    s.alarmRegister ts tok = s ∧ s.alarmStatus ts = 2 := ⟨if_pos harmed, if_pos harmed⟩

/-- PAST: a timestamp the counter has reached is refused. -/
theorem State.alarmRegister_past (harmed : s.armed = false) (hts : ts.toNat ≤ s.nowval.toNat) :
    s.alarmRegister ts tok = s.setAlarm false max64 s.cb ∧ s.alarmStatus ts = 1 := by
  simp [State.alarmRegister, State.alarmStatus, harmed, hts]

/-- OK: a timestamp ahead of the counter is accepted into an empty slot. -/
theorem State.alarmRegister_accepts (harmed : s.armed = false) (hts : s.nowval.toNat < ts.toNat) :
    s.alarmRegister ts tok = s.setAlarm true ts tok ∧ s.alarmStatus ts = 0 := by
  simp [State.alarmRegister, State.alarmStatus, harmed, Nat.not_le.mpr hts]

end AlarmSet

/-- Settles O36: `alarm.set` for each of the three answers of a registration. -/
theorem alarmSetAcceptsOrRefuses : Obligations.AlarmSetAcceptsOrRefuses := by
  intro tok ts s h ha
  rw [exec_alarmSet h ha]
  refine ⟨fun harmed => ?_, fun harmed hpast => ?_, fun harmed hahead => ?_⟩
  · obtain ⟨hslot, hstatus⟩ := State.alarmRegister_busy (ts := ts) (tok := tok) harmed
    rw [hslot, hstatus]
    rfl
  · obtain ⟨hslot, hstatus⟩ := State.alarmRegister_past (tok := tok) harmed hpast
    rw [hslot, hstatus]
    rfl
  · obtain ⟨hslot, hstatus⟩ := State.alarmRegister_accepts (tok := tok) harmed hahead
    rw [hslot, hstatus]
    rfl

/-! ### An accepted alarm (R112, R113) -/

/-- Settles O38: the accepted slot holds ts and the token whatever the counter becomes, and firing disarms it. -/
theorem acceptedAlarmFiresExactlyOnce : Obligations.AcceptedAlarmFiresExactlyOnce := by
  intro s ts tok lo hi lo' hi' harmed hahead
  obtain ⟨hslot, -⟩ := State.alarmRegister_accepts (tok := tok) harmed hahead
  rw [hslot]
  refine ⟨fun hbefore => State.alarmCheck_notDue (State.alarmDue_eq_false_iff.mpr (.inr hbefore)), fun hreached => ?_⟩
  rw [State.alarmCheck_due ((State.alarmDue_iff _).mpr ⟨rfl, hreached⟩),
    State.alarmCheck_notDue (State.alarmDue_eq_false_iff.mpr (.inl rfl))]
  exact ⟨rfl, rfl⟩

end Sys2Proof.Machine

namespace Sys2Proof.Machine

/-! ### Reading a register with a written bit (R46, R136) -/

@[simp] theorem State.readReg_some {α : Type} (s : State) (x : α) (use : α → State) :
    s.readReg (some x) use = .next (use x) := rfl

@[simp] theorem State.readReg_none {α : Type} (s : State) (use : α → State) :
    s.readReg none use = .next (s.raise .unwrittenReg) := rfl

/-- Issue changes nothing that a raise in μ1 keeps. -/
theorem State.readReg_enter {α : Type} (s : State) (loc : Locals) (reg : Option α) (use : α → State) :
    (s.enter loc).readReg reg use = s.readReg reg use := by
  cases reg with
  | none => exact congrArg Host.Outcome.next (s.raise_enter loc .unwrittenReg)
  | some x => rfl

/-! ### Loads and additions (R115 to R118) -/

section Loads
variable {s : State}

/-- No role and no binding is asked of a sequencer operation: an agent with no context performs its μ1 (R50, R140). -/
theorem perform_sequencer {op : Instr} {act : Locals → State → Result} (hctx : s.me.ctx = none)
    (hrole : roleOf op = .any) (hbound : needsBound op = none) :
    perform op captureNone (atomically act) s = act Locals.empty (s.enter Locals.empty) :=
  perform_issues ⟨hctx, by rw [hrole]; rfl, by rw [State.boundOk, hbound]⟩ rfl

theorem exec_seqLda (hctx : s.me.ctx = none) (imm : Word) :
    exec (.seqLda imm) s = .next (s.setMe { s.me with a := some (zext64 imm) }.done) := by
  rw [exec, execSeqLda, perform_sequencer hctx rfl rfl]
  simp [Agent.done]

theorem exec_seqLdah (hctx : s.me.ctx = none) (imm : Word) :
    exec (.seqLdah imm) s
      = s.readReg s.me.a fun x => s.setMe { s.me with a := some (setHighHalf x imm) }.done := by
  rw [exec, execSeqLdah, perform_sequencer hctx rfl rfl, State.readReg_enter]
  simp [Agent.done]

theorem exec_seqAdda (hctx : s.me.ctx = none) (imm : Word) :
    exec (.seqAdda imm) s = s.readReg s.me.a fun x =>
      s.setMe { s.me with a := some (x + sext64 imm), p := some (nonzero (x + sext64 imm)) }.done := by
  rw [exec, execSeqAdda, perform_sequencer hctx rfl rfl, State.readReg_enter]
  simp [Agent.done]

theorem exec_seqMova (hctx : s.me.ctx = none) :
    exec .seqMova s = s.readReg s.me.res fun x => s.setMe { s.me with a := some x }.done := by
  rw [exec, execSeqMova, perform_sequencer hctx rfl rfl, State.readReg_enter]
  simp [Agent.done]

end Loads

theorem zext64_eq_setWidth (v : Word) : zext64 v = v.setWidth 64 := BitVec.ofNat_toNat 64 v

/-- `{imm, A[31:0]}` (R116). -/
theorem setHighHalf_eq_append (x : DWord) (imm : Word) : setHighHalf x imm = imm ++ x.setWidth 32 := by
  rw [setHighHalf, pair_eq_append, BitVec.ofNat_toNat]

/-- The add of R117 is that of the signed values, modulo 2^64. -/
theorem toNat_add_sext64 (x : DWord) (imm : Word) :
    ((x + sext64 imm).toNat : Int) = (x.toInt + imm.toInt) % 2 ^ 64 := by
  have hsum : x + sext64 imm = BitVec.ofInt 64 (x.toInt + imm.toInt) := by
    rw [BitVec.ofInt_add, BitVec.ofInt_toInt]
    rfl
  rw [hsum, BitVec.toNat_ofInt]
  omega

theorem nonzero_eq_decide (x : DWord) : nonzero x = decide (x ≠ 0) := by
  simp [nonzero, bne, beq_eq_decide]

/-- Settles O39: each operation writes the value its rule says, and one that reads an unwritten register raises. -/
theorem sequencerLoadsAndAdds : Obligations.SequencerLoadsAndAdds := by
  intro imm x s hctx
  rw [exec_seqLda hctx, exec_seqLdah hctx, exec_seqAdda hctx, exec_seqMova hctx]
  refine ⟨?_, fun ha => ?_, fun ha => ?_, fun hres => ?_, fun ha => ?_, fun hres => ?_⟩
  · rw [zext64_eq_setWidth]
  · rw [ha, State.readReg_some, setHighHalf_eq_append]
  · refine ⟨x + sext64 imm, toNat_add_sext64 x imm, ?_⟩
    rw [ha, State.readReg_some, nonzero_eq_decide]
  · rw [hres, State.readReg_some]
  · rw [ha]
    exact ⟨rfl, rfl⟩
  · rw [hres, State.readReg_none]

/-! ### Branches (R119 to R121) -/

section Branches
variable {s : State}

theorem exec_seqJ (hctx : s.me.ctx = none) (imm : Word) :
    exec (.seqJ imm) s = .next (s.branchIf true imm) := by
  rw [exec, execSeqJ, perform_sequencer hctx rfl rfl]
  simp [State.branchIf]

theorem exec_seqBp (hctx : s.me.ctx = none) (imm : Word) :
    exec (.seqBp imm) s = s.readReg s.me.p fun b => s.branchIf b imm := by
  rw [exec, execSeqBp, perform_sequencer hctx rfl rfl, State.readReg_enter]
  simp [State.branchIf_eq]

theorem exec_seqBnp (hctx : s.me.ctx = none) (imm : Word) :
    exec (.seqBnp imm) s = s.readReg s.me.p fun b => s.branchIf (!b) imm := by
  rw [exec, execSeqBnp, perform_sequencer hctx rfl rfl, State.readReg_enter]
  simp [State.branchIf_eq]

/-- An agent with no context to leave: the branch sets APC, and nothing else changes. -/
theorem State.branchIf_of_noCtx (hctx : s.me.ctx = none) (taken : Bool) (imm : Word) :
    s.branchIf taken imm
      = s.setMe { s.me with apc := if taken then s.me.apc + imm.toInt else s.me.apc + 1 } := by
  rw [State.branchIf_eq, ← hctx]
  rfl

end Branches

/-- Settles O40: a written P chooses the target, an unwritten one raises. -/
theorem branchesSetApc : Obligations.BranchesSetApc := by
  intro imm b s hctx
  rw [exec_seqJ hctx, exec_seqBp hctx, exec_seqBnp hctx]
  refine ⟨?_, fun hp => ?_, fun hp => ?_, fun hp => ?_⟩
  · rw [State.branchIf_of_noCtx hctx, if_pos rfl]
  · rw [hp, State.readReg_some, State.branchIf_of_noCtx hctx]
  · rw [hp, State.readReg_some, State.branchIf_of_noCtx hctx]
    cases b <;> rfl
  · rw [hp]
    exact ⟨rfl, rfl⟩

/-! ### Halt (R122) -/

/-- Settles O41: the only micro-operation writes RUN, and the context it leaves was not there before. -/
theorem haltKeepsApcAndRegisters : Obligations.HaltKeepsApcAndRegisters := by
  intro s hctx
  rw [exec, execSeqHalt, perform_sequencer hctx rfl rfl]
  simp [hctx]

end Sys2Proof.Machine

namespace Sys2Proof.Machine

/-! ### The record of a raise, and the checks of fetch (R50, R125, R135, R138) -/

/-- What R138 records, field by field. -/
theorem State.raise_record (s : State) (f : FCode) : (s.raise f).fault
    = some ⟨f.code, s.actor, BitVec.ofInt 32 s.me.apc, s.fetchWord?.getD 0⟩ := rfl

/-- A scripted step of an agent that may step is that agent's own step (R49). -/
theorem step_scripted_agent {s : State} {a : AgentId} {ms : List Move} (hl : s.cfg.legal = true)
    (hm : s.moves = .agent a :: ms) (ha : s.mayStep a = true) :
    step s = agentStep ({ s with moves := ms }.setActor a) :=
  (step_scripted hl hm).trans (performMove_agent ha)

/-- Settles O6: outside the program there is no word to record, and the word at APC is recorded where it is illegal
(`decodeRejectsExactlyIllegalWords`). -/
theorem fetchRaisesPcRangeAndIllegal : Obligations.FetchRaisesPcRangeAndIllegal := by
  intro s a ms hl hm ha hctx s1
  rw [step_scripted_agent hl hm ha, State.raise_record, State.raise_record]
  refine ⟨fun hout => ?_, fun w n hapc hw hillegal => ?_⟩
  · have hword : s1.fetchWord? = none := s1.fetchWord?_none.mpr hout
    exact ⟨agentStep_pcRange hctx hword, by rw [hword]; rfl⟩
  · have hword : s1.fetchWord? = some w := (State.fetchWord?_at (s := s1) hapc).trans hw
    obtain ⟨-, -, hraises⟩ := decodeRejectsExactlyIllegalWords s.cfg w
    exact ⟨hraises s1 rfl hctx hword hillegal, by rw [hword]; rfl⟩

/-! ### The checks of issue (R50, R126, R127, R136, R137) -/

/-- Every operation's step is a `perform` of that operation. -/
theorem exec_eq_perform (op : Instr) (s : State) : ∃ capture micro, exec op s = perform op capture micro s := by
  cases op <;> rw [exec] <;> exact ⟨_, _, rfl⟩

theorem exec_raises_role {op : Instr} {s : State} (hctx : s.me.ctx = none)
    (hrole : (roleOf op).allows s.cfg s.actor = false) : exec op s = .next (s.raise .role) := by
  obtain ⟨capture, micro, h⟩ := exec_eq_perform op s
  exact h.trans (perform_raises_role hctx hrole)

theorem exec_raises_unbound {op : Instr} {s : State} (hctx : s.me.ctx = none)
    (hrole : (roleOf op).allows s.cfg s.actor = true) (hb : s.boundOk op = false) :
    exec op s = .next (s.raise .unbound) := by
  obtain ⟨capture, micro, h⟩ := exec_eq_perform op s
  exact h.trans (perform_raises_unbound hctx hrole hb)

/-- An operand taken from an unwritten A has no value (R46, R82). -/
theorem operandValue_unwritten {s : State} {src : Operand}
    (h : (decide (src = .regA) && s.me.a.isNone) = true) : operandValue src s = none := by
  rw [Bool.and_eq_true, decide_eq_true_eq] at h
  obtain ⟨rfl, ha⟩ := h
  exact Option.isNone_iff_eq_none.mp ha

/-- An issued operation that reads an unwritten register raises F_UNWRITTEN_REG: at the capture of its operand, or in
its only micro-operation (R46, R136). -/
theorem exec_raises_unwritten {op : Instr} {s : State} (h : s.issues op) (hr : readsUnwritten op s.me = true) :
    exec op s = .next (s.raise .unwrittenReg) := by
  cases op with
  | fifoInit i len =>
    exact perform_raises_unwritten h (by rw [captureBase, Option.isNone_iff_eq_none.mp hr]; rfl)
  | alarmSet tok => exact perform_raises_unwritten h (by rw [captureTs, Option.isNone_iff_eq_none.mp hr]; rfl)
  | fifoPush i src => exact perform_raises_unwritten h (by rw [captureElem, operandValue_unwritten hr]; rfl)
  | tickElapsed src => exact perform_raises_unwritten h (by rw [captureSnap, operandValue_unwritten hr]; rfl)
  | seqLdah imm => rw [exec_seqLdah h.1, Option.isNone_iff_eq_none.mp hr, State.readReg_none]
  | seqAdda imm => rw [exec_seqAdda h.1, Option.isNone_iff_eq_none.mp hr, State.readReg_none]
  | seqMova => rw [exec_seqMova h.1, Option.isNone_iff_eq_none.mp hr, State.readReg_none]
  | seqBp imm => rw [exec_seqBp h.1, Option.isNone_iff_eq_none.mp hr, State.readReg_none]
  | seqBnp imm => rw [exec_seqBnp h.1, Option.isNone_iff_eq_none.mp hr, State.readReg_none]
  | _ => cases hr

/-- Settles O8: each check in turn, on the states that pass those before it. -/
theorem issueChecksInOrder : Obligations.IssueChecksInOrder := fun _ _ hctx =>
  ⟨exec_raises_role hctx, exec_raises_unbound hctx, fun hrole hb => exec_raises_unwritten ⟨hctx, hrole, hb⟩,
    rfl, rfl, rfl⟩

/-! ### Roles (R126, R140) -/

theorem FCode.eq_role_of_code {f : FCode} (h : f.code = 0x02) : f = .role := by
  revert h
  cases f <;> decide

/-- No check of `fifo.init` raises F_ROLE. -/
theorem State.initCheck_ne_role (s : State) (i : InstId) (base : DWord) (len : Word) :
    s.initCheck i base len ≠ some .role := by
  unfold State.initCheck
  repeat' split
  all_goals nofun

/-- An answer in `u` that is no raise of F_ROLE: FAULT is kept, or another fault is raised. -/
def RaisesNoRole (u : State) (r : Result) : Prop :=
  ∀ t, r = .next t → t.fault = u.fault ∨ ∃ f, f ≠ .role ∧ t = u.raise f

section MicroOperations
variable {u t : State}

theorem RaisesNoRole.of_fault (h : t.fault = u.fault) : RaisesNoRole u (.next t) := by
  rintro _ ⟨⟩
  exact .inl h

theorem RaisesNoRole.of_raise {f : FCode} (h : f ≠ .role) : RaisesNoRole u (.next (u.raise f)) := by
  rintro _ ⟨⟩
  exact .inr ⟨f, h, rfl⟩

theorem RaisesNoRole.of_stop (f : Fault) : RaisesNoRole u (.fault f) := nofun

/-- A shared effect of an operation keeps FAULT. -/
theorem RaisesNoRole.of_shared {s' : State} {op : Instr} (h : SharedEffect u op s') (ht : t.fault = s'.fault) :
    RaisesNoRole u (.next t) := by
  obtain ⟨-, -, -, -, -, -, hfault, -⟩ := h.keeps
  exact .of_fault (ht.trans hfault)

/-- A register with a written bit: its read raises F_UNWRITTEN_REG or none (R46). -/
theorem RaisesNoRole.of_readReg {α : Type} (reg : Option α) {use : α → State} (h : ∀ x, (use x).fault = u.fault) :
    RaisesNoRole u (u.readReg reg use) := by
  cases reg with
  | none => exact .of_raise (by decide)
  | some x => exact .of_fault (h x)

/-- Past the role check, an operation raises F_ROLE only if its μ1 does. -/
theorem perform_raisesNoRole {op : Instr} {capture : State → Option Locals} {micro : Nat → Locals → State → Result}
    {s : State} (hctx : s.me.ctx = none) (hrole : (roleOf op).allows s.cfg s.actor = true)
    (h : ∀ loc, RaisesNoRole (s.enter loc) (micro 1 loc (s.enter loc))) :
    RaisesNoRole s (perform op capture micro s) := by
  cases hb : s.boundOk op with
  | false =>
    rw [perform_raises_unbound hctx hrole hb]
    exact .of_raise (by decide)
  | true =>
    cases hc : capture s with
    | none =>
      rw [perform_raises_unwritten ⟨hctx, hrole, hb⟩ hc]
      exact .of_raise (by decide)
    | some loc =>
      rw [perform_issues ⟨hctx, hrole, hb⟩ hc]
      exact fun t ht => (h loc t ht).imp_right fun ⟨f, hf, he⟩ => ⟨f, hf, he.trans (s.raise_enter loc f)⟩

theorem pushMicro_raisesNoRole (i : InstId) (loc : Locals) : RaisesNoRole u (pushMicro i 1 loc u) := by
  simp only [pushMicro]
  split
  · exact .of_raise (by decide)
  · split
    · exact .of_stop _
    · exact .of_fault rfl

/-- μ1 of a counter read loads a word or delivers a result (R104). -/
theorem clockReadMicro_raisesNoRole {use : Locals → DWord → State → State} (loc : Locals)
    (huse : ∀ n, (use loc n u).fault = u.fault) : RaisesNoRole u (clockReadMicro use 1 loc u) := by
  unfold clockReadMicro
  split
  · exact .of_fault rfl
  · exact .of_fault (huse _)

theorem tickSplitMicro_raisesNoRole (loc : Locals) : RaisesNoRole u (tickSplitMicro 1 loc u) := by
  have htail : ∀ l, ((u.setLo (u.lo + 1)).tickTail l).fault = u.fault := fun l => by
    unfold State.tickTail
    split <;> rfl
  simp only [tickSplitMicro]
  split
  · exact .of_fault rfl
  · exact .of_fault (htail _)

end MicroOperations

/-- An agent that the role table allows never raises F_ROLE (R140). -/
theorem exec_raisesNoRole {op : Instr} {s : State} (hctx : s.me.ctx = none)
    (hrole : (roleOf op).allows s.cfg s.actor = true) : RaisesNoRole s (exec op s) := by
  cases op with rw [exec]
  | fifoInit i len =>
    refine perform_raisesNoRole hctx hrole fun loc => ?_
    rw [atomically_one]
    split
    · next f hf => exact .of_raise fun h => State.initCheck_ne_role _ i loc.base len (hf.trans (congrArg some h))
    · exact .of_fault rfl
  | fifoPush i src => exact perform_raisesNoRole hctx hrole fun loc => pushMicro_raisesNoRole i loc
  | fifoPop | fifoDrop | fifoIsfull | fifoIsempty | fifoRegwaker | seqLda | seqJ | seqHalt =>
    exact perform_raisesNoRole hctx hrole fun _ => .of_fault rfl
  | fifoWake i =>
    refine perform_raisesNoRole hctx hrole fun loc => ?_
    rw [atomically_one]
    split <;> exact .of_fault rfl
  | tickInc =>
    refine perform_raisesNoRole hctx hrole fun loc => ?_
    split
    · exact tickSplitMicro_raisesNoRole loc
    · exact .of_shared .whole rfl
  | tickNow | tickElapsed =>
    exact perform_raisesNoRole hctx hrole fun loc => clockReadMicro_raisesNoRole loc fun _ => rfl
  | alarmSet tok => exact perform_raisesNoRole hctx hrole fun loc => .of_shared (.arm tok loc.ts) rfl
  | alarmCheck => exact perform_raisesNoRole hctx hrole fun _ => .of_shared (.check _ (.inr rfl)) rfl
  | seqLdah | seqAdda | seqMova => exact perform_raisesNoRole hctx hrole fun _ => .of_readReg _ fun _ => rfl
  | seqBp | seqBnp =>
    exact perform_raisesNoRole hctx hrole fun _ => .of_readReg _ fun b => by cases b <;> rfl

/-- Any agent may issue an operation of no FIFO that is none of TMR's two (R140). -/
theorem roleOf_any {op : Instr} (h : op.inst? = none ∧ op ≠ .tickInc ∧ op ≠ .alarmCheck) : roleOf op = .any := by
  obtain ⟨hinst, hinc, hcheck⟩ := h
  cases op with
  | tickInc => exact absurd rfl hinc
  | alarmCheck => exact absurd rfl hcheck
  | fifoInit | fifoPush | fifoPop | fifoDrop | fifoIsfull | fifoIsempty | fifoRegwaker | fifoWake => cases hinst
  | _ => rfl

/-- Settles O9: an issuer outside the role fails the first check of issue, and an allowed one raises no F_ROLE
(`exec_raisesNoRole`). -/
theorem rolesAreEnforced : Obligations.RolesAreEnforced := by
  intro i s hctx
  refine ⟨fun hne len => exec_raises_role hctx (decide_eq_false hne), ?_, ?_, ?_, ?_⟩
  · rintro hne op (⟨src, rfl⟩ | rfl | rfl) <;> exact exec_raises_role hctx (decide_eq_false hne)
  · rintro hne op (rfl | ⟨tok, rfl⟩) <;> exact exec_raises_role hctx (decide_eq_false hne)
  · rintro hne op (rfl | rfl) <;> exact exec_raises_role hctx (decide_eq_false hne)
  · intro op hfault hop t r hexec hr hcode
    have hrole : (roleOf op).allows s.cfg s.actor = true := by
      rcases hop with ⟨⟨len, rfl⟩, ha⟩ | ⟨hop, ha⟩ | ⟨hop, ha⟩ | ⟨hop, ha⟩ | hop | hop
      · exact decide_eq_true ha
      · rcases hop with ⟨src, rfl⟩ | rfl | rfl <;> exact decide_eq_true ha
      · rcases hop with rfl | ⟨tok, rfl⟩ <;> exact decide_eq_true ha
      · rcases hop with rfl | rfl <;> exact decide_eq_true ha
      · rcases hop with rfl | rfl <;> rfl
      · rw [roleOf_any hop]
        rfl
    rcases exec_raisesNoRole hctx hrole t hexec with hkept | ⟨f, hf, rfl⟩
    · rw [hkept, hfault] at hr
      cases hr
    · cases hr
      exact hf (FCode.eq_role_of_code hcode)

/-! ### F_OVERRUN (R91, R133) -/

/-- Settles O13: the issue is the raise of F_OVERRUN and nothing else (`exec_fifoPush_overruns`). -/
theorem pushIntoFullRaisesOverrun : Obligations.PushIntoFullRaisesOverrun := fun _ _ _ s h hx hfull =>
  ⟨_, exec_fifoPush_overruns h hx hfull, s.raise_record .overrun, rfl, rfl⟩

/-! ### What a raise and an operation leave unchanged (R138, R149) -/

/-- Settles O42: a raise and a shared effect leave parameters and script, and a step writes one agent's record, its
actor's (`exec_keeps`). -/
theorem otherAgentsAreUntouched : Obligations.OtherAgentsAreUntouched := fun _ _ _ => exec_keeps

/-- Settles O7: the fields of `State.raise`; the fault it records lets no agent step (`quiescent_of_fault`), and FAULT
is written by a raise alone (`exec_fault`). -/
theorem raiseRecordsFaultAndNothingElse : Obligations.RaiseRecordsFaultAndNothingElse := fun s f =>
  ⟨s.raise_record f, s.me_raise f, fun _ => s.agent_raise_other f,
    rfl, rfl, rfl, rfl, rfl, rfl, rfl, rfl, rfl, rfl, rfl, rfl, rfl, rfl,
    State.quiescent_of_fault (Option.some_ne_none (s.faultRecord f)),
    fun _ _ h hne => (exec_fault h).resolve_left hne⟩

end Sys2Proof.Machine

namespace Sys2Proof.Machine

/-! ### The invariant after reset (R152, R153) -/

/-- RESET leaves the state after power-on as it is (R153). -/
theorem State.hostReset_powerOn (c : Config) (p : Vector (List DWord) 16) (ms : List Move) :
    (State.powerOn c p ms).hostReset = State.powerOn c p ms := rfl

/-- The state after power-on is one a RESET leaves, with data memory empty (`hostReset_inv`). -/
theorem State.powerOn_inv {c : Config} (hl : c.legal = true) (p : Vector (List DWord) 16) (ms : List Move) :
    (State.powerOn c p ms).Inv := by
  have hmem : (State.powerOn c p ms).memOk := rfl
  rw [← State.hostReset_powerOn]
  exact State.hostReset_inv hl hmem

/-- Settles O55: the state after power-on has the invariant (`powerOn_inv`), and the default configuration is legal. -/
theorem invariantHoldsAtReset : Obligations.InvariantHoldsAtReset :=
  ⟨State.powerOn_inv (by decide +kernel) _ _, fun _ p ms hl => State.powerOn_inv hl p ms⟩

end Sys2Proof.Machine

namespace Sys2Proof

/-! ### Decoder and encoder are inverse to each other (R80 to R88) -/

/-- The word of every operation carries its fields, and its OPC has the row that builds it (R80, R82, R84). -/
theorem Laws.Encoding.statement (i : Instr) : Laws.Encoding.Statement i := by
  cases i with
  | fifoInit i len => exact fifoInit i len
  | fifoPush i src => exact fifoPush i src
  | fifoPop i => exact fifoPop i
  | fifoDrop i => exact fifoDrop i
  | fifoIsfull i => exact fifoIsfull i
  | fifoIsempty i => exact fifoIsempty i
  | fifoRegwaker i tok => exact fifoRegwaker i tok
  | fifoWake i => exact fifoWake i
  | tickInc => exact tickInc
  | tickNow => exact tickNow
  | tickElapsed src => exact tickElapsed src
  | alarmSet tok => exact alarmSet tok
  | alarmCheck => exact alarmCheck
  | seqLda imm => exact seqLda imm
  | seqLdah imm => exact seqLdah imm
  | seqAdda simm => exact seqAdda simm
  | seqMova => exact seqMova
  | seqJ simm => exact seqJ simm
  | seqBp simm => exact seqBp simm
  | seqBnp simm => exact seqBnp simm
  | seqHalt => exact seqHalt

/-- Well-formed, in the words of R86 conditions 3 and 7. -/
theorem Instr.wellFormed_iff {c : Config} {i : Instr} : i.wellFormed c = true ↔
    (∀ n, i.inst? = some n → c.hasInst n = true) ∧ (i.isAlarm = true → c.alarmEn = true) := by
  rw [Instr.wellFormed, Bool.and_eq_true]
  refine and_congr ?_ ?_
  · cases h : i.inst? <;> simp [Instr.instOk, h]
  · cases h : i.isAlarm <;> simp [Instr.alarmOk, h]

/-- The row of an operation's OPC accepts the word of a well-formed operation and builds the operation again. -/
theorem decode_encode {c : Config} {i : Instr} (h : i.wellFormed c = true) : decode c (encode i) = .ok i := by
  obtain ⟨-, hinst, hsrc, himm, hrsv, r, hr, hfifo, halarm, htakesSrc, htakesImm, hbuild⟩ :=
    Laws.Encoding.statement i
  obtain ⟨hexists, hen⟩ := Instr.wellFormed_iff.mp h
  have haccepts : r.reject c (encode i) = none := by
    rw [reject_none_iff, hinst, hsrc, himm, hfifo, halarm]
    refine ⟨hrsv, fun hsome => ?_, fun hnone => ?_, htakesSrc, htakesImm, hen⟩
    · obtain ⟨n, hn⟩ := Option.isSome_iff_exists.mp hsome
      rw [hn]
      exact hexists n hn
    · rw [Option.isNone_iff_eq_none.mp (Option.isSome_eq_false_iff.mp hnone)]
      rfl
  rw [decode_of_row hr haccepts, operandField, hinst, hsrc, himm, hbuild]

/-- INST of a word that decodes is the FIFO its operation names, and 0 where that names none (R81, R86 condition 4). -/
theorem instField_of_decode {c : Config} {w : DWord} {i : Instr} (h : decode c w = .ok i) :
    i.inst?.getD 0 = instField w := by
  obtain ⟨r, hr, hrej, rfl⟩ := row_of_decode h
  obtain ⟨-, -, hnone, -⟩ := reject_none_iff.mp hrej
  rw [(Machine.opcodeMap_build (mem_opcodeMap hr).1 _ _ _).1]
  split
  · rfl
  · next hf => exact (hnone (Bool.eq_false_iff.mpr hf)).symm

/-- A word that decodes has no reserved bit, and its other fields are its operation's. -/
theorem encode_of_decode {c : Config} {w : DWord} {i : Instr} (h : decode c w = .ok i) : encode i = w := by
  obtain ⟨r, -, hrej, -⟩ := row_of_decode h
  have hrsv : rsvField w = 0 := (reject_none_iff.mp hrej).1
  obtain ⟨hopc, -, hsrc, himm⟩ := fields_of_decode h
  rw [encode, hopc, instField_of_decode h, hsrc, himm, mkWord_fields hrsv]

/-- Settles O1: the operation's own row accepts its word and builds it (`decode_encode`). -/
theorem decodeOfEncode : Obligations.DecodeOfEncode := fun _ _ => decode_encode

/-- Settles O2: the fields of the word are the operation's (`encode_of_decode`), and the row's conditions are those of
a well-formed operation (`wellFormed_of_decode`). -/
theorem encodeOfDecode : Obligations.EncodeOfDecode := fun _ _ _ h =>
  ⟨encode_of_decode h, Instr.wellFormed_iff.mpr (Machine.wellFormed_of_decode h)⟩

/-- An unassigned OPC makes a word illegal in every configuration (R86 condition 1). -/
theorem decode_ne_ok_of_unassigned {w : DWord} (h : (opcField w).toNat ∉ Machine.assignedOpcs) (c : Config)
    (i : Instr) : decode c w ≠ .ok i := fun hd => h (decode_ok_iff.mp ⟨i, hd⟩).1

/-- Settles O4: each word is `encode` of its operation, which the decoder gives back (`decode_encode`); 0x00 and 0xFF
are no assigned OPC. -/
theorem writtenOutWordsDecode : Obligations.WrittenOutWordsDecode := by
  have key {w : DWord} {i : Instr} (hw : encode i = w) (hi : i.wellFormed Config.default = true) :
      decode Config.default w = .ok i := hw ▸ decode_encode hi
  exact ⟨key (by decide) (by decide), key (by decide) (by decide), key (by decide) (by decide),
    key (by decide) (by decide), key (by decide) (by decide), key (by decide) (by decide),
    key (by decide) (by decide), key (by decide) (by decide),
    decode_ne_ok_of_unassigned (by decide), decode_ne_ok_of_unassigned (by decide)⟩

end Sys2Proof

namespace Sys2Proof.Machine

/-! ### A word placed for the next step (R45, R50, assumption 3) -/

/-- The agent that runs a decoded word exists: the producer and the consumer of a FIFO that exists are agents of a
legal configuration (R15, R17). -/
theorem hasAgent_agentFor {c : Config} {w : DWord} {i : Instr} (hl : c.legal = true) (h : decode c w = .ok i) :
    c.hasAgent ((roleOf i).agentFor c) = true := by
  have hinst {n : InstId} (hn : i.inst? = some n) : c.instLegal n = true :=
    Config.legal_instLegal hl ((wellFormed_of_decode h).1 n hn)
  cases hr : roleOf i with
  | fg => exact Config.hasAgent_fg c
  | producer n => exact (Config.instLegal_roles (hinst (inst_of_role (.inl hr)))).1
  | consumer n =>
    have hcons : c.cons[n] = FG := (Config.instLegal_roles (hinst (inst_of_role (.inr hr)))).2.2
    rw [Role.agentFor, hcons]
    exact Config.hasAgent_fg c
  | timer => exact Config.hasAgent_tmr c
  | any => exact Config.hasAgent_fg c

theorem State.readyToIssue_self (s : State) (a : AgentId) : (s.readyToIssue a).agent[a] =
    { s.agent[a] with run := .running, ctx := none, apc := max s.agent[a].apc 0 } := by
  simp [State.readyToIssue]

/-- Where FG is to issue, every other agent is HALTED (R69). -/
theorem State.readyToIssue_halted (s : State) {b : AgentId} (hb : b ≠ FG) :
    (s.readyToIssue FG).agent[b].run = .halted := by
  simp [State.readyToIssue, hb]

/-- The policy lets an agent made ready to issue step: where it is FG, no interrupt agent runs (R69). -/
theorem State.readyToIssue_policy (s : State) (a : AgentId) : (s.readyToIssue a).policyAllows a = true := by
  rw [State.policyAllows_iff, State.interruptsHalted_iff]
  by_cases ha : a = FG
  · subst ha
    exact .inr (.inr fun b hb _ => s.readyToIssue_halted hb)
  · exact .inr (.inl ha)

/-- An agent made ready to issue may step, if it exists (R53, R69, R70). -/
theorem State.readyToIssue_mayStep {s : State} {a : AgentId} (ha : s.cfg.hasAgent a = true) :
    (s.readyToIssue a).mayStep a = true :=
  (State.mayStep_iff _ a).mpr
    ⟨ha, congrArg Agent.run (s.readyToIssue_self a), rfl, s.readyToIssue_policy a⟩

/-- Who may step depends on neither the programs nor the script (R69, R70). -/
theorem State.mayStep_reprogram (s : State) (p : Vector (List DWord) 16) (ms : List Move) (a : AgentId) :
    { s with prog := p, moves := ms }.mayStep a = s.mayStep a := rfl

theorem State.loadWord_agent (s : State) (a : AgentId) (w : DWord) :
    (s.loadWord a w).agent[a] = (s.readyToIssue a).agent[a] := rfl

theorem State.loadWord_mayStep {s : State} {a : AgentId} (w : DWord) (ha : s.cfg.hasAgent a = true) :
    (s.loadWord a w).mayStep a = true :=
  ((s.readyToIssue a).mayStep_reprogram _ _ a).trans (State.readyToIssue_mayStep ha)

/-- The word is placed at the agent's APC, lengthening the program where it ends before (`placeWord_get`). -/
theorem State.loadWord_fetchWord? (s : State) (a : AgentId) (w : DWord) :
    ((s.loadWord a w).setActor a).fetchWord? = some w := by
  have hprog : (s.loadWord a w).prog[a] = placeWord s.prog[a] (max s.agent[a].apc 0).toNat w := by
    simp [State.loadWord, State.readyToIssue]
  have hapc : ((s.loadWord a w).setActor a).me.apc = (max s.agent[a].apc 0).toNat := by
    rw [State.me_setActor, State.loadWord_agent, State.readyToIssue_self]
    exact (Int.toNat_of_nonneg (le_max_right _ _)).symm
  rw [State.fetchWord?_at hapc]
  exact hprog ▸ placeWord_get _ _ w

/-- Settles O54: the agent chosen for the word exists and may issue it (`hasAgent_agentFor`, `allows_agentFor`), and
once the word stands at its APC the scripted step runs it (`stepRunsDecodedOperation`). -/
theorem placedWordRunsNext : Obligations.PlacedWordRunsNext := by
  intro s w i hl hw hd
  let word : DWord := BitVec.ofNat 64 w
  let a := (roleOf i).agentFor s.cfg
  have hplaced : s.withFetchWord 64 w = s.loadWord a word := by
    simp only [State.withFetchWord, Nat.mod_eq_of_lt hw, agentForWord, hd, a, word]
  have hctx : (s.loadWord a word).agent[a].ctx = none := by
    rw [State.loadWord_agent, State.readyToIssue_self]
  have hword : ((s.loadWord a word).setActor a).fetchWord? = some word := s.loadWord_fetchWord? a word
  have hmay : (s.loadWord a word).mayStep a = true := State.loadWord_mayStep word (hasAgent_agentFor hl hd)
  have hstep := (stepRunsDecodedOperation (s.loadWord a word) a s.moves hl rfl hmay).1 word i hctx hword hd
  rw [hplaced]
  exact ⟨_, hstep, hword, hctx, Role.allows_agentFor _ _⟩

/-! ### Canonical memory (R38, assumption 5) -/

/-- An agent's step stores inside the data space alone (`SharedEffect.memOk`). -/
theorem agentStep_memOk {s t : State} (hs : s.memOk) (h : agentStep s = .next t) : t.memOk := by
  have hexec {op : Instr} (ho : exec op s = .next t) : t.memOk := by
    obtain ⟨s', hshared, -, -, -, -, -, -, -, hmem⟩ := exec_shared ho
    rw [State.memOk, hmem]
    exact hshared.memOk hs
  rcases agentStep_cases s with ⟨f, hf⟩ | ⟨w, i, -, -, -, hf⟩ | ⟨c, i, -, -, hf⟩ | ⟨c, e, -, -, hf⟩ <;>
    rw [hf] at h
  · cases h
    exact hs
  · exact hexec h
  · exact hexec h
  · cases h

/-- Settles O57: an agent's step keeps the form (`agentStep_memOk`), and TRIGGER and RESET leave memory as it is. -/
theorem stepKeepsMemoryCanonical : Obligations.StepKeepsMemoryCanonical := by
  intro s t hs h
  obtain ⟨m, ms, n, hm⟩ := step_cases (step_legal h)
  rw [hm] at h
  rcases performMove_cases h with ⟨a, -, -, hstep⟩ | ⟨a, -, -, rfl⟩ | ⟨a, -, rfl⟩ | ⟨-, rfl⟩
  · exact agentStep_memOk (s := { s with moves := ms, choiceNo := n }.setActor a) hs hstep
  · exact hs
  · exact hs
  · exact hs

end Sys2Proof.Machine
